-- ==== Sys2Proof/Word.lean ====
section
/-! DEFINITION. Sys2Proof/Word.lean: the machine's two word types and the shape of its two word files
(spec/00_scope.md R9, R11, R12). Every datum of the block that is added, rotated, exclusive-ored or seen by the
host as a word is a bit vector; counts and offsets are natural numbers. -/

namespace Sys2Proof

/-- A byte, `u8` (R12). -/
abbrev Byte := BitVec 8

/-- A 32-bit unsigned word, `u32` (R9, R12). -/
abbrev Word := BitVec 32

/-- A file of sixteen words: the shape of `S[0..15]` and of `X[0..15]` (R20). -/
abbrev WordFile := Vector Word 16

/-- The 64-byte keystream block: the shape of `KS[0..63]` (R20). -/
abbrev Block := Vector Byte 64

end Sys2Proof
end

