-- ==== Sys2Proof/Config.lean ====
section
/-! DEFINITION. Sys2Proof/Config.lean: what the platform around the block fixes (spec/00_scope.md R10,
spec/92_eei_decisions.md "Open parameters"). The block's own two constant sets `SIGMA` and `TAU` are the named
constants `Sys2Proof.Config.sigma` and `Sys2Proof.Config.tau`; they stand in Sys2Proof/Machine/KeySchedule.lean,
where a later correction of their values may reach them. No rule of the spec leaves a value free, so this file
holds no free value. -/

namespace Sys2Proof

/-- A closed range of data-memory byte addresses. The open parameter `dmem_ok` (R10, R54) is written as a list of
the ranges the platform does NOT admit: every predicate on 32-bit addresses is such a list, and it stays plain data
(notes/assumptions/2.md). -/
structure AddrRange where
  first : Nat
  last  : Nat
  deriving DecidableEq, Repr

/-- Whether an address lies in the range. -/
def AddrRange.holds (r : AddrRange) (a : Nat) : Bool := decide (r.first ≤ a) && decide (a ≤ r.last)

/-- What a data-memory address that memory does not list reads as. DESIGN CHOICE, unsafe
(notes/assumptions/1.md): the initial contents of `DMEM` are an open parameter (R10); spec/95_test_vectors.md
section 2.5 takes them as zero where not stated. -/
def Config.dmemDefault : Byte := 0

end Sys2Proof
end

