-- ==== Sys2Proof/Syntax.lean ====
section
/-! DEFINITION. Sys2Proof/Syntax.lean: the fourteen commands of S20CORE (spec/30_encoding.md R78, one constructor
per row of spec/opcode_table.json), with their operands as the fields of the command word give them (R71 to R77). -/

namespace Sys2Proof

/-- The rounds variant (spec/10_state.md R31, R39): the three values `RV` and `RVSEL` can name. Code 3 is never
held and `RVSEL > 2` is an illegal word (R79 item 4), so there is no fourth constructor. -/
inductive Variant where
  | salsa20
  | salsa12
  | salsa8
  deriving DecidableEq, Repr

/-- The commands. -/
inductive Instr where
  /-- `QR a, b, c, d`: quarter-round on four words of `X` (R73, R99). -/
  | qr (a b c d : Fin 16)
  /-- `COLRND`: column-round on `X` (R100). -/
  | colrnd
  /-- `ROWRND`: row-round on `X` (R101). -/
  | rowrnd
  /-- `DBLRND`: one double-round on `X` (R102). -/
  | dblrnd
  /-- `INIT klen, nlen, rounds`: build the cipher state (R74, R110); the lengths are byte counts 0 to 255. -/
  | init (klen nlen : Byte) (rounds : Variant)
  /-- `CTRINC`: increment the block counter (R119). -/
  | ctrinc
  /-- `GENBLK`: generate one keystream block (R132). -/
  | genblk
  /-- `XLOAD`: copy `S` into `X` (R133). -/
  | xload
  /-- `XADD`: feed-forward addition of `S` into `X` (R134). -/
  | xadd
  /-- `XSER`: serialise `X` into `KS` (R135). -/
  | xser
  /-- `XORB imm8`: apply the keystream to one byte (R75, R152). -/
  | xorb (imm8 : Byte)
  /-- `XOR`: apply the keystream to a buffer in data memory (R157). -/
  | xor
  /-- `NEXTINT bits`: draw an integer of `2^wsel` bytes (R76, R163). -/
  | nextint (wsel : Fin 4)
  /-- `RESET`: restart the keystream (R168). -/
  | reset
  deriving DecidableEq, Repr

end Sys2Proof
end

