-- ==== Sys2Proof/WellFormed.lean ====
section
/-! DEFINITION. Sys2Proof/WellFormed.lean: which terms of `Instr` a command word can spell
(spec/30_encoding.md R79). The widths of the operand fields and the three values of `RVSEL` are in the types, so one
check is left: `QR` with two equal indices is no command (R79 item 3). -/

namespace Sys2Proof

/-- The four indices of a quarter-round are pairwise distinct (R73, R93). -/
def distinctIndices (a b c d : Fin 16) : Bool :=
  decide (a ≠ b) && decide (a ≠ c) && decide (a ≠ d) && decide (b ≠ c) && decide (b ≠ d) && decide (c ≠ d)

/-- The command is one that a legal word spells. -/
def Instr.wf : Instr → Bool
  | .qr a b c d => distinctIndices a b c d
  | .colrnd => true
  | .rowrnd => true
  | .dblrnd => true
  | .init _ _ _ => true
  | .ctrinc => true
  | .genblk => true
  | .xload => true
  | .xadd => true
  | .xser => true
  | .xorb _ => true
  | .xor => true
  | .nextint _ => true
  | .reset => true

end Sys2Proof
end

