-- ==== Sys2Proof/Decode.lean ====
section
/-! DEFINITION. Sys2Proof/Decode.lean: the command-word decoder, total on all 2^32 words and rejecting by name
(spec/30_encoding.md R70 to R83), the encoder after it, and the match and mask of each row of R78. A command is one
32-bit number delivered whole (R58, R70): there is no byte order and no length to decode. -/

namespace Sys2Proof

/-- `w[hi:lo]` as an unsigned number (spec/00_scope.md R13). -/
def field (w : Word) (hi lo : Nat) : Nat := w.toNat / 2 ^ lo % 2 ^ (hi - lo + 1)

/-- Why a word spells no command: the cases of R79. All of them end with `IllegalCommand`. -/
inductive Illegal where
  /-- Case 1: `OPC` is not one of the fourteen values. -/
  | unknownOpcode
  /-- Case 2: a reserved field of the opcode's format is not zero. -/
  | reservedField
  /-- Case 3: `QR` with two or more equal indices. -/
  | repeatedIndex
  /-- Case 4: `INIT` with `RVSEL` not 0, 1 or 2. -/
  | unknownRounds
  deriving DecidableEq, Repr

/-- The coding of the rounds variant, `RV` and `RVSEL` (R39, R74). -/
def Variant.code : Variant → Nat
  | .salsa20 => 0
  | .salsa12 => 1
  | .salsa8 => 2

/-- The variant a rounds selector names, if any (R39, R79 item 4). -/
def Variant.ofCode : Nat → Option Variant
  | 0 => some .salsa20
  | 1 => some .salsa12
  | 2 => some .salsa8
  | _ => none

/-- Format Z (R72): bits 23:0 are reserved. -/
def decodeZ (w : Word) (i : Instr) : Except Illegal Instr :=
  if field w 23 0 = 0 then .ok i else .error .reservedField

/-- Format Q (R73): four 4-bit indices, bits 23:16 reserved, the indices pairwise distinct. -/
def decodeQ (w : Word) : Except Illegal Instr :=
  let a := Fin.ofNat 16 (field w 15 12)
  let b := Fin.ofNat 16 (field w 11 8)
  let c := Fin.ofNat 16 (field w 7 4)
  let d := Fin.ofNat 16 (field w 3 0)
  if field w 23 16 = 0 then
    if distinctIndices a b c d then .ok (.qr a b c d) else .error .repeatedIndex
  else .error .reservedField

/-- Format I (R74): `KLEN`, `NLEN`, `RVSEL`. Unsupported lengths are legal words (R79). -/
def decodeI (w : Word) : Except Illegal Instr :=
  match Variant.ofCode (field w 7 0) with
  | some v => .ok (.init (BitVec.ofNat 8 (field w 23 16)) (BitVec.ofNat 8 (field w 15 8)) v)
  | none => .error .unknownRounds

/-- Format B (R75): `IMM8`, bits 23:8 reserved. -/
def decodeB (w : Word) : Except Illegal Instr :=
  if field w 23 8 = 0 then .ok (.xorb (BitVec.ofNat 8 (field w 7 0))) else .error .reservedField

/-- Format W (R76): `WSEL`, bits 23:2 reserved. -/
def decodeW (w : Word) : Except Illegal Instr :=
  if field w 23 2 = 0 then .ok (.nextint (Fin.ofNat 4 (field w 1 0))) else .error .reservedField

/-- The decoder: bits 31:24 select the command and its format (R70, R78). -/
def decode (w : Word) : Except Illegal Instr :=
  match field w 31 24 with
  | 0x10 => decodeQ w
  | 0x11 => decodeZ w .colrnd
  | 0x12 => decodeZ w .rowrnd
  | 0x13 => decodeZ w .dblrnd
  | 0x20 => decodeI w
  | 0x21 => decodeZ w .ctrinc
  | 0x30 => decodeZ w .genblk
  | 0x31 => decodeZ w .xload
  | 0x32 => decodeZ w .xadd
  | 0x33 => decodeZ w .xser
  | 0x40 => decodeB w
  | 0x41 => decodeZ w .xor
  | 0x42 => decodeW w
  | 0x43 => decodeZ w .reset
  | _ => .error .unknownOpcode

/-- The opcode of a command (R78). -/
def Instr.opcode : Instr → Nat
  | .qr _ _ _ _ => 0x10
  | .colrnd => 0x11
  | .rowrnd => 0x12
  | .dblrnd => 0x13
  | .init _ _ _ => 0x20
  | .ctrinc => 0x21
  | .genblk => 0x30
  | .xload => 0x31
  | .xadd => 0x32
  | .xser => 0x33
  | .xorb _ => 0x40
  | .xor => 0x41
  | .nextint _ => 0x42
  | .reset => 0x43

/-- Bits 23:0 of a command's word (R72 to R76). -/
def Instr.operandBits : Instr → Nat
  | .qr a b c d => a.val * 2 ^ 12 + b.val * 2 ^ 8 + c.val * 2 ^ 4 + d.val
  | .init klen nlen v => klen.toNat * 2 ^ 16 + nlen.toNat * 2 ^ 8 + v.code
  | .xorb imm8 => imm8.toNat
  | .nextint wsel => wsel.val
  | .colrnd => 0
  | .rowrnd => 0
  | .dblrnd => 0
  | .ctrinc => 0
  | .genblk => 0
  | .xload => 0
  | .xadd => 0
  | .xser => 0
  | .xor => 0
  | .reset => 0

/-- The encoder: `word = (OPC << 24) | …` (R72 to R76). -/
def encode (i : Instr) : Word := BitVec.ofNat 32 (i.opcode * 2 ^ 24 + i.operandBits)

/-- The `match` column of R78. -/
def Instr.matchWord (i : Instr) : Word := BitVec.ofNat 32 (i.opcode * 2 ^ 24)

/-- The `mask` column of R78. -/
def Instr.maskWord : Instr → Word
  | .qr _ _ _ _ => 0xFFFF0000
  | .init _ _ _ => 0xFF000000
  | .xorb _ => 0xFFFFFF00
  | .nextint _ => 0xFFFFFFFC
  | .colrnd => 0xFFFFFFFF
  | .rowrnd => 0xFFFFFFFF
  | .dblrnd => 0xFFFFFFFF
  | .ctrinc => 0xFFFFFFFF
  | .genblk => 0xFFFFFFFF
  | .xload => 0xFFFFFFFF
  | .xadd => 0xFFFFFFFF
  | .xser => 0xFFFFFFFF
  | .xor => 0xFFFFFFFF
  | .reset => 0xFFFFFFFF

/-- The instruction the decoder reads from the table's word of `nbits` bits. -/
def decodeTableWord (nbits w : Nat) : Option Instr :=
  match decode (BitVec.ofNat 32 (w % 2 ^ nbits)) with
  | .ok i => some i
  | .error _ => none

end Sys2Proof
end

