-- ==== Sys2Proof/Machine/State.lean ====
section
/-! DEFINITION. Sys2Proof/Machine/State.lean: the state as plain data (spec/10_state.md R20 to R49) and its reset
values (R48). The first group of fields is the complete state of the block, under the spec's own names; the second is
the platform it stands in (data memory R52, its admission R54) and the host that drives it (R18, R49). -/

namespace Sys2Proof.Machine

/-- The outcome code of the most recent command (R40, R190); codes 6 to 255 never occur, so they have no constructor. -/
inductive ErrCode where
  /-- 0: the command completed (R191). -/
  | ok
  /-- 1: the word spells no command (R192). -/
  | illegalCommand
  /-- 2: no CipherState exists (R193). -/
  | notKeyed
  /-- 3: the key length is not 16 or 32 (R194). -/
  | invalidKeySize
  /-- 4: the nonce length is not 8 (R195). -/
  | invalidNonceSize
  /-- 5: a data-memory access was not admitted (R196). -/
  | busFault
  deriving DecidableEq, Repr

/-- One transaction of the host (R8, R16, R51) or of the platform (R215), applied between commands. `size` is the
access width in bytes and `off` the byte offset from the block's base address; a width other than 4 can be asked for
and is refused (R59). -/
inductive HostAccess where
  /-- `HostRead(off)`. -/
  | read (size off : Nat)
  /-- `HostWrite(off, v)`. -/
  | write (size off : Nat) (v : Word)
  /-- The hardware reset event (R215). -/
  | hardwareReset
  deriving DecidableEq, Repr

/-- What the register space answered to the host's most recent access: the only output of the block (R37, R45). -/
inductive HostReply where
  /-- No access has completed yet. -/
  | none
  /-- A read completed and returned this word. -/
  | data (w : Word)
  /-- A write completed. -/
  | done
  deriving DecidableEq, Repr

/-- Why the register space refuses an access (R45, R59). -/
inductive AccessError where
  /-- The access is not 32 bits wide. -/
  | width
  /-- The offset is not a multiple of 4. -/
  | misaligned
  /-- The offset is 0x140 or above. -/
  | outOfRange
  /-- The offset is in 0x024 to 0x03C or 0x068 to 0x07C. -/
  | reservedOffset
  deriving DecidableEq, Repr

/-- Memory: (address, byte) pairs, addresses strictly rising, no byte equal to `Config.dmemDefault`. -/
abbrev Memory := List Host.Cell

structure State where
  /-- `S[0..15]`: the CipherState (R21, R22). -/
  S : WordFile
  /-- `X[0..15]`: the working file (R32). -/
  X : WordFile
  /-- `KS[0..63]`: the keystream block (R33). -/
  KS : Block
  /-- `CUR`, 0 to 63: the cursor (R30). -/
  CUR : Fin 64
  /-- `RV`: the rounds variant (R31, R39). -/
  RV : Variant
  /-- `KEY[0..31]`: the key buffer (R34). -/
  KEY : Vector Byte 32
  /-- `NONCE[0..7]`: the nonce buffer (R35). -/
  NONCE : Vector Byte 8
  /-- `KEYED`: a CipherState exists (R41). -/
  KEYED : Bool
  /-- `ERR[7:0]`: the outcome of the most recent command (R40). -/
  ERR : ErrCode
  /-- `RESULT`: the value `XORB` or `NEXTINT` returned (R43). -/
  RESULT : BitVec 64
  /-- `XCNT`: bytes completed by the most recent `XOR` (R42). -/
  XCNT : Word
  /-- `SRC`: data-memory address of `input` (R44). -/
  SRC : Word
  /-- `DST`: data-memory address of `output` (R44). -/
  DST : Word
  /-- `LEN`: the length of `xor`, signed (R44, R158). -/
  LEN : Word
  /-- `DMEM`: the platform's data memory (R52). -/
  dmem : Memory
  /-- The addresses for which `dmem_ok` is false (R54). No step changes it. -/
  dmemHoles : List AddrRange
  /-- The host's accesses still to come, in order: the "program" (R18, R49, R86). -/
  pending : List HostAccess
  /-- What the host's most recent access returned. -/
  reply : HostReply
  deriving DecidableEq, Repr

/-- No step of this machine stops with a fault: every one of the 2^32 command words has an outcome in which the
machine goes on (R18, R81, R202), and an error is a value in `ERR`, not a stop (R17, R201). -/
inductive Fault where
  deriving DecidableEq, Repr

/-- What the machine takes no step for. -/
inductive Refusal where
  /-- Raised only by an arm of `exec` whose command has no meaning yet; there is none. Safe. -/
  | notModelled (mnemonic : String)
  /-- Raised by the register space for an access it refuses: "it returns no value, changes no state …
  A model gives a refused access no step" (R45, R59, U7). No command raises it. Safe. -/
  | access (why : AccessError)
  deriving DecidableEq, Repr

/-- The state after a hardware reset (R48, R215): all of the block's state is zero. The platform's part is a launch
state: memory lists nothing, every address is admitted, and the host has asked for nothing yet
(notes/assumptions/1.md, 2.md, 3.md). -/
def State.reset : State where
  S := Vector.replicate 16 0
  X := Vector.replicate 16 0
  KS := Vector.replicate 64 0
  CUR := 0
  RV := .salsa20
  KEY := Vector.replicate 32 0
  NONCE := Vector.replicate 8 0
  KEYED := false
  ERR := .ok
  RESULT := 0
  XCNT := 0
  SRC := 0
  DST := 0
  LEN := 0
  dmem := []
  dmemHoles := []
  pending := []
  reply := .none

end Sys2Proof.Machine
end

