-- ==== Sys2Proof/Machine/Ops.lean ====
section
/-! DEFINITION. Sys2Proof/Machine/Ops.lean: the shared operations: the block's arithmetic (spec/40_permutation.md
R90 to R92), data memory (spec/20_memory.md R52 to R61, spec/00_scope.md R16), and how a command ends
(spec/00_scope.md R17, spec/60_exceptions.md R190, R201). The block has no trap, no vector and no return: raising an
error IS the one exception operation, `raise`, and there is nothing to restore after it (R204). -/

namespace Sys2Proof.Machine

/-- `rotl32(v, n)`, for 1 ≤ n ≤ 31 (R90). -/
def rotl32 (v : Word) (n : Nat) : Word := (v <<< n) ||| (v >>> (32 - n))

/-- `add32(a, b) = (a + b) mod 2^32` (R91). -/
def add32 (a b : Word) : Word := a + b

/-- The byte memory holds at an address. -/
def Memory.read : Memory → Nat → Byte
  | [], _ => Config.dmemDefault
  | (k, v) :: m, a => if k = a then v else Memory.read m a

/-- Memory with one byte written, in canonical form. -/
def Memory.write : Memory → Nat → Byte → Memory
  | [], a, v => if v = Config.dmemDefault then [] else [(a, v)]
  | (k, w) :: m, a, v =>
    if a < k then (if v = Config.dmemDefault then (k, w) :: m else (a, v) :: (k, w) :: m)
    else if a = k then (if v = Config.dmemDefault then m else (a, v) :: m)
    else (k, w) :: Memory.write m a v

/-- The canonical form: addresses strictly rising and below 2^32 (R52), no entry equal to what an unlisted address
reads as. -/
abbrev Memory.wf (m : Memory) : Prop :=
  m.Pairwise (fun p q => p.1 < q.1) ∧ ∀ p ∈ m, p.1 < 2 ^ 32 ∧ p.2 ≠ Config.dmemDefault

/-- `dmem_ok(a)`: whether the platform admits an access to this address (R54). -/
def State.dmemOk (s : State) (a : Word) : Bool := !(s.dmemHoles.any fun r => r.holds a.toNat)

/-- The byte of `DMEM` at a 32-bit address, whether or not the platform admits an access there. -/
def State.byteAt (s : State) (a : Word) : Byte := s.dmem.read a.toNat

/-- `MemRead(a, 1)`; nothing when the platform does not admit it (R16, R54). -/
def memRead (s : State) (a : Word) : Option Byte := if s.dmemOk a then some (s.byteAt a) else none

/-- `MemWrite(a, 1, v)`; nothing when the platform does not admit it, and then nothing is written (R16, R54, R161). -/
def memWrite (s : State) (a : Word) (v : Byte) : Option State :=
  if s.dmemOk a then some { s with dmem := s.dmem.write a.toNat v } else none

/-- `raise E`: the command ends at once with error `E`; only `ERR` changes (R17, R201). -/
def raise (e : ErrCode) (s : State) : Host.Outcome State Fault Refusal := .next { s with ERR := e }

/-- A command that does not raise ends with `ERR <- 0` (R17, R81 step 4). -/
def finish (s : State) : Host.Outcome State Fault Refusal := .next { s with ERR := .ok }

end Sys2Proof.Machine
end

