-- ==== Sys2Proof/Machine/Operands.lean ====
section
/-! DEFINITION. Sys2Proof/Machine/Operands.lean: how operands are assembled: little-endian words and bytes
(spec/00_scope.md R15, spec/20_memory.md R55 to R58), the word views of the byte buffers (spec/10_state.md R46), the
width of `NEXTINT` (spec/30_encoding.md R76), and the signed length and wrapping addresses of `XOR`
(spec/30_encoding.md R77, spec/43_byte_cursor.md R158, R159). -/

namespace Sys2Proof.Machine

/-- Byte `j` of a word: `w[8j+7:8j]`, the `j`-th of `BYTES_LE(w)` (R15). -/
def byteOf (w : Word) (j : Nat) : Byte := w.extractLsb' (8 * j) 8

/-- `LE32` of four bytes in index order (R15). -/
def le32Of (b0 b1 b2 b3 : Byte) : Word :=
  BitVec.ofNat 32 (b0.toNat + 2 ^ 8 * b1.toNat + 2 ^ 16 * b2.toNat + 2 ^ 24 * b3.toNat)

/-- `LE32(b, o)` (R15). -/
def le32 {n : Nat} (b : Vector Byte n) (o : Nat) (h : o + 4 ≤ n) : Word := le32Of b[o] b[o + 1] b[o + 2] b[o + 3]

/-- A buffer with the four bytes of a word stored little-endian at offset `o` (R46). -/
def putWord {n : Nat} (b : Vector Byte n) (o : Nat) (w : Word) (h : o + 4 ≤ n) : Vector Byte n :=
  (((b.set o (byteOf w 0)).set (o + 1) (byteOf w 1)).set (o + 2) (byteOf w 2)).set (o + 3) (byteOf w 3)

/-- `KEYW[k] = LE32(KEY, 4k)` (R46). -/
def keyWord (key : Vector Byte 32) (k : Fin 8) : Word := le32 key (4 * k.val) (by omega)

/-- `NONCEW[k] = LE32(NONCE, 4k)` (R46). -/
def nonceWord (nonce : Vector Byte 8) (k : Fin 2) : Word := le32 nonce (4 * k.val) (by omega)

/-- `KSW[i] = LE32(KS, 4i)` (R46). -/
def ksWord (ks : Block) (i : Fin 16) : Word := le32 ks (4 * i.val) (by omega)

/-- The number of bytes `NEXTINT` draws, `2^WSEL` (R76, R163). -/
def drawWidth (wsel : Fin 4) : Nat := 2 ^ wsel.val

/-- The number of bytes `XOR` processes: `LEN` as a two's-complement number, none when it is zero or negative
(R77, R158). -/
def xorLength (s : State) : Nat := s.LEN.toInt.toNat

/-- `(SRC + i) mod 2^32` (R159). -/
def xorSrc (s : State) (i : Nat) : Word := s.SRC + BitVec.ofNat 32 i

/-- `(DST + i) mod 2^32` (R159). -/
def xorDst (s : State) (i : Nat) : Word := s.DST + BitVec.ofNat 32 i

end Sys2Proof.Machine
end

