-- ==== Sys2Proof/Machine/Flags.lean ====
section
/-! DEFINITION. Sys2Proof/Machine/Flags.lean: the block's status: the codes of `ERR` (spec/10_state.md R40), the
`STATUS` word (R38), and the gate `KEYED` (R41, spec/30_encoding.md R80). The arithmetic of the block sets no carry,
overflow, zero or sign flag (R41), so there is no other flag computation. -/

namespace Sys2Proof.Machine

/-- The code held in `ERR[7:0]` (R40, R190). -/
def ErrCode.code : ErrCode → Byte
  | .ok => 0
  | .illegalCommand => 1
  | .notKeyed => 2
  | .invalidKeySize => 3
  | .invalidNonceSize => 4
  | .busFault => 5

/-- The word read at `ERR`: the code in bits 7:0, bits 31:8 read 0 (R40). -/
def errWord (e : ErrCode) : Word := e.code.setWidth 32

/-- The word read at `STATUS`: `KEYED` in bit 0, `RV` in bits 2:1, `CUR` in bits 13:8, every other bit 0 (R38). -/
def statusWord (s : State) : Word := BitVec.ofNat 32 (s.KEYED.toNat + 2 * s.RV.code + 2 ^ 8 * s.CUR.val)

/-- Step 2 of R81: a command that needs a CipherState ends with `NotKeyed` while `KEYED = 0` (R80, R193). -/
def whenKeyed (s : State) (body : Host.Outcome State Fault Refusal) : Host.Outcome State Fault Refusal :=
  if s.KEYED then body else raise .notKeyed s

end Sys2Proof.Machine
end

