-- ==== Sys2Proof/Machine/Permutation.lean ====
section
/-! DEFINITION. Sys2Proof/Machine/Permutation.lean: the mixing functions (spec/40_permutation.md R93 to R97) and the
commands `QR`, `COLRND`, `ROWRND`, `DBLRND` (R99 to R102). None of them needs `KEYED`. -/

namespace Sys2Proof.Machine

/-- `QRF(a, b, c, d)` on the file `x`: four words updated in place, each step on the values already updated (R93). -/
def quarterRound (a b c d : Fin 16) (x : WordFile) : WordFile :=
  let x := x.set b (x[b] ^^^ rotl32 (add32 x[a] x[d]) 7)
  let x := x.set c (x[c] ^^^ rotl32 (add32 x[b] x[a]) 9)
  let x := x.set d (x[d] ^^^ rotl32 (add32 x[c] x[b]) 13)
  x.set a (x[a] ^^^ rotl32 (add32 x[d] x[c]) 18)

/-- `COLROUND(x)` (R95). -/
def columnRound (x : WordFile) : WordFile :=
  let x := quarterRound 0 4 8 12 x
  let x := quarterRound 5 9 13 1 x
  let x := quarterRound 10 14 2 6 x
  quarterRound 15 3 7 11 x

/-- `ROWROUND(x)` (R96). -/
def rowRound (x : WordFile) : WordFile :=
  let x := quarterRound 0 1 2 3 x
  let x := quarterRound 5 6 7 4 x
  let x := quarterRound 10 11 8 9 x
  quarterRound 15 12 13 14 x

/-- `DOUBLEROUND(x)`: column-round, then row-round (R97). -/
def doubleRound (x : WordFile) : WordFile := rowRound (columnRound x)

/-- `QR a, b, c, d` (R99). A term with two equal indices is no command (R79 item 3): no word decodes to it, and it
ends as such a word does. -/
def execQr (a b c d : Fin 16) (s : State) : Host.Outcome State Fault Refusal :=
  if distinctIndices a b c d then finish { s with X := quarterRound a b c d s.X } else raise .illegalCommand s

/-- `COLRND` (R100). -/
def execColrnd (s : State) : Host.Outcome State Fault Refusal := finish { s with X := columnRound s.X }

/-- `ROWRND` (R101). -/
def execRowrnd (s : State) : Host.Outcome State Fault Refusal := finish { s with X := rowRound s.X }

/-- `DBLRND`: one double-round, whatever `RV` (R102). -/
def execDblrnd (s : State) : Host.Outcome State Fault Refusal := finish { s with X := doubleRound s.X }

end Sys2Proof.Machine
end

