-- ==== Sys2Proof/Machine/KeySchedule.lean ====
section
/-! DEFINITION. Sys2Proof/Machine/KeySchedule.lean: the constant sets (spec/41_key_schedule.md R111), the cipher
state that `INIT` builds (R110 to R117), and the block counter with `CTRINC` (R118 to R120). -/

namespace Sys2Proof

/-- `SIGMA`, the constant set of a 32-byte key (R111; the spec marks the values as general knowledge, G1). -/
def Config.sigma : Vector Word 4 := #v[0x61707865, 0x3320646E, 0x79622D32, 0x6B206574]

/-- `TAU`, the constant set of a 16-byte key (R111; the spec marks the values as general knowledge, G1). -/
def Config.tau : Vector Word 4 := #v[0x61707865, 0x3120646E, 0x79622D36, 0x6B206574]

end Sys2Proof

namespace Sys2Proof.Machine

/-- The sixteen words of a fresh cipher state from a constant set, four words for `S[1..4]`, four for `S[11..14]` and
the nonce; the counter words are 0 (R110, R114). -/
def freshState (cs : Vector Word 4) (lo hi : Fin 4 → Word) (nonce : Vector Byte 8) : WordFile :=
  #v[cs[0], lo 0, lo 1, lo 2, lo 3, cs[1], nonceWord nonce 0, nonceWord nonce 1,
     0, 0, cs[2], hi 0, hi 1, hi 2, hi 3, cs[3]]

/-- The cipher state of a 32-byte key: bytes 0 to 15 fill words 1 to 4, bytes 16 to 31 words 11 to 14 (R112). -/
def keySchedule32 (key : Vector Byte 32) (nonce : Vector Byte 8) : WordFile :=
  freshState Config.sigma (fun i => keyWord key (Fin.ofNat 8 i.val)) (fun i => keyWord key (Fin.ofNat 8 (4 + i.val))) nonce

/-- The cipher state of a 16-byte key: bytes 0 to 15 fill words 1 to 4 and again words 11 to 14 (R113). -/
def keySchedule16 (key : Vector Byte 32) (nonce : Vector Byte 8) : WordFile :=
  freshState Config.tau (fun i => keyWord key (Fin.ofNat 8 i.val)) (fun i => keyWord key (Fin.ofNat 8 i.val)) nonce

/-- `INIT klen, nlen, rounds` (R110, R115, R116): the key check comes before the nonce check (R199). -/
def execInit (klen nlen : Byte) (rounds : Variant) (s : State) : Host.Outcome State Fault Refusal :=
  if klen ≠ 16 ∧ klen ≠ 32 then raise .invalidKeySize s
  else if nlen ≠ 8 then raise .invalidNonceSize s
  else
    finish { s with
      S := if klen = 32 then keySchedule32 s.KEY s.NONCE else keySchedule16 s.KEY s.NONCE
      RV := rounds
      CUR := 0
      KEYED := true }

/-- `CounterIncrement()` on the cipher state: word 8 wraps and carries into word 9, which wraps silently
(R118, R120). -/
def counterIncrement (sw : WordFile) : WordFile :=
  let sw := sw.set 8 (add32 sw[8] 1)
  if sw[8] = 0 then sw.set 9 (add32 sw[9] 1) else sw

/-- The block counter `CTR = S[8] + 2^32 * S[9]` (R29). -/
def counter (sw : WordFile) : BitVec 64 := sw[9] ++ sw[8]

/-- `CTRINC` (R119). -/
def execCtrinc (s : State) : Host.Outcome State Fault Refusal :=
  whenKeyed s (finish { s with S := counterIncrement s.S })

end Sys2Proof.Machine
end

