-- ==== Sys2Proof/Machine/Keystream.lean ====
section
/-! DEFINITION. Sys2Proof/Machine/Keystream.lean: block generation (spec/42_keystream_generator.md R130, R131, R137)
and the commands `GENBLK`, `XLOAD`, `XADD`, `XSER` (R132 to R135). None of them reads or writes `CUR` (R30). -/

namespace Sys2Proof.Machine

/-- `NDR(RV)`: double-rounds per block (R39, R131). -/
def ndr : Variant → Nat
  | .salsa20 => 10
  | .salsa12 => 6
  | .salsa8 => 4

/-- `DOUBLEROUND` repeated `n` times (R130). -/
def doubleRounds : Nat → WordFile → WordFile
  | 0, x => x
  | n + 1, x => doubleRounds n (doubleRound x)

/-- The feed-forward: sixteen independent wrapping additions (R130, R134). -/
def feedForward (x sw : WordFile) : WordFile := Vector.ofFn fun i => add32 x[i] sw[i]

/-- `KS[4i + j] = X[i][8j+7:8j]` (R56, R130, R135). -/
def serialise (x : WordFile) : Block := Vector.ofFn fun k => byteOf (x[k.val / 4]'(by omega)) (k.val % 4)

/-- The sixteen sums that block generation leaves in `X` (R130). -/
def blockWords (sw : WordFile) (v : Variant) : WordFile := feedForward (doubleRounds (ndr v) sw) sw

/-- `Block(s, rv)`: the 64 bytes that block generation writes to `KS` (R137). -/
def block (sw : WordFile) (v : Variant) : Block := serialise (blockWords sw v)

/-- `GenerateBlock()` (R130): the block is computed from the counter before the increment. -/
def generateBlock (s : State) : State :=
  { s with
    X := blockWords s.S s.RV
    KS := block s.S s.RV
    S := counterIncrement s.S }

/-- `GENBLK` (R132). -/
def execGenblk (s : State) : Host.Outcome State Fault Refusal := whenKeyed s (finish (generateBlock s))

/-- `XLOAD` (R133). -/
def execXload (s : State) : Host.Outcome State Fault Refusal := whenKeyed s (finish { s with X := s.S })

/-- `XADD` (R134). -/
def execXadd (s : State) : Host.Outcome State Fault Refusal :=
  whenKeyed s (finish { s with X := feedForward s.X s.S })

/-- `XSER`: does not need `KEYED` (R135). -/
def execXser (s : State) : Host.Outcome State Fault Refusal := finish { s with KS := serialise s.X }

end Sys2Proof.Machine
end

