-- ==== Sys2Proof/Machine/Cursor.lean ====
section
/-! DEFINITION. Sys2Proof/Machine/Cursor.lean: the byte pull through which every keystream byte is delivered
(spec/43_byte_cursor.md R150) and the commands `XORB`, `XOR`, `NEXTINT`, `RESET` (R152 to R168). -/

namespace Sys2Proof.Machine

/-- The lazy regeneration of R150: a pull at `CUR = 0` first generates a block. -/
def refill (s : State) : State := if s.CUR = 0 then generateBlock s else s

/-- `NextKsByte()`: the byte delivered, and the state after (R150). -/
def nextKsByte (s : State) : Byte × State :=
  let s := refill s
  (s.KS[s.CUR], { s with CUR := s.CUR + 1 })

/-- The state after `m` pulls. -/
def afterPulls : Nat → State → State
  | 0, s => s
  | m + 1, s => (nextKsByte (afterPulls m s)).2

/-- The byte that pull number `m` delivers, counted from 0 (R151). -/
def pulledByte (s : State) (m : Nat) : Byte := (nextKsByte (afterPulls m s)).1

/-- `XORB imm8` (R152). -/
def execXorb (imm8 : Byte) (s : State) : Host.Outcome State Fault Refusal :=
  whenKeyed s <|
    let (k, t) := nextKsByte s
    finish { t with RESULT := (imm8 ^^^ k).setWidth 64 }

/-- One pass through the loop of R157, for byte `i`: read, pull, write, count. An access that is not admitted leaves
the state as of that point (R161). -/
def xorByte (i : Nat) (s : State) : Except State State :=
  match memRead s (xorSrc s i) with
  | none => .error s
  | some v =>
    let (k, t) := nextKsByte s
    match memWrite t (xorDst t i) (v ^^^ k) with
    | none => .error t
    | some u => .ok { u with XCNT := BitVec.ofNat 32 (i + 1) }

/-- The loop of R157: `n` more bytes from byte `i` on. -/
def xorLoop : Nat → Nat → State → Except State State
  | 0, _, s => .ok s
  | n + 1, i, s =>
    match xorByte i s with
    | .error t => .error t
    | .ok t => xorLoop n (i + 1) t

/-- `XOR` (R157 to R161). -/
def execXor (s : State) : Host.Outcome State Fault Refusal :=
  whenKeyed s <|
    match xorLoop (xorLength s) 0 { s with XCNT := 0 } with
    | .ok t => finish t
    | .error t => raise .busFault t

/-- The loop of R163: `n` more bytes from byte `j` on, little-endian (R164). -/
def drawBytes : Nat → Nat → BitVec 64 → State → BitVec 64 × State
  | 0, _, r, s => (r, s)
  | n + 1, j, r, s =>
    let (b, t) := nextKsByte s
    drawBytes n (j + 1) (r + (b.setWidth 64 <<< (8 * j))) t

/-- `NEXTINT bits` (R163 to R165). -/
def execNextint (wsel : Fin 4) (s : State) : Host.Outcome State Fault Refusal :=
  whenKeyed s <|
    let (r, t) := drawBytes (drawWidth wsel) 0 0 s
    finish { t with RESULT := r }

/-- `RESET`: the counter words and the cursor to 0, nothing else (R168). -/
def execReset (s : State) : Host.Outcome State Fault Refusal :=
  whenKeyed s (finish { s with S := (s.S.set 8 0).set 9 0, CUR := 0 })

end Sys2Proof.Machine
end

