-- ==== Sys2Proof/Machine/Dispatch.lean ====
section
/-! DEFINITION. Sys2Proof/Machine/Dispatch.lean: one arm per command, each one direct call of its meaning. -/

namespace Sys2Proof.Machine

def exec (i : Instr) (s : State) : Host.Outcome State Fault Refusal :=
  match i with
  -- spec/40_permutation.md
  | .qr a b c d => Sys2Proof.Machine.execQr a b c d s
  | .colrnd => Sys2Proof.Machine.execColrnd s
  | .rowrnd => Sys2Proof.Machine.execRowrnd s
  | .dblrnd => Sys2Proof.Machine.execDblrnd s
  -- spec/41_key_schedule.md
  | .init klen nlen rounds => Sys2Proof.Machine.execInit klen nlen rounds s
  | .ctrinc => Sys2Proof.Machine.execCtrinc s
  -- spec/42_keystream_generator.md
  | .genblk => Sys2Proof.Machine.execGenblk s
  | .xload => Sys2Proof.Machine.execXload s
  | .xadd => Sys2Proof.Machine.execXadd s
  | .xser => Sys2Proof.Machine.execXser s
  -- spec/43_byte_cursor.md
  | .xorb imm8 => Sys2Proof.Machine.execXorb imm8 s
  | .xor => Sys2Proof.Machine.execXor s
  | .nextint wsel => Sys2Proof.Machine.execNextint wsel s
  | .reset => Sys2Proof.Machine.execReset s

end Sys2Proof.Machine
end

