-- ==== Sys2Proof/Machine/RegSpace.lean ====
section
/-! DEFINITION. Sys2Proof/Machine/RegSpace.lean: the register space (spec/10_state.md R36 to R46, spec/20_memory.md
R51, R59, R62, R63), the delivery of a command word (spec/30_encoding.md R81), and the hardware reset event
(spec/70_reset_and_hazards.md R215). -/

namespace Sys2Proof.Machine

/-- The registers of the map of R36. -/
inductive Reg where
  | cmd
  | status
  | err
  | xcnt
  | resultLo
  | resultHi
  | src
  | dst
  | len
  | keyw (k : Fin 8)
  | noncew (k : Fin 2)
  | s (i : Fin 16)
  | x (i : Fin 16)
  | ksw (i : Fin 16)
  deriving DecidableEq, Repr

/-- The register at a byte offset (R36). -/
def regAt (off : Nat) : Except AccessError Reg :=
  if off = 0x000 then .ok .cmd
  else if off = 0x004 then .ok .status
  else if off = 0x008 then .ok .err
  else if off = 0x00C then .ok .xcnt
  else if off = 0x010 then .ok .resultLo
  else if off = 0x014 then .ok .resultHi
  else if off = 0x018 then .ok .src
  else if off = 0x01C then .ok .dst
  else if off = 0x020 then .ok .len
  else if off < 0x040 then .error .reservedOffset
  else if off < 0x060 then .ok (.keyw (Fin.ofNat 8 ((off - 0x040) / 4)))
  else if off < 0x068 then .ok (.noncew (Fin.ofNat 2 ((off - 0x060) / 4)))
  else if off < 0x080 then .error .reservedOffset
  else if off < 0x0C0 then .ok (.s (Fin.ofNat 16 ((off - 0x080) / 4)))
  else if off < 0x100 then .ok (.x (Fin.ofNat 16 ((off - 0x0C0) / 4)))
  else if off < 0x140 then .ok (.ksw (Fin.ofNat 16 ((off - 0x100) / 4)))
  else .error .outOfRange

/-- The register an access reaches: only aligned 32-bit words of the space are accesses at all (R45, R51, R59). -/
def regOf (size off : Nat) : Except AccessError Reg :=
  if size ≠ 4 then .error .width
  else if off % 4 ≠ 0 then .error .misaligned
  else regAt off

/-- What a read of a register returns; no read has a side effect (R36 to R46, R63). -/
def readReg (r : Reg) (s : State) : Word :=
  match r with
  | .cmd => 0
  | .status => statusWord s
  | .err => errWord s.ERR
  | .xcnt => s.XCNT
  | .resultLo => s.RESULT.extractLsb' 0 32
  | .resultHi => s.RESULT.extractLsb' 32 32
  | .src => s.SRC
  | .dst => s.DST
  | .len => s.LEN
  | .keyw k => keyWord s.KEY k
  | .noncew k => nonceWord s.NONCE k
  | .s i => s.S[i]
  | .x i => s.X[i]
  | .ksw i => ksWord s.KS i

/-- Decode and execute a word written to `CMD` (R37, R81): an illegal word ends with `IllegalCommand` whether or not
the block is keyed. -/
def command (w : Word) (s : State) : Host.Outcome State Fault Refusal :=
  match decode w with
  | .ok i => exec i s
  | .error _ => raise .illegalCommand s

/-- What a write to a register does: a read-only register ignores it (R36, R45). -/
def writeReg (r : Reg) (v : Word) (s : State) : Host.Outcome State Fault Refusal :=
  match r with
  | .cmd => command v s
  | .src => .next { s with SRC := v }
  | .dst => .next { s with DST := v }
  | .len => .next { s with LEN := v }
  | .keyw k => .next { s with KEY := putWord s.KEY (4 * k.val) v (by omega) }
  | .noncew k => .next { s with NONCE := putWord s.NONCE (4 * k.val) v (by omega) }
  | .x i => .next { s with X := s.X.set i v }
  | .status => .next s
  | .err => .next s
  | .xcnt => .next s
  | .resultLo => .next s
  | .resultHi => .next s
  | .s _ => .next s
  | .ksw _ => .next s

/-- The hardware reset event: every piece of the block's state at its reset value, `DMEM`, the platform and the
host's remaining accesses untouched (R48, R215). -/
def hardwareReset (s : State) : State :=
  { State.reset with dmem := s.dmem, dmemHoles := s.dmemHoles, pending := s.pending, reply := s.reply }

/-- One transaction on the block (R8, R18). A refused access gets no step (R45). -/
def perform (a : HostAccess) (s : State) : Host.Outcome State Fault Refusal :=
  match a with
  | .read size off =>
    match regOf size off with
    | .ok r => .next { s with reply := .data (readReg r s) }
    | .error e => .refused (.access e)
  | .write size off v =>
    match regOf size off with
    | .ok r => writeReg r v { s with reply := .done }
    | .error e => .refused (.access e)
  | .hardwareReset => .next (hardwareReset s)

end Sys2Proof.Machine
end

