-- ==== Sys2Proof/Machine/Step.lean ====
section
/-! DEFINITION. Sys2Proof/Machine/Step.lean: the step. The block has no program counter and fetches nothing
(spec/10_state.md R28): a step takes the host's next transaction and performs it whole (spec/00_scope.md R8, R18,
spec/20_memory.md R66). -/

namespace Sys2Proof.Machine

/-- One step: the host's next access, performed to completion; with none to come the block waits unchanged
(R216). -/
def step (s : State) : Host.Outcome State Fault Refusal :=
  match s.pending with
  | [] => .next s
  | a :: rest => perform a { s with pending := rest }

/-- The host's next access is the write of this word to `CMD`: the place the machine's next command comes from
(R28, R37, R86). The word is delivered whole, so no byte order enters (R58). -/
def State.withFetchWord (s : State) (nbits w : Nat) : State :=
  { s with pending := .write 4 0x000 (BitVec.ofNat 32 (w % 2 ^ nbits)) :: s.pending }

end Sys2Proof.Machine
end

