-- ==== Sys2Proof/Machine/Listing.lean ====
section
/-! DEFINITION. Sys2Proof/Machine/Listing.lean: the listings of the spec (spec/30_encoding.md R84 to R86): a program is
a list of host accesses, a command line is the write of its word to `CMD`, and a pseudo-instruction stands for the
accesses of its expansion (R85). Also the host's keying sequence (spec/70_reset_and_hazards.md R219). -/

namespace Sys2Proof.Machine

/-- The offset of a register (R36, R86). -/
def Reg.offset : Reg → Nat
  | .cmd => 0x000
  | .status => 0x004
  | .err => 0x008
  | .xcnt => 0x00C
  | .resultLo => 0x010
  | .resultHi => 0x014
  | .src => 0x018
  | .dst => 0x01C
  | .len => 0x020
  | .keyw k => 0x040 + 4 * k.val
  | .noncew k => 0x060 + 4 * k.val
  | .s i => 0x080 + 4 * i.val
  | .x i => 0x0C0 + 4 * i.val
  | .ksw i => 0x100 + 4 * i.val

/-- `WR reg, v` (R86). -/
def wr (r : Reg) (v : Word) : HostAccess := .write 4 r.offset v

/-- `RD reg` (R86). -/
def rd (r : Reg) : HostAccess := .read 4 r.offset

/-- A command line: the write of the command's word to `CMD` (R86). -/
def issue (i : Instr) : HostAccess := wr .cmd (encode i)

/-- Word `k` of a byte list, little-endian; bytes past its end count as 0. -/
def listWord (bs : List Byte) (k : Nat) : Word :=
  le32Of (bs.getD (4 * k) 0) (bs.getD (4 * k + 1) 0) (bs.getD (4 * k + 2) 0) (bs.getD (4 * k + 3) 0)

/-- The pseudo-instructions of R85. -/
inductive Pseudo where
  | nextu8
  | nextu16
  | nextu32
  | nextu64
  | nextbyte
  /-- `INIT klen, nlen`: an omitted `rounds` is 20 (R84, R222). -/
  | initDefault (klen nlen : Byte)
  | xorBuffer (src dst len : Word)
  /-- `GENBLK.U`, for the `RV` the programmer knows `INIT` has set. -/
  | genblkU (rv : Variant)
  | dblrndU
  | colrndU
  | rowrndU
  | setkey (bs : List Byte)
  | setnonce (bs : List Byte)
  deriving DecidableEq, Repr

/-- The expansions of R85. `SETKEY` writes the words its bytes fill, at most eight; R85 gives it for 16 or 32
bytes. -/
def Pseudo.expand : Pseudo → List HostAccess
  | .nextu8 => [issue (.nextint 0)]
  | .nextu16 => [issue (.nextint 1)]
  | .nextu32 => [issue (.nextint 2)]
  | .nextu64 => [issue (.nextint 3)]
  | .nextbyte => [issue (.xorb 0)]
  | .initDefault klen nlen => [issue (.init klen nlen .salsa20)]
  | .xorBuffer src dst len => [wr .src src, wr .dst dst, wr .len len, issue .xor]
  | .genblkU rv =>
    issue .xload :: List.replicate (ndr rv) (issue .dblrnd) ++ [issue .xadd, issue .xser, issue .ctrinc]
  | .dblrndU => [issue .colrnd, issue .rowrnd]
  | .colrndU => [issue (.qr 0 4 8 12), issue (.qr 5 9 13 1), issue (.qr 10 14 2 6), issue (.qr 15 3 7 11)]
  | .rowrndU => [issue (.qr 0 1 2 3), issue (.qr 5 6 7 4), issue (.qr 10 11 8 9), issue (.qr 15 12 13 14)]
  | .setkey bs => (List.range (min (bs.length / 4) 8)).map fun k => wr (.keyw (Fin.ofNat 8 k)) (listWord bs k)
  | .setnonce bs => (List.range 2).map fun k => wr (.noncew (Fin.ofNat 2 k)) (listWord bs k)

/-- The byte count a length field of `INIT` can carry: a longer one is as invalid as 255 (R74, R110). -/
def lengthField (bs : List Byte) : Byte := BitVec.ofNat 8 (min bs.length 255)

/-- The host's keying sequence `new(key, nonce, rounds)` (R219): key words, nonce words, `INIT`, and the read of
`ERR`. -/
def keyingSequence (key nonce : List Byte) (rounds : Variant) : List HostAccess :=
  (Pseudo.setkey key).expand ++ (Pseudo.setnonce nonce).expand
    ++ [issue (.init (lengthField key) (lengthField nonce) rounds), rd .err]

/-- Accesses performed one after the other, as long as each gets a step (R66). -/
def performAll : List HostAccess → State → Host.Outcome State Fault Refusal
  | [], s => .next s
  | a :: as, s =>
    match perform a s with
    | .next t => performAll as t
    | .fault f => .fault f
    | .refused r => .refused r

end Sys2Proof.Machine
end

