-- ==== Sys2Proof/Machine/Adapter.lean ====
section
/-! DEFINITION. Sys2Proof/Machine/Adapter.lean: the Streaming Cipher Adapter (spec/44_host_stream_adapter.md R175 to
R187). It is host software, no part of the block (spec/00_scope.md R6), and so no part of `State`: it is one client
that drives the block through its register space. Its byte source is anything that answers a pull (R183): a type of
source states and a function `ask` that gives the answer to one pull and the source after it. The source outside the
design is an oracle, the list of its answers still to come (spec/93_implementation_defined.md U10); an adapter is itself
a source for another adapter (R184). -/

namespace Sys2Proof.Machine

/-- What the byte source answers to one pull of up to 64 bytes (R180, R183). -/
inductive Pull where
  /-- These bytes; fewer than 64 is the end of the data. -/
  | bytes (bs : List Byte)
  /-- The source failed; it is not a short read. -/
  | failure
  deriving DecidableEq, Repr

/-- The source outside the design: its answers still to come; with none left it returns no byte (U10). -/
def askOracle : List Pull → Pull × List Pull
  | [] => (.bytes [], [])
  | p :: rest => (p, rest)

/-- The adapter over a source of type `σ` (R175). `inbuf` and `outbuf` are the 64-byte regions of `DMEM` at `inAddr` and `outAddr`. -/
structure Adapter (σ : Type) where
  /-- The block it owns, with the platform's memory. -/
  core : State
  inAddr : Word
  outAddr : Word
  /-- Valid bytes in the current block, 0 to 64. -/
  count : Nat
  /-- Read offset into that block. -/
  offset : Nat
  /-- The end-of-stream flag. -/
  eos : Bool
  /-- The byte source it borrows (R176). -/
  source : σ
  deriving DecidableEq, Repr

/-- The three states, as conditions on the fields (R177). -/
inductive AdapterPhase where
  | awaitingBlock
  | hasData
  | endOfStream
  deriving DecidableEq, Repr

/-- The state the adapter is in (R177). -/
def Adapter.phase {σ : Type} (a : Adapter σ) : AdapterPhase :=
  if a.offset < a.count then .hasData else if a.eos then .endOfStream else .awaitingBlock

/-- Bytes stored one after the other by the host, addresses modulo 2^32. -/
def storeBytes : List Byte → Word → Memory → Memory
  | [], _, m => m
  | b :: bs, a, m => storeBytes bs (a + 1) (m.write a.toNat b)

/-- The state after accesses that each get a step; the adapter issues no other. -/
def drive (as : List HostAccess) (s : State) : State :=
  match performAll as s with
  | .next t => t
  | .fault _ => s
  | .refused _ => s

/-- One pull of at most 64 bytes from the source (R183), and the source after it. -/
def Adapter.pull {σ : Type} (ask : σ → Pull × σ) (a : Adapter σ) : Pull × σ :=
  match ask a.source with
  | (.bytes bs, rest) => (.bytes (bs.take 64), rest)
  | (.failure, rest) => (.failure, rest)

/-- A pull that returned `bs`: a short one sets `eos`, and the block is applied to exactly those bytes
(R178, R181). -/
def Adapter.load {σ : Type} (a : Adapter σ) (bs : List Byte) (rest : σ) : Adapter σ :=
  let filled := { a.core with dmem := storeBytes bs a.inAddr a.core.dmem }
  { a with
    core := drive ((Pseudo.xorBuffer a.inAddr a.outAddr (BitVec.ofNat 32 bs.length)).expand ++ [rd .err]) filled
    count := bs.length
    offset := 0
    eos := a.eos || decide (bs.length < 64)
    source := rest }

/-- The decoded bytes `outbuf[offset .. offset + m - 1]`. -/
def Adapter.decoded {σ : Type} (a : Adapter σ) (m : Nat) : List Byte :=
  (List.range m).map fun i => a.core.byteAt (a.outAddr + BitVec.ofNat 32 (a.offset + i))

/-- What one `read` gives the caller: the bytes copied into its buffer, and the return value, none when the source's
failure takes its place (R180). -/
structure ReadResult where
  buffer : List Byte
  returned : Option Nat
  deriving DecidableEq, Repr

/-- The loop of `read` (R178): `remaining` bytes are still asked for, `out` is what was copied so far. Each pass that
goes on copies at least one byte, so `fuel` passes suffice for `fuel` bytes. -/
def Adapter.readLoop {σ : Type} (ask : σ → Pull × σ) : Nat → Nat → List Byte → Adapter σ → ReadResult × Adapter σ
  | 0, _, out, a => (⟨out, some out.length⟩, a)
  | fuel + 1, remaining, out, a =>
    if remaining = 0 then (⟨out, some out.length⟩, a)
    else if a.offset < a.count then
      let m := min (a.count - a.offset) remaining
      readLoop ask fuel (remaining - m) (out ++ a.decoded m) { a with offset := a.offset + m }
    else if a.eos then (⟨out, some out.length⟩, a)
    else
      match a.pull ask with
      | (.failure, rest) => (⟨out, none⟩, { a with source := rest })
      | (.bytes bs, rest) =>
        let b := a.load bs rest
        if bs.length = 0 then (⟨out, some out.length⟩, b)
        else
          let m := min b.count remaining
          readLoop ask fuel (remaining - m) (out ++ b.decoded m) { b with offset := m }

/-- `read(buffer, max_length)` (R178); a `max_length` of zero or less returns 0 and changes nothing. -/
def Adapter.read {σ : Type} (ask : σ → Pull × σ) (maxLength : Int) (a : Adapter σ) : ReadResult × Adapter σ :=
  Adapter.readLoop ask maxLength.toNat maxLength.toNat [] a

/-- What a `read` of 64 bytes is to an adapter that pulls from this one: the bytes delivered, fewer than 64 at the end of
the stream only, or the failure of this adapter's own source, proxied (R180, R184). -/
def ReadResult.asPull (r : ReadResult) : Pull :=
  match r.returned with
  | some _ => .bytes r.buffer
  | none => .failure

/-- An adapter as a byte source (R184): `ask` for a source of type `Adapter σ`. An adapter whose source is an adapter is
an `Adapter (Adapter σ)`, and each of the two owns its block, so chains of any length are expressible. -/
def Adapter.ask {σ : Type} (ask : σ → Pull × σ) (a : Adapter σ) : Pull × Adapter σ :=
  let (r, b) := a.read ask 64
  (r.asPull, b)

/-- Creation (R176): `new(key, nonce, rounds)` on the block, and an adapter only if it ended with `ERR = 0`. -/
def Adapter.create {σ : Type} (key nonce : List Byte) (rounds : Variant) (inAddr outAddr : Word) (source : σ)
    (s : State) : Option (Adapter σ) :=
  let t := drive (keyingSequence key nonce rounds) s
  if t.ERR = .ok then some ⟨t, inAddr, outAddr, 0, 0, false, source⟩ else none

end Sys2Proof.Machine
end

