-- ==== Sys2Proof/Safety.lean ====
section
/-! DEFINITION. Sys2Proof/Safety.lean: the terms claims are stated in: the invariant of every state, the standard
keystream and when a state is on it (spec/43_byte_cursor.md R151), the unconsumed bytes of a block (R170), and the
host's duties whose breach the block does not detect (spec/70_reset_and_hazards.md R223, R226). -/

namespace Sys2Proof.Machine

/-- The constant words and the key words of a cipher state fit one key length (R22, R111, R113). -/
def HasConstants (sw : WordFile) : Prop :=
  (sw[0] = Config.sigma[0] ∧ sw[5] = Config.sigma[1] ∧ sw[10] = Config.sigma[2] ∧ sw[15] = Config.sigma[3]) ∨
  (sw[0] = Config.tau[0] ∧ sw[5] = Config.tau[1] ∧ sw[10] = Config.tau[2] ∧ sw[15] = Config.tau[3] ∧
    sw[11] = sw[1] ∧ sw[12] = sw[2] ∧ sw[13] = sw[3] ∧ sw[14] = sw[4])

/-- What every step keeps: memory in canonical form; before the first successful `INIT` no keystream state has left
its reset value (R25, R41, R48, R193); after it `S` holds the constants of one key length (R22, R23). -/
structure Inv (s : State) : Prop where
  memory : Memory.wf s.dmem
  unkeyed : s.KEYED = false → s.S = Vector.replicate 16 0 ∧ s.CUR = 0 ∧ s.RV = .salsa20 ∧ s.RESULT = 0 ∧ s.XCNT = 0
  keyed : s.KEYED = true → HasConstants s.S

/-- A cipher state with its counter words set to block index `n`: `s0[n]` of R151. -/
def atBlock (sw : WordFile) (n : Nat) : WordFile :=
  (sw.set 8 (BitVec.ofNat 32 n)).set 9 (BitVec.ofNat 32 (n / 2 ^ 32))

/-- Byte `m` of the standard keystream of a cipher state: byte `m mod 64` of `Block(s0[floor(m / 64)], RV)`
(R151). -/
def streamByte (sw : WordFile) (v : Variant) (m : Nat) : Byte :=
  (block (atBlock sw (m / 64)) v)[m % 64]'(Nat.mod_lt _ (by decide))

/-- The state stands at byte `m` of the standard keystream of `sw` and `v`: `CUR = m mod 64`, `CTR = ceil(m / 64)`,
and inside a block `KS` is the block whose index is `CTR - 1` (R151, R170). -/
structure OnStream (sw : WordFile) (v : Variant) (m : Nat) (s : State) : Prop where
  keyed : s.KEYED = true
  words : s.S = atBlock sw ((m + 63) / 64)
  variant : s.RV = v
  cursor : s.CUR.val = m % 64
  block : m % 64 ≠ 0 → s.KS = Sys2Proof.Machine.block (atBlock sw (m / 64)) v

/-- Inside a block, `KS[CUR..63]` are those bytes of the block whose index is `CTR - 1` modulo 2^64 (R170). -/
def UnconsumedBytesFit (s : State) : Prop :=
  s.CUR ≠ 0 → ∀ i : Fin 64, s.CUR ≤ i → s.KS[i] = (block (atBlock s.S (counter s.S - 1).toNat) s.RV)[i]

/-- The precondition of U1: one block generation that starts here does not wrap the block counter. -/
def CounterBelowTop (s : State) : Prop := counter s.S ≠ BitVec.allOnes 64

/-- The block generations among `n` pulls that start at cursor `cur`: one at each pull at cursor 0 (R150). -/
def blocksPulled (cur n : Nat) : Nat := (cur + n + 63) / 64 - (cur + 63) / 64

/-- The commands that may change which bytes the following pulls deliver other than by pulling (R151, R223, R224). -/
def disturbsStream : Instr → Bool
  | .genblk => true
  | .xser => true
  | .ctrinc => true
  | .init _ _ _ => true
  | .reset => true
  | .qr _ _ _ _ => false
  | .colrnd => false
  | .rowrnd => false
  | .dblrnd => false
  | .xload => false
  | .xadd => false
  | .xorb _ => false
  | .xor => false
  | .nextint _ => false

/-- The commands that set the block counter and the cursor to 0: the way to restart a keystream (R29, R217). -/
def restarts : Instr → Bool
  | .init _ _ _ => true
  | .reset => true
  | .qr _ _ _ _ => false
  | .colrnd => false
  | .rowrnd => false
  | .dblrnd => false
  | .ctrinc => false
  | .genblk => false
  | .xload => false
  | .xadd => false
  | .xser => false
  | .xorb _ => false
  | .xor => false
  | .nextint _ => false

/-- The commands that replace the block under the cursor without moving the cursor (R223). -/
def replacesBlock : Instr → Bool
  | .genblk => true
  | .xser => true
  | .init _ _ _ => false
  | .reset => false
  | .qr _ _ _ _ => false
  | .colrnd => false
  | .rowrnd => false
  | .dblrnd => false
  | .ctrinc => false
  | .xload => false
  | .xadd => false
  | .xorb _ => false
  | .xor => false
  | .nextint _ => false

/-- The duties of the host towards one command, whose breach the block does not detect. Both are about the keystream:
the outcome is defined either way. `INIT` and `RESET` are free of them at any counter and any cursor, for they are how a
host starts afresh. -/
structure HostDuty (i : Instr) (s : State) : Prop where
  /-- R226: the command does not take the counter past 2^64 - 1. A command starts fewer than 2^64 blocks, so the counter
  ends below its start exactly when it has wrapped. -/
  counter : restarts i = false → ∀ t, exec i s = .next t → (counter s.S).toNat ≤ (counter t.S).toNat
  /-- R223: no `GENBLK` and no `XSER` while a block is partly consumed. -/
  block : replacesBlock i = true → s.CUR = 0

/-- Every access the host may issue gets a step: it is a whole aligned word inside the space (R45, R51). -/
def HostAccess.admitted : HostAccess → Bool
  | .read size off => (regOf size off).isOk
  | .write size off _ => (regOf size off).isOk
  | .hardwareReset => true

/-- A safe run step: the machine goes on. -/
def StepsOn (s : State) : Prop := ∃ t, step s = .next t

end Sys2Proof.Machine
end

