-- ==== Sys2Proof/Certificates/Slice0/Obligations.lean ====
section
/-! DEFINITION. Sys2Proof/Certificates/Slice0/Obligations.lean: the statements, in the order of the rules they
formalise. A next state is written `{ s with … }`: every field not named there is unchanged. -/

namespace Sys2Proof.Statements

open Sys2Proof Sys2Proof.Machine

/-- A number written as `n` bytes, the most significant first: the spec's hexadecimal byte strings (R11). -/
def hexBytes (n v : Nat) : List Byte := (List.range n).map fun i => BitVec.ofNat 8 (v / 2 ^ (8 * (n - 1 - i)))

/-- Format Z (R72, R79 item 2): the word `OPC << 24` is the command, any other word with that opcode is illegal. -/
def ZFormat (opc : Nat) (i : Instr) : Prop :=
  (∀ s, command (BitVec.ofNat 32 (opc * 2 ^ 24)) s = exec i s) ∧
  ∀ w s, field w 31 24 = opc → field w 23 0 ≠ 0 → command w s = .next { s with ERR := .illegalCommand }

/-- The command ends with `NotKeyed`, and changes nothing else, while `KEYED = 0` (R80, R193). -/
def NeedsKeyed (i : Instr) : Prop := ∀ s, s.KEYED = false → exec i s = .next { s with ERR := .notKeyed }

/-- The key `01 02 .. 20` of the spec's examples. -/
def countingKey : Vector Byte 32 := Vector.ofFn fun i => BitVec.ofNat 8 (i.val + 1)

/-- The hypotheses of the spec's examples: an all-zero 32-byte key and an all-zero nonce. -/
def ZeroKey (s : State) : Prop := s.KEY = Vector.replicate 32 0 ∧ s.NONCE = Vector.replicate 8 0

/-- `n` bytes of data memory from an address on, the lowest address first. -/
def bytesAt (s : State) (a : Word) (n : Nat) : List Byte := (List.range n).map fun i => s.byteAt (a + BitVec.ofNat 32 i)

/-- The host's next access (R18, R49). -/
def NextAccess (s : State) (a : HostAccess) : Prop := ∃ rest, s.pending = a :: rest

/-- The host's next access is the write of a word that spells this command. -/
def NextCommand (s : State) (i : Instr) : Prop :=
  ∃ size off w, NextAccess s (.write size off w) ∧ regOf size off = .ok .cmd ∧ decode w = .ok i

/-- The host's next access writes this register. -/
def NextWrites (s : State) (r : Reg) : Prop := ∃ size off v, NextAccess s (.write size off v) ∧ regOf size off = .ok r

/-- The four applications of a column-round, in any order (R95). -/
def columnGroups : List (WordFile → WordFile) :=
  [quarterRound 0 4 8 12, quarterRound 5 9 13 1, quarterRound 10 14 2 6, quarterRound 15 3 7 11]

/-- The four applications of a row-round, in any order (R96). -/
def rowGroups : List (WordFile → WordFile) :=
  [quarterRound 0 1 2 3, quarterRound 5 6 7 4, quarterRound 10 11 8 9, quarterRound 15 12 13 14]

/-- Every access of the `XOR` at `s` is admitted, up to byte `n` (R54). -/
def Admitted (s : State) (n : Nat) : Prop := ∀ i < n, s.dmemOk (xorSrc s i) = true ∧ s.dmemOk (xorDst s i) = true

/-- Commands issued one after the other. -/
def execAll : List Instr → State → Host.Outcome State Fault Refusal
  | [], s => .next s
  | i :: is, s =>
    match exec i s with
    | .next t => execAll is t
    | .fault f => .fault f
    | .refused r => .refused r

/-- Every access to the two buffers of an adapter is admitted, and no output byte lies on a later input byte: separate
buffers, or one used in place (R160, R175). -/
def BuffersUsable {σ : Type} (a : Adapter σ) : Prop :=
  (∀ i < 64, a.core.dmemOk (a.inAddr + BitVec.ofNat 32 i) = true ∧
    a.core.dmemOk (a.outAddr + BitVec.ofNat 32 i) = true) ∧
  ∀ i j, i < j → j < 64 → a.outAddr + BitVec.ofNat 32 i ≠ a.inAddr + BitVec.ofNat 32 j

/-- A newly created adapter (R175, R176): its cipher stands at byte 0, nothing was pulled yet. -/
def FreshAdapter {σ : Type} (sw : WordFile) (v : Variant) (a : Adapter σ) : Prop :=
  OnStream sw v 0 a.core ∧ Memory.wf a.core.dmem ∧ BuffersUsable a ∧ a.count = 0 ∧ a.offset = 0 ∧ a.eos = false

/-- The source of R186: 100 bytes, the first pull full, the second short. -/
def YieldsHundred {σ : Type} (ask : σ → Pull × σ) (src : σ) (xs ys : List Byte) : Prop :=
  xs.length = 64 ∧ ys.length = 36 ∧ ∃ src₁ src₂, ask src = (.bytes xs, src₁) ∧ ask src₁ = (.bytes ys, src₂)

/-- Reads one after the other: the bytes they deliver, and the adapter after them. -/
def readAll {σ : Type} (ask : σ → Pull × σ) : List Int → Adapter σ → List Byte × Adapter σ
  | [], a => ([], a)
  | n :: ns, a =>
    let (r, b) := a.read ask n
    let (bs, c) := readAll ask ns b
    (r.buffer ++ bs, c)

end Sys2Proof.Statements

open Sys2Proof Sys2Proof.Machine Sys2Proof.Statements

/-! ## Reset -/

/-- R48, R215: the values after reset, and the reset event, which puts the block there and leaves `DMEM` alone. (What
the event does to the host's accesses and to the platform's parameter is not part of the statement.) -/
def Obligations.ResetPutsEveryPieceOfStateAtZero : Prop :=
  ((∀ i : Fin 16, State.reset.S[i] = 0 ∧ State.reset.X[i] = 0) ∧ (∀ k : Fin 64, State.reset.KS[k] = 0) ∧
    (∀ k : Fin 32, State.reset.KEY[k] = 0) ∧ (∀ k : Fin 8, State.reset.NONCE[k] = 0) ∧ State.reset.CUR = 0 ∧
    State.reset.RV = .salsa20 ∧ State.reset.KEYED = false ∧ State.reset.ERR = .ok ∧ State.reset.RESULT = 0 ∧
    State.reset.XCNT = 0 ∧ State.reset.SRC = 0 ∧ State.reset.DST = 0 ∧ State.reset.LEN = 0) ∧
  ∀ s rest, s.pending = .hardwareReset :: rest → ∃ t, step s = .next t ∧
    t = { State.reset with dmem := s.dmem, dmemHoles := t.dmemHoles, pending := t.pending, reply := t.reply }

/-! ## Arithmetic and permutation -/

/-- R90, R91. -/
def Obligations.RotationAndAdditionAreTheStatedFunctions : Prop :=
  (∀ (v : Word) (n : Nat), 1 ≤ n → n ≤ 31 →
    (rotl32 v n).toNat = (v.toNat * 2 ^ n % 2 ^ 32) ||| (v.toNat / 2 ^ (32 - n)) ∧
    ∀ i < 32, (rotl32 v n).getLsbD ((i + n) % 32) = v.getLsbD i) ∧
  rotl32 0x80000001 7 = 0x000000C0 ∧
  (∀ a b : Word, (add32 a b).toNat = (a.toNat + b.toNat) % 2 ^ 32) ∧
  add32 0xFFFFFFFF 1 = 0 ∧ add32 0x80000000 0x80000000 = 0

/-- R93, R99. -/
def Obligations.QrUpdatesFourWordsInOrder : Prop :=
  (∀ a b c d s, distinctIndices a b c d = true → ∃ t, exec (.qr a b c d) s = .next t ∧
    t.X[b] = s.X[b] ^^^ rotl32 (add32 s.X[a] s.X[d]) 7 ∧
    t.X[c] = s.X[c] ^^^ rotl32 (add32 t.X[b] s.X[a]) 9 ∧
    t.X[d] = s.X[d] ^^^ rotl32 (add32 t.X[c] t.X[b]) 13 ∧
    t.X[a] = s.X[a] ^^^ rotl32 (add32 t.X[d] t.X[c]) 18 ∧
    (∀ i : Fin 16, i ≠ a → i ≠ b → i ≠ c → i ≠ d → t.X[i] = s.X[i]) ∧
    (s.X[a] = 0 → s.X[b] = 0 → s.X[c] = 0 → s.X[d] = 0 → t.X = s.X) ∧
    t = { s with X := t.X, ERR := .ok }) ∧
  (∀ a b c d s, distinctIndices a b c d = true →
    command (BitVec.ofNat 32 (0x10 * 2 ^ 24 + a.val * 2 ^ 12 + b.val * 2 ^ 8 + c.val * 2 ^ 4 + d.val)) s =
      exec (.qr a b c d) s) ∧
  (∀ w s, field w 31 24 = 0x10 →
    (field w 23 16 ≠ 0 ∨
      ¬[field w 15 12, field w 11 8, field w 7 4, field w 3 0].Nodup) →
    command w s = .next { s with ERR := .illegalCommand }) ∧
  ∀ s, s.X[0] = 1 → s.X[1] = 0 → s.X[2] = 0 → s.X[3] = 0 → ∃ t, command 0x10000123 s = .next t ∧
    t.X[0] = 0x08008145 ∧ t.X[1] = 0x00000080 ∧ t.X[2] = 0x00010200 ∧ t.X[3] = 0x20500000

/-- R95, R100. -/
def Obligations.ColrndAppliesTheFourColumnQuarterRounds : Prop :=
  ZFormat 0x11 .colrnd ∧
  (∀ s, exec .colrnd s = .next { s with
    X := quarterRound 15 3 7 11 (quarterRound 10 14 2 6 (quarterRound 5 9 13 1 (quarterRound 0 4 8 12 s.X)))
    ERR := .ok }) ∧
  (∀ l : List (WordFile → WordFile), l.Perm columnGroups → ∀ s, exec .colrnd s = .next { s with X := l.foldl (fun x f => f x) s.X, ERR := .ok }) ∧
  ([0, 4, 8, 12, 5, 9, 13, 1, 10, 14, 2, 6, 15, 3, 7, 11] : List (Fin 16)).Perm (List.finRange 16) ∧
  (∀ s, s.X = Vector.replicate 16 0 → exec .colrnd s = .next { s with ERR := .ok }) ∧
  ∀ s, s.X = #v[1, 0, 0, 0, 1, 0, 0, 0, 1, 0, 0, 0, 1, 0, 0, 0] → exec .colrnd s = .next { s with
    X := #v[0x10090288, 0, 0, 0, 0x00000101, 0, 0, 0, 0x00020401, 0, 0, 0, 0x40A04001, 0, 0, 0]
    ERR := .ok }

/-- R96, R101. -/
def Obligations.RowrndAppliesTheFourRowQuarterRounds : Prop :=
  ZFormat 0x12 .rowrnd ∧
  (∀ s, exec .rowrnd s = .next { s with
    X := quarterRound 15 12 13 14 (quarterRound 10 11 8 9 (quarterRound 5 6 7 4 (quarterRound 0 1 2 3 s.X)))
    ERR := .ok }) ∧
  (∀ l : List (WordFile → WordFile), l.Perm rowGroups → ∀ s, exec .rowrnd s = .next { s with X := l.foldl (fun x f => f x) s.X, ERR := .ok }) ∧
  (∀ s, s.X = Vector.replicate 16 0 → exec .rowrnd s = .next { s with ERR := .ok }) ∧
  ∀ s, s.X = #v[1, 0, 0, 0, 1, 0, 0, 0, 1, 0, 0, 0, 1, 0, 0, 0] → exec .rowrnd s = .next { s with
    X := #v[0x08008145, 0x00000080, 0x00010200, 0x20500000, 0x20100001, 0x00048044, 0x00000080, 0x00010000,
      0x00000001, 0x00002000, 0x80040000, 0x00000000, 0x00000001, 0x00000200, 0x00402000, 0x88000100]
    ERR := .ok }

/-- R97, R102. -/
def Obligations.DblrndIsColrndThenRowrnd : Prop :=
  ZFormat 0x13 .dblrnd ∧
  (∀ s, ∃ t u, exec .colrnd s = .next t ∧ exec .rowrnd t = .next u ∧ exec .dblrnd s = .next u ∧
    u = { s with X := rowRound (columnRound s.X), ERR := .ok }) ∧
  (∀ s v t, exec .dblrnd s = .next t → exec .dblrnd { s with RV := v } = .next { t with RV := v }) ∧
  (∃ x, rowRound (columnRound x) ≠ columnRound (rowRound x)) ∧
  (∀ s, s.X = Vector.replicate 16 0 → exec .dblrnd s = .next { s with ERR := .ok }) ∧
  ∀ s, s.X = #v[1, 0, 0, 0, 0, 0, 0, 0, 0, 0, 0, 0, 0, 0, 0, 0] → exec .dblrnd s = .next { s with
    X := #v[0x8186a22d, 0x0040a284, 0x82479210, 0x06929051, 0x08000090, 0x02402200, 0x00004000, 0x00800000,
      0x00010200, 0x20400000, 0x08008104, 0x00000000, 0x20500000, 0xa0000040, 0x0008180a, 0x612a8020]
    ERR := .ok }

/-- R94, R98. -/
def Obligations.MixingFunctionsAreBijections : Prop :=
  (∀ (p q : Word) (n : Nat), Function.Bijective fun v : Word => v ^^^ rotl32 (add32 p q) n) ∧
  (∀ a b c d, distinctIndices a b c d = true → Function.Bijective (quarterRound a b c d) ∧
    quarterRound a b c d (Vector.replicate 16 0) = Vector.replicate 16 0) ∧
  Function.Bijective columnRound ∧ columnRound (Vector.replicate 16 0) = Vector.replicate 16 0 ∧
  Function.Bijective rowRound ∧ rowRound (Vector.replicate 16 0) = Vector.replicate 16 0 ∧
  Function.Bijective doubleRound ∧ doubleRound (Vector.replicate 16 0) = Vector.replicate 16 0

/-! ## Key schedule and counter -/

/-- R110 to R116, R194, R195: the cipher state a successful `INIT` builds and everything else it writes; the errors,
the key length checked before the nonce length, with nothing but `ERR` changed; and the words of format I. -/
def Obligations.InitBuildsTheCipherStateOrRefuses : Prop :=
  (∀ s klen rounds, klen = 16 ∨ klen = 32 → ∃ t, exec (.init klen 8 rounds) s = .next t ∧
    t = { s with S := t.S, RV := rounds, CUR := 0, KEYED := true, ERR := .ok } ∧
    (t.S[0], t.S[5], t.S[10], t.S[15]) =
      (if klen = 32 then ((0x61707865, 0x3320646E, 0x79622D32, 0x6B206574) : Word × Word × Word × Word)
       else (0x61707865, 0x3120646E, 0x79622D36, 0x6B206574)) ∧
    (∀ i (_ : i < 4), t.S[1 + i] = le32 s.KEY (4 * i) (by omega) ∧
      t.S[11 + i] = if klen = 32 then le32 s.KEY (16 + 4 * i) (by omega) else le32 s.KEY (4 * i) (by omega)) ∧
    t.S[6] = le32 s.NONCE 0 (by omega) ∧ t.S[7] = le32 s.NONCE 4 (by omega) ∧ t.S[8] = 0 ∧ t.S[9] = 0) ∧
  (∀ s klen nlen rounds, klen ≠ 16 → klen ≠ 32 →
    exec (.init klen nlen rounds) s = .next { s with ERR := .invalidKeySize }) ∧
  (∀ s klen nlen rounds, klen = 16 ∨ klen = 32 → nlen ≠ 8 →
    exec (.init klen nlen rounds) s = .next { s with ERR := .invalidNonceSize }) ∧
  (∀ w s, field w 31 24 = 0x20 → 2 < field w 7 0 → command w s = .next { s with ERR := .illegalCommand }) ∧
  (∀ (klen nlen : Byte) (rounds : Variant) s,
    command (BitVec.ofNat 32 (0x20 * 2 ^ 24 + klen.toNat * 2 ^ 16 + nlen.toNat * 2 ^ 8 + rounds.code)) s =
      exec (.init klen nlen rounds) s) ∧
  (∀ s, ZeroKey s → command 0x20200800 s = .next { s with
    S := #v[0x61707865, 0, 0, 0, 0, 0x3320646e, 0, 0, 0, 0, 0x79622d32, 0, 0, 0, 0, 0x6b206574]
    RV := .salsa20
    CUR := 0
    KEYED := true
    ERR := .ok }) ∧
  (∀ s t rounds, s.KEY = countingKey → exec (.init 32 8 rounds) s = .next t →
    t.S[1] = 0x04030201 ∧ t.S[4] = 0x100F0E0D ∧ t.S[11] = 0x14131211 ∧ t.S[14] = 0x201F1E1D) ∧
  (∀ s t rounds, s.KEY = countingKey → exec (.init 16 8 rounds) s = .next t →
    t.S[1] = 0x04030201 ∧ t.S[11] = 0x04030201 ∧ t.S[4] = 0x100F0E0D ∧ t.S[14] = 0x100F0E0D) ∧
  ∀ s t klen rounds, s.NONCE = #v[0x65, 0x66, 0x67, 0x68, 0x69, 0x6A, 0x6B, 0x6C] → klen = 16 ∨ klen = 32 →
    exec (.init klen 8 rounds) s = .next t → t.S[6] = 0x68676665 ∧ t.S[7] = 0x6C6B6A69

/-- R117: what `INIT` leaves is a function of its operands and the two buffers only, whatever the block held. -/
def Obligations.InitIsAFunctionOfKeyNonceAndWord : Prop :=
  ∀ s s' klen rounds, klen = 16 ∨ klen = 32 → s.KEY = s'.KEY → s.NONCE = s'.NONCE →
    ∃ t t', exec (.init klen 8 rounds) s = .next t ∧ exec (.init klen 8 rounds) s' = .next t' ∧
      t.S = t'.S ∧ t.RV = t'.RV ∧ t.CUR = t'.CUR ∧ ∀ m, pulledByte t m = pulledByte t' m

/-- R118: the counter increment of `CTRINC` and of `GENBLK`: the two lines, the 64-bit reading, the examples, and the
property: `n` block generations advance the counter by `n`; 2^32 of them leave word 8 as it was and add 1 to word 9. -/
def Obligations.TheCounterIncrementIsA64BitIncrement : Prop :=
  (∀ s i, i ∈ [Instr.ctrinc, .genblk] → s.KEYED = true → ∃ t, exec i s = .next t ∧
    t.S[8] = add32 s.S[8] 1 ∧ t.S[9] = (if t.S[8] = 0 then add32 s.S[9] 1 else s.S[9]) ∧
    (∀ i : Fin 16, i ≠ 8 → i ≠ 9 → t.S[i] = s.S[i]) ∧
    (t.S[8].toNat + 2 ^ 32 * t.S[9].toNat = (s.S[8].toNat + 2 ^ 32 * s.S[9].toNat + 1) % 2 ^ 64) ∧
    (s.S[8] = 0xFFFFFFFE → s.S[9] = 0 → t.S[8] = 0xFFFFFFFF ∧ t.S[9] = 0) ∧
    (s.S[8] = 0xFFFFFFFF → s.S[9] = 0 → t.S[8] = 0 ∧ t.S[9] = 1) ∧
    (s.S[8] = 0xFFFFFFFF → s.S[9] = 5 → t.S[8] = 0 ∧ t.S[9] = 6)) ∧
  ∀ s, s.KEYED = true →
    (∀ n, ∃ t, execAll (List.replicate n .genblk) s = .next t ∧
      t.S[8].toNat + 2 ^ 32 * t.S[9].toNat = (s.S[8].toNat + 2 ^ 32 * s.S[9].toNat + n) % 2 ^ 64) ∧
    ∃ t, execAll (List.replicate (2 ^ 32) .genblk) s = .next t ∧ t.S[8] = s.S[8] ∧ t.S[9] = s.S[9] + 1

/-- R119, R120: `CTRINC` increments the counter and nothing else; the 64-bit counter wraps to 0 with no error. -/
def Obligations.CtrincChangesOnlyTheCounterAndWraps : Prop :=
  ZFormat 0x21 .ctrinc ∧ NeedsKeyed .ctrinc ∧
  (∀ s, s.KEYED = true → ∃ t, exec .ctrinc s = .next t ∧
    t.S[8] = add32 s.S[8] 1 ∧ t.S[9] = (if t.S[8] = 0 then add32 s.S[9] 1 else s.S[9]) ∧
    (∀ i : Fin 16, i ≠ 8 → i ≠ 9 → t.S[i] = s.S[i]) ∧
    (s.S[8] = 0xFFFFFFFF → s.S[9] = 0xFFFFFFFF → t.S[8] = 0 ∧ t.S[9] = 0) ∧
    t = { s with S := t.S, ERR := .ok }) ∧
  (∀ s, s.KEYED = true → s.S[8] = 0xFFFFFFFF → s.S[9] = 0xFFFFFFFF → ∃ t, exec .genblk s = .next t ∧
    t.S[8] = 0 ∧ t.S[9] = 0 ∧ t.ERR = .ok) ∧
  ∀ s t u klen rounds, klen = 16 ∨ klen = 32 → exec (.init klen 8 rounds) s = .next t → exec .ctrinc t = .next u →
    u.S[8] = 1 ∧ u.S[9] = 0

/-! ## Keystream generator -/

/-- R130, R131, R132. -/
def Obligations.GenblkRunsTheRoundsAddsTheStateAndCounts : Prop :=
  ZFormat 0x30 .genblk ∧ NeedsKeyed .genblk ∧
  (∀ s n, (s.RV, n) ∈ [(Variant.salsa20, 10), (Variant.salsa12, 6), (Variant.salsa8, 4)] → s.KEYED = true →
    ∃ t, exec .genblk s = .next t ∧
      (∀ i : Fin 16, t.X[i] = add32 (doubleRound^[n] s.S)[i] s.S[i]) ∧
      (∀ i j (_ : i < 16) (_ : j < 4), t.KS[4 * i + j] = t.X[i].extractLsb' (8 * j) 8) ∧
      (∀ i : Fin 16, readReg (.ksw i) t = t.X[i]) ∧
      t.S = counterIncrement s.S ∧
      t = { s with X := t.X, KS := t.KS, S := t.S, ERR := .ok }) ∧
  ∀ s, ZeroKey s → ∃ t u,
    command 0x20200800 s = .next t ∧ command 0x30000000 t = .next u ∧
    u.KS.toList = hexBytes 64 0x9a97f65b9b4c721b960a672145fca8d4e32e67f9111ea979ce9c4826806aeee63de9c0da2bd7f91ebcb2639bf989c6251b29bf38d39a9bdce7c55f4b2ac12a39 ∧
    u.X[0] = 0x5BF6979A ∧ u.S[8] = 1 ∧ u.S[9] = 0 ∧ u.CUR = 0

/-- R133. -/
def Obligations.XloadCopiesTheCipherState : Prop :=
  ZFormat 0x31 .xload ∧ NeedsKeyed .xload ∧
  (∀ s, s.KEYED = true → ∃ t, exec .xload s = .next t ∧ (∀ i : Fin 16, t.X[i] = s.S[i]) ∧
    t = { s with X := t.X, ERR := .ok }) ∧
  ∀ s t u, ZeroKey s → command 0x20200800 s = .next t →
    command 0x31000000 t = .next u →
    u.X = #v[0x61707865, 0, 0, 0, 0, 0x3320646E, 0, 0, 0, 0, 0x79622D32, 0, 0, 0, 0, 0x6B206574]

/-- R134. -/
def Obligations.XaddAddsTheCipherStateLaneByLane : Prop :=
  ZFormat 0x32 .xadd ∧ NeedsKeyed .xadd ∧
  (∀ s, s.KEYED = true → ∃ t, exec .xadd s = .next t ∧
    (∀ i : Fin 16, t.X[i].toNat = (s.X[i].toNat + s.S[i].toNat) % 2 ^ 32) ∧
    t = { s with X := t.X, ERR := .ok }) ∧
  (∀ s t i, s.KEYED = true → exec .xadd s = .next t → s.X[(i : Fin 16)] = 0xFFFFFFFF → s.S[i] = 2 → t.X[i] = 1) ∧
  ∀ s t u, s.KEYED = true → s.S[0] = 0x61707865 → exec .xload s = .next t → exec .xadd t = .next u →
    u.X[0] = 0xC2E0F0CA

/-- R135. -/
def Obligations.XserSerialisesLittleEndian : Prop :=
  ZFormat 0x33 .xser ∧
  (∀ s, ∃ t, exec .xser s = .next t ∧
    (∀ i j (_ : i < 16) (_ : j < 4), t.KS[4 * i + j] = s.X[i].extractLsb' (8 * j) 8) ∧
    (∀ i : Fin 16, readReg (.ksw i) t = t.X[i]) ∧
    t = { s with KS := t.KS, ERR := .ok }) ∧
  ∀ s t, s.X[0] = 0x5BF6979A → exec .xser s = .next t →
    t.KS[0] = 0x9a ∧ t.KS[1] = 0x97 ∧ t.KS[2] = 0xf6 ∧ t.KS[3] = 0x5b

/-- R136: the micro-commands end in exactly the state that the command they decompose ends in. -/
def Obligations.GenblkEqualsItsMicroCommands : Prop :=
  (∀ s, s.KEYED = true → ∃ t,
    execAll ([.xload] ++ List.replicate (ndr s.RV) .dblrnd ++ [.xadd, .xser, .ctrinc]) s = .next t ∧
    exec .genblk s = .next t ∧ t.ERR = .ok) ∧
  (∀ s, ∃ t, execAll [.colrnd, .rowrnd] s = .next t ∧ exec .dblrnd s = .next t) ∧
  (∀ s, ∃ t, execAll [.qr 0 4 8 12, .qr 5 9 13 1, .qr 10 14 2 6, .qr 15 3 7 11] s = .next t ∧
    exec .colrnd s = .next t) ∧
  ∀ s, ∃ t, execAll [.qr 0 1 2 3, .qr 5 6 7 4, .qr 10 11 8 9, .qr 15 12 13 14] s = .next t ∧ exec .rowrnd s = .next t

/-- R137. -/
def Obligations.TheBlockDependsOnStateAndVariantOnly : Prop :=
  (∀ s s', s.KEYED = true → s'.KEYED = true → s.S = s'.S → s.RV = s'.RV →
    ∃ t t', exec .genblk s = .next t ∧ exec .genblk s' = .next t' ∧ t.KS = t'.KS ∧ t.KS = block s.S s.RV) ∧
  ∀ s sw n, s.KEYED = true → s.S = atBlock sw n → ∃ t u, exec .genblk s = .next t ∧ exec .genblk t = .next u ∧
    t.KS = block (atBlock sw n) s.RV ∧ u.KS = block (atBlock sw (n + 1)) s.RV

/-! ## Byte cursor -/

/-- R150. -/
def Obligations.APullGeneratesAtCursorZeroAndAdvances : Prop :=
  ∀ s, (s.CUR = 0 → (nextKsByte s).1 = (block s.S s.RV)[0] ∧
      (nextKsByte s).2 = { s with X := blockWords s.S s.RV, KS := block s.S s.RV, S := counterIncrement s.S, CUR := 1 }) ∧
    (s.CUR ≠ 0 → (nextKsByte s).1 = s.KS[s.CUR] ∧ (nextKsByte s).2 = { s with CUR := (nextKsByte s).2.CUR }) ∧
    (nextKsByte s).2.CUR.val = (s.CUR.val + 1) % 64

/-- R151 at a fresh state: after a successful `INIT`, and after a `RESET` of a keyed block, the block stands at byte 0
of the keystream of its cipher state, whose counter is 0. -/
def Obligations.InitAndResetStartTheKeystream : Prop :=
  (∀ s klen rounds, klen = 16 ∨ klen = 32 → ∃ t, exec (.init klen 8 rounds) s = .next t ∧ t.S = atBlock t.S 0 ∧
    OnStream t.S rounds 0 t) ∧
  ∀ s, s.KEYED = true → ∃ t, exec .reset s = .next t ∧ t.S = atBlock s.S 0 ∧ OnStream t.S s.RV 0 t

/-- R151: the block stands at byte 0 after an `INIT` and after a `RESET`; an `XORB`, `XOR` or `NEXTINT` that ends with
`ERR = 0` moves it by the bytes it pulls, and a command that ends with an error other than `BusFault` does not move it;
`GENBLK` and `CTRINC` always take it from where it stands, `XSER` and `INIT` can; and from byte `m`, pull number `k`
delivers byte `m + k` and leaves the block at byte `m + k + 1`: the blocks 0, 1, 2, … concatenated, every byte once, in
order. -/
def Obligations.PullsDeliverTheConcatenatedBlocks : Prop :=
  (∀ s t klen rounds, klen = 16 ∨ klen = 32 → exec (.init klen 8 rounds) s = .next t → OnStream t.S rounds 0 t) ∧
  (∀ s t, s.KEYED = true → exec .reset s = .next t → OnStream t.S s.RV 0 t) ∧
  (∀ sw v m s w t, OnStream sw v m s → command w s = .next t →
    (t.ERR ≠ .ok → t.ERR ≠ .busFault → OnStream sw v m t) ∧
    (t.ERR = .ok → (∀ b, decode w = .ok (.xorb b) → OnStream sw v (m + 1) t) ∧
      (decode w = .ok .xor → OnStream sw v (m + xorLength s) t) ∧
      ∀ n, decode w = .ok (.nextint n) → OnStream sw v (m + 2 ^ n.val) t)) ∧
  (∀ sw v m s i, OnStream sw v m s → i = .genblk ∨ i = .ctrinc → ∃ t, exec i s = .next t ∧ ¬OnStream sw v m t) ∧
  (∃ sw v m s t, OnStream sw v m s ∧ exec .xser s = .next t ∧ ¬OnStream sw v m t) ∧
  (∃ sw v m s t, OnStream sw v m s ∧ exec (.init 32 8 v) s = .next t ∧ ¬OnStream sw v m t) ∧
  ∀ sw v m s, OnStream sw v m s → ∀ k,
    pulledByte s k = (block (atBlock sw ((m + k) / 64)) v)[(m + k) % 64]'(Nat.mod_lt _ (by decide)) ∧
    OnStream sw v (m + k) (afterPulls k s) ∧
    (afterPulls k s).CUR.val = (m + k) % 64 ∧
    (afterPulls k s).S[8].toNat + 2 ^ 32 * (afterPulls k s).S[9].toNat = (m + k + 63) / 64 % 2 ^ 64

/-- R151: of the host's accesses, only `XORB`, `XOR` and `NEXTINT` move the keystream, by the bytes they pull; a
command that fails before its first pull, and every command but `GENBLK`, `XSER`, `CTRINC`, `INIT` and `RESET`, leaves
it where it is; an `XOR` ended by a fault has moved it by `XCNT` or `XCNT + 1` bytes (R161). -/
def Obligations.ByteCommandsAdvanceTheKeystreamByWhatTheyPull : Prop :=
  ∀ sw v m s, OnStream sw v m s → ∀ t,
    (∀ b, exec (.xorb b) s = .next t → OnStream sw v (m + 1) t) ∧
    (∀ w, exec (.nextint w) s = .next t → OnStream sw v (m + 2 ^ w.val) t) ∧
    (exec .xor s = .next t →
      (t.ERR = .ok ∧ OnStream sw v (m + xorLength s) t) ∨
      (t.ERR = .busFault ∧ (OnStream sw v (m + t.XCNT.toNat) t ∨ OnStream sw v (m + t.XCNT.toNat + 1) t))) ∧
    (∀ w, command w s = .next t → t.ERR ≠ .ok → t.ERR ≠ .busFault → OnStream sw v m t) ∧
    (∀ i, disturbsStream i = false → (∀ b, i ≠ .xorb b) → (∀ w, i ≠ .nextint w) → i ≠ .xor →
      exec i s = .next t → OnStream sw v m t) ∧
    (∀ a, (∀ size off w, a = .write size off w → regOf size off ≠ .ok .cmd) → a ≠ .hardwareReset →
      perform a s = .next t → OnStream sw v m t)

/-- R152. -/
def Obligations.XorbAppliesOneKeystreamByte : Prop :=
  (∀ b : Byte, ∀ s, command (BitVec.ofNat 32 (0x40 * 2 ^ 24 + b.toNat)) s = exec (.xorb b) s) ∧
  (∀ w s, field w 31 24 = 0x40 → field w 23 8 ≠ 0 → command w s = .next { s with ERR := .illegalCommand }) ∧
  (∀ b, NeedsKeyed (.xorb b)) ∧
  (∀ s b, s.KEYED = true → ∃ t, exec (.xorb b) s = .next t ∧
    t.RESULT.extractLsb' 0 8 = b ^^^ (nextKsByte s).1 ∧ t.RESULT.extractLsb' 8 56 = 0 ∧
    t = { (nextKsByte s).2 with RESULT := t.RESULT, ERR := .ok }) ∧
  ∀ s, ZeroKey s → ∃ t1 t2 t3 t4 t5,
    command 0x20200800 s = .next t1 ∧ command 0x40000000 t1 = .next t2 ∧ command 0x40000000 t2 = .next t3 ∧
    command 0x40000000 t3 = .next t4 ∧ command 0x400000FF t4 = .next t5 ∧
    t2.RESULT = 0x9A ∧ t3.RESULT = 0x97 ∧ t4.RESULT = 0xF6 ∧ t4.CUR = 3 ∧ t4.S[8] = 1 ∧ t5.RESULT = 0xA4 ∧ t5.CUR = 4

/-- R157, R159, R160: an `XOR` whose accesses are all admitted, on a memory in canonical form (which every step keeps:
`Obligations.EveryStepKeepsTheInvariant`). `v i` is the byte read for index `i`: what was there
before the command, or, where an earlier byte of the same command was written to that address, that byte. -/
def Obligations.XorProcessesEveryByteInOrder : Prop :=
  ZFormat 0x41 .xor ∧ NeedsKeyed .xor ∧
  (∀ s i, (xorSrc s i).toNat = (s.SRC.toNat + i) % 2 ^ 32 ∧ (xorDst s i).toNat = (s.DST.toNat + i) % 2 ^ 32) ∧
  (∀ s, s.KEYED = true → Memory.wf s.dmem → Admitted s (xorLength s) → ∃ t, ∃ v : Nat → Byte, exec .xor s = .next t ∧
    (∀ i < xorLength s, (∀ j < i, xorDst s j ≠ xorSrc s i) → v i = s.byteAt (xorSrc s i)) ∧
    (∀ i < xorLength s, ∀ j < i, xorDst s j = xorSrc s i → v i = v j ^^^ pulledByte s j) ∧
    (∀ i < xorLength s, t.byteAt (xorDst s i) = v i ^^^ pulledByte s i) ∧
    (∀ a, (∀ i < xorLength s, a ≠ xorDst s i) → t.byteAt a = s.byteAt a) ∧
    t.XCNT = BitVec.ofNat 32 (xorLength s) ∧
    t = { afterPulls (xorLength s) s with dmem := t.dmem, XCNT := t.XCNT, ERR := .ok }) ∧
  (∀ s, ZeroKey s → Memory.wf s.dmem → s.dmemHoles = [] → s.SRC = 0x1000 → s.DST = 0x2000 → s.LEN = 8 →
    bytesAt s 0x1000 8 = hexBytes 8 0x53616c7361323021 → ∃ t u, command 0x20200800 s = .next t ∧
      command 0x41000000 t = .next u ∧ bytesAt u 0x2000 8 = hexBytes 8 0xc9f69a28fa7e423a ∧
      u.XCNT = 8 ∧ u.CUR = 8 ∧ u.S[8] = 1 ∧ u.ERR = .ok) ∧
  ∀ s, ZeroKey s → Memory.wf s.dmem → s.dmemHoles = [] → s.SRC = 0x100 → s.DST = 0x101 → s.LEN = 4 →
    bytesAt s 0x100 5 = hexBytes 5 0 → ∃ t u, command 0x20200800 s = .next t ∧ command 0x41000000 t = .next u ∧
      bytesAt u 0x100 5 = hexBytes 5 0x009a0dfba0

/-- R158. -/
def Obligations.XorOfZeroOrNegativeLengthIsANoOp : Prop :=
  (∀ s, s.KEYED = true → s.LEN.toInt ≤ 0 → exec .xor s = .next { s with XCNT := 0, ERR := .ok }) ∧
  (∀ s, 0 < s.LEN.toInt → (xorLength s : Int) = s.LEN.toInt) ∧
  (∀ s, xorLength s ≤ 2 ^ 31 - 1) ∧ (∃ s, xorLength s = 2 ^ 31 - 1) ∧
  ∀ s, s.KEYED = true → s.LEN = 0 ∨ s.LEN = 0xFFFFFFFF → exec .xor s = .next { s with XCNT := 0, ERR := .ok }

/-- R161, R200: `k` is the first byte with an access that is not admitted. Up to it everything is as in the
fault-free `XOR` of `k` bytes; a read fault consumes no keystream byte for byte `k`, a write fault consumes one. The
examples are on a memory in canonical form (which every step keeps) that holds 0 in the two buffers. -/
def Obligations.XorStopsAtTheFirstAccessNotAdmitted : Prop :=
  (∀ s k, s.KEYED = true → k < xorLength s → Admitted s k →
    (s.dmemOk (xorSrc s k) = false → ∃ t u, exec .xor s = .next t ∧ exec .xor { s with LEN := BitVec.ofNat 32 k } = .next u ∧
      u.ERR = .ok ∧ t.ERR = .busFault ∧ t.XCNT = BitVec.ofNat 32 k ∧ t.CUR.val = (s.CUR.val + k) % 64 ∧
      t = { u with LEN := s.LEN, ERR := .busFault }) ∧
    (s.dmemOk (xorSrc s k) = true → s.dmemOk (xorDst s k) = false → ∃ t u, exec .xor s = .next t ∧
      exec .xor { s with LEN := BitVec.ofNat 32 k } = .next u ∧ u.ERR = .ok ∧ t.ERR = .busFault ∧
      t.XCNT = BitVec.ofNat 32 k ∧ t.CUR.val = (s.CUR.val + k + 1) % 64 ∧
      t = { (nextKsByte u).2 with LEN := s.LEN, ERR := .busFault })) ∧
  ∀ s, ZeroKey s → Memory.wf s.dmem → bytesAt s 0x100 4 = hexBytes 4 0 → bytesAt s 0x200 4 = hexBytes 4 0 →
    s.SRC = 0x100 → s.DST = 0x200 → s.LEN = 4 →
    (s.dmemHoles = [⟨0x102, 0x102⟩] → ∃ t u, command 0x20200800 s = .next t ∧ command 0x41000000 t = .next u ∧
      u.ERR = .busFault ∧ u.XCNT = 2 ∧ u.CUR = 2 ∧ bytesAt u 0x200 4 = hexBytes 4 0x9a970000) ∧
    (s.dmemHoles = [⟨0x202, 0x202⟩] → ∃ t u, command 0x20200800 s = .next t ∧ command 0x41000000 t = .next u ∧
      u.ERR = .busFault ∧ u.XCNT = 2 ∧ u.CUR = 3 ∧ bytesAt u 0x200 4 = hexBytes 4 0x9a970000)

/-- R157, R161: the frame of `XOR` in every case, a fault and `NotKeyed` among them. -/
def Obligations.XorTouchesOnlyItsOutputBytesAndTheKeystreamPosition : Prop :=
  ∀ s t, exec .xor s = .next t →
    (∀ a, (∀ i < xorLength s, a ≠ xorDst s i) → t.byteAt a = s.byteAt a) ∧
    (∀ i : Fin 16, i ≠ 8 → i ≠ 9 → t.S[i] = s.S[i]) ∧
    t = { s with S := t.S, X := t.X, KS := t.KS, CUR := t.CUR, ERR := t.ERR, XCNT := t.XCNT, dmem := t.dmem }

/-- R163, R164, R165. -/
def Obligations.NextintDrawsALittleEndianInteger : Prop :=
  (∀ w : Fin 4, ∀ s, command (BitVec.ofNat 32 (0x42 * 2 ^ 24 + w.val)) s = exec (.nextint w) s) ∧
  (∀ w s, field w 31 24 = 0x42 → field w 23 2 ≠ 0 → command w s = .next { s with ERR := .illegalCommand }) ∧
  (∀ w, NeedsKeyed (.nextint w)) ∧
  (∀ s w, s.KEYED = true → ∃ t, exec (.nextint w) s = .next t ∧
    t.RESULT.toNat = ∑ j ∈ Finset.range (2 ^ w.val), (pulledByte s j).toNat * 2 ^ (8 * j) ∧
    t = { afterPulls (2 ^ w.val) s with RESULT := t.RESULT, ERR := .ok }) ∧
  (∀ s, ZeroKey s → ∃ t u,
    command 0x20200800 s = .next t ∧ command 0x42000002 t = .next u ∧ u.RESULT = 0x000000005BF6979A ∧ u.CUR = 4) ∧
  (∀ s, ZeroKey s → ∃ t0 t1 t2 t3 t4,
    command 0x20200800 s = .next t0 ∧ command 0x42000000 t0 = .next t1 ∧ command 0x42000001 t1 = .next t2 ∧
    command 0x42000002 t2 = .next t3 ∧ command 0x42000003 t3 = .next t4 ∧
    t1.RESULT = 0x9A ∧ t2.RESULT = 0xF697 ∧ t3.RESULT = 0x724C9B5B ∧ t4.RESULT = 0xA8FC4521670A961B ∧ t4.CUR = 15) ∧
  ∀ s, ZeroKey s → ∃ t u, command 0x20200800 s = .next t ∧ (afterPulls 60 t).CUR = 60 ∧ (afterPulls 60 t).S[8] = 1 ∧
    command 0x42000003 (afterPulls 60 t) = .next u ∧ u.RESULT = 0x178AEAAB392AC12A ∧ u.CUR = 4 ∧ u.S[8] = 2

/-- R168. -/
def Obligations.ResetZeroesCounterAndCursorOnly : Prop :=
  ZFormat 0x43 .reset ∧ NeedsKeyed .reset ∧
  (∀ s, s.KEYED = true → ∃ t, exec .reset s = .next t ∧ t.S[8] = 0 ∧ t.S[9] = 0 ∧
    (∀ i : Fin 16, i ≠ 8 → i ≠ 9 → t.S[i] = s.S[i]) ∧ t = { s with S := t.S, CUR := 0, ERR := .ok }) ∧
  (∀ s t, exec .reset s = .next t → s.KEYED = true → exec .reset t = .next t) ∧
  (∀ s t u klen rounds, klen = 16 ∨ klen = 32 → exec (.init klen 8 rounds) s = .next t → exec .reset t = .next u →
    u = t) ∧
  ∀ s, ZeroKey s → ∃ t u w, command 0x20200800 s = .next t ∧
    (afterPulls 65 t).CUR = 1 ∧ (afterPulls 65 t).S[8] = 2 ∧ command 0x43000000 (afterPulls 65 t) = .next u ∧
    u.CUR = 0 ∧ u.S[8] = 0 ∧ u.S[9] = 0 ∧ command 0x40000000 u = .next w ∧ w.RESULT = 0x9A ∧ w.CUR = 1 ∧ w.S[8] = 1

/-- R169 (a): after `RESET` the cipher state, the variant and the cursor equal their values after the `INIT`, however
many bytes were pulled in between, so the same bytes follow. -/
def Obligations.ResetReproducesTheSequence : Prop :=
  ∀ s klen rounds, klen = 16 ∨ klen = 32 → ∃ t, exec (.init klen 8 rounds) s = .next t ∧
    ∀ m, ∃ u, exec .reset (afterPulls m t) = .next u ∧ u.S = t.S ∧ u.RV = t.RV ∧ u.CUR = t.CUR ∧
      ∀ k, pulledByte u k = pulledByte t k

/-- R169 (b): applying the keystream to a buffer, restarting, and applying it to the result restores the buffer: in
place, and from one buffer to another, apart from it, and back. -/
def Obligations.XorResetXorRestoresTheBuffer : Prop :=
  (∀ sw v s, OnStream sw v 0 s → Memory.wf s.dmem → s.DST = s.SRC → Admitted s (xorLength s) →
    ∃ t u w, exec .xor s = .next t ∧ exec .reset t = .next u ∧ exec .xor u = .next w ∧ w.ERR = .ok ∧ w.dmem = s.dmem) ∧
  ∀ sw v s, OnStream sw v 0 s → Memory.wf s.dmem → Admitted s (xorLength s) →
    (∀ i j, i < xorLength s → j < xorLength s → xorDst s i ≠ xorSrc s j) →
    ∃ t u w, exec .xor s = .next t ∧ exec .reset t = .next u ∧
      exec .xor { u with SRC := s.DST, DST := s.SRC } = .next w ∧ w.ERR = .ok ∧
      (∀ i < xorLength s, w.byteAt (xorSrc s i) = s.byteAt (xorSrc s i)) ∧
      ∀ a, (∀ i < xorLength s, a ≠ xorDst s i) → w.byteAt a = s.byteAt a

/-- R170: the state invariant of the byte cursor, as a step keeps it: inside a block, `KS[CUR..63]` are those bytes of
the block whose index is `CTR - 1` (modulo 2^64, so that the wrap of R120 needs no exception). Every step keeps it but
a `GENBLK`, an `XSER` or a `CTRINC` inside a block (R223, R224). -/
def Obligations.TheUnconsumedBytesBelongToTheBlockBeforeTheCounter : Prop :=
  ∀ s t, UnconsumedBytesFit s → step s = .next t →
    (s.CUR ≠ 0 → ¬NextCommand s .genblk ∧ ¬NextCommand s .xser ∧ ¬NextCommand s .ctrinc) → UnconsumedBytesFit t

/-- R223, R224: `GENBLK` skips 64 bytes of the keystream, wherever the cursor stands: inside a block the pulls go on with
bytes `CUR..63` of the next block. `CTRINC` at cursor 0 skips one block; inside a block the rest of that block is still
delivered, and the skip shows at the next regeneration. -/
def Obligations.GenblkSkipsOneBlockOfTheKeystream : Prop :=
  ∀ sw v m s, OnStream sw v m s →
    (∃ t, exec .genblk s = .next t ∧ t.CUR = s.CUR ∧ OnStream sw v (m + 64) t ∧
      ∀ k, pulledByte t k = streamByte sw v (m + 64 + k)) ∧
    ∃ t, exec .ctrinc s = .next t ∧ (s.CUR = 0 → OnStream sw v (m + 64) t) ∧
      (s.CUR ≠ 0 → ∀ k, (k < 64 - m % 64 → pulledByte t k = streamByte sw v (m + k)) ∧
        (64 - m % 64 ≤ k → pulledByte t k = streamByte sw v (m + 64 + k)))

/-- R29, R226: what each command adds to the block counter, and so when the host keeps its duty: the blocks the command
starts still fit below 2^64 (an `XOR` of three blocks at `CTR = 2^64 - 2` does not), and no `GENBLK` is issued inside a
block (R223). `INIT` and `RESET` are within the duty always. -/
def Obligations.TheCounterDutyIsToStayBelowTheWrap : Prop :=
  (∀ s n, counter (afterPulls n s).S = counter s.S + BitVec.ofNat 64 (blocksPulled s.CUR.val n)) ∧
  (∀ s i n, s.KEYED = true → Admitted s (xorLength s) →
    (i, n) ∈ [(Instr.genblk, 1), (.ctrinc, 1), (.xor, blocksPulled s.CUR.val (xorLength s))] ∨
      (∃ b, (i, n) = (.xorb b, blocksPulled s.CUR.val 1)) ∨
      (∃ w : Fin 4, (i, n) = (.nextint w, blocksPulled s.CUR.val (2 ^ w.val))) →
    (∃ t, exec i s = .next t ∧ counter t.S = counter s.S + BitVec.ofNat 64 n) ∧
    (HostDuty i s ↔ (counter s.S).toNat + n < 2 ^ 64 ∧ (i = .genblk → s.CUR = 0))) ∧
  ∀ s i, restarts i = true → HostDuty i s

/-! ## Decoding -/

/-- A few words of the spec: its examples of R99, R110, R132, R152, R163 and the words of section 2 of the vectors. -/
def Obligations.WordsOfTheSpecDecode : Prop :=
  decode 0x10000123 = .ok (.qr 0 1 2 3) ∧ decode 0x1000f078 = .ok (.qr 15 0 7 8) ∧ decode 0x13000000 = .ok .dblrnd ∧
  decode 0x20200800 = .ok (.init 32 8 .salsa20) ∧ decode 0x20100801 = .ok (.init 16 8 .salsa12) ∧
  decode 0x21000000 = .ok .ctrinc ∧ decode 0x30000000 = .ok .genblk ∧ decode 0x33000000 = .ok .xser ∧
  decode 0x400000FF = .ok (.xorb 0xFF) ∧ decode 0x42000002 = .ok (.nextint 2) ∧ decode 0x43000000 = .ok .reset ∧
  decode 0x00000000 = .error .unknownOpcode ∧ decode 0x30000001 = .error .reservedField ∧
  decode 0x10000012 = .error .repeatedIndex ∧ decode 0x20200803 = .error .unknownRounds

/-- Decoding the word of a command that a word can spell gives the command back, with every operand (R71 to R76). -/
def Obligations.DecodeOfEncodeIsTheCommand : Prop := ∀ i : Instr, i.wf = true → decode (encode i) = .ok i

/-- A word that decodes is the word of the command it decodes to, and that command is well-formed: no two words spell
one command (R78, R79). -/
def Obligations.EncodeOfDecodeIsTheWord : Prop := ∀ (w : Word) (i : Instr), decode w = .ok i → encode i = w ∧ i.wf = true

/-- The words that R79 lists as illegal. -/
def Sys2Proof.Statements.ListedIllegal (w : Word) : Prop :=
  field w 31 24 ∉ [0x10, 0x11, 0x12, 0x13, 0x20, 0x21, 0x30, 0x31, 0x32, 0x33, 0x40, 0x41, 0x42, 0x43] ∨
  (field w 31 24 ∈ [0x11, 0x12, 0x13, 0x21, 0x30, 0x31, 0x32, 0x33, 0x41, 0x43] ∧ field w 23 0 ≠ 0) ∨
  (field w 31 24 = 0x10 ∧ field w 23 16 ≠ 0) ∨
  (field w 31 24 = 0x40 ∧ field w 23 8 ≠ 0) ∨
  (field w 31 24 = 0x42 ∧ field w 23 2 ≠ 0) ∨
  (field w 31 24 = 0x10 ∧ ¬[field w 15 12, field w 11 8, field w 7 4, field w 3 0].Nodup) ∨
  (field w 31 24 = 0x20 ∧ field w 7 0 ∉ [0, 1, 2])

/-- R79, R192: the illegal words, exactly: the decoder refuses them, they change nothing but `ERR`, and no other word
ends with `IllegalCommand`. -/
def Obligations.TheIllegalWordsAreExactlyTheListed : Prop :=
  ∀ w, ((∃ e, decode w = .error e) ↔ ListedIllegal w) ∧
    (ListedIllegal w → ∀ s, command w s = .next { s with ERR := .illegalCommand }) ∧
    (¬ListedIllegal w → ∀ s t, command w s = .next t → t.ERR ≠ .illegalCommand)

/-- R81, R199: decode and execute, in this order; one outcome for every word. -/
def Obligations.DecodeThenKeyedThenExecute : Prop :=
  ∀ w s,
    (∀ e, decode w = .error e → command w s = .next { s with ERR := .illegalCommand }) ∧
    (∀ i, decode w = .ok i →
      i ∈ [.ctrinc, .genblk, .xload, .xadd, .xor, .reset] ∨ (∃ b, i = .xorb b) ∨ (∃ n, i = .nextint n) →
      s.KEYED = false → command w s = .next { s with ERR := .notKeyed }) ∧
    (∀ i, decode w = .ok i → command w s = exec i s) ∧
    (∀ i, decode w = .ok i →
      (i ∈ [.ctrinc, .genblk, .xload, .xadd, .xor, .reset] ∨ (∃ b, i = .xorb b) ∨ (∃ n, i = .nextint n) →
        s.KEYED = true) →
      ∃ t, command w s = .next t ∧ (t.ERR = .ok ∨ (i = .xor ∧ t.ERR = .busFault) ∨
        ∃ klen nlen rounds, i = .init klen nlen rounds ∧ t.ERR ∈ [.invalidKeySize, .invalidNonceSize])) ∧
    ∃ t, command w s = .next t

/-- R190, R214: which command can end with which outcome. -/
def Obligations.EachCommandEndsWithAnOutcomeOfItsRow : Prop :=
  ∀ i s t, i.wf = true → exec i s = .next t →
    t.ERR ∈ (match i with
      | .qr _ _ _ _ => [ErrCode.ok]
      | .colrnd => [.ok]
      | .rowrnd => [.ok]
      | .dblrnd => [.ok]
      | .xser => [.ok]
      | .init _ _ _ => [.ok, .invalidKeySize, .invalidNonceSize]
      | .ctrinc => [.ok, .notKeyed]
      | .genblk => [.ok, .notKeyed]
      | .xload => [.ok, .notKeyed]
      | .xadd => [.ok, .notKeyed]
      | .reset => [.ok, .notKeyed]
      | .xorb _ => [.ok, .notKeyed]
      | .nextint _ => [.ok, .notKeyed]
      | .xor => [.ok, .notKeyed, .busFault])

/-- R202: an error other than `BusFault` is precise: only `ERR` has changed. -/
def Obligations.ErrorsOtherThanBusFaultChangeOnlyErr : Prop :=
  ∀ w s t, command w s = .next t → t.ERR ∈ [.illegalCommand, .notKeyed, .invalidKeySize, .invalidNonceSize] →
    t = { s with ERR := t.ERR }

/-- R18, R81: every command goes on, whatever the state: none faults and none is refused. -/
def Obligations.EveryCommandGoesOn : Prop := ∀ i s, ∃ t, exec i s = .next t

/-! ## The host's accesses -/

/-- A step on a write of a word to `CMD` runs the decoded command on the state with that access taken from the host's
accesses and answered (R37, R81); `withFetchWord` places such a write next. -/
def Obligations.AStepRunsTheDecodedCommand : Prop :=
  (∀ s rest w i, s.pending = .write 4 0x000 w :: rest → decode w = .ok i →
    step s = exec i { s with pending := rest, reply := .done }) ∧
  (∀ s rest w e, s.pending = .write 4 0x000 w :: rest → decode w = .error e →
    step s = .next { s with pending := rest, reply := .done, ERR := .illegalCommand }) ∧
  ∀ (s : State) w i, w < 2 ^ 32 → decode (BitVec.ofNat 32 w) = .ok i →
    step (s.withFetchWord 32 w) = exec i { s with reply := .done }

/-- R36, R38, R40, R43, R46: what a read of each register returns, and that it changes nothing else (R45, R63). -/
def Obligations.ReadsReturnTheRegisterMapAndChangeNothing : Prop :=
  ∀ s rest off, s.pending = .read 4 off :: rest → ∀ v : Word,
    ((off = 0x000 ∧ v = 0) ∨
     (off = 0x004 ∧ v.getLsbD 0 = s.KEYED ∧ v.extractLsb' 1 2 = BitVec.ofNat 2 s.RV.code ∧ v.extractLsb' 3 5 = 0 ∧
       v.extractLsb' 8 6 = BitVec.ofNat 6 s.CUR.val ∧ v.extractLsb' 14 18 = 0) ∨
     (off = 0x008 ∧ v.extractLsb' 0 8 = s.ERR.code ∧ v.extractLsb' 8 24 = 0) ∨
     (off = 0x00C ∧ v = s.XCNT) ∨
     (off = 0x010 ∧ v = s.RESULT.extractLsb' 0 32) ∨ (off = 0x014 ∧ v = s.RESULT.extractLsb' 32 32) ∨
     (off = 0x018 ∧ v = s.SRC) ∨ (off = 0x01C ∧ v = s.DST) ∨ (off = 0x020 ∧ v = s.LEN) ∨
     (∃ k, ∃ _ : k < 8, off = 0x040 + 4 * k ∧ ∀ j, ∀ _ : j < 4, v.extractLsb' (8 * j) 8 = s.KEY[4 * k + j]) ∨
     (∃ k, ∃ _ : k < 2, off = 0x060 + 4 * k ∧ ∀ j, ∀ _ : j < 4, v.extractLsb' (8 * j) 8 = s.NONCE[4 * k + j]) ∨
     (∃ i, ∃ _ : i < 16, off = 0x080 + 4 * i ∧ v = s.S[i]) ∨
     (∃ i, ∃ _ : i < 16, off = 0x0C0 + 4 * i ∧ v = s.X[i]) ∨
     (∃ i, ∃ _ : i < 16, off = 0x100 + 4 * i ∧ ∀ j, ∀ _ : j < 4, v.extractLsb' (8 * j) 8 = s.KS[4 * i + j])) →
    step s = .next { s with pending := rest, reply := .data v }

/-- R36, R45, R46: what a write to each register but `CMD` does; a read-only register ignores it. -/
def Obligations.WritesFollowTheRegisterMap : Prop :=
  ∀ s rest off v, s.pending = .write 4 off v :: rest →
    (off = 0x018 → step s = .next { s with pending := rest, reply := .done, SRC := v }) ∧
    (off = 0x01C → step s = .next { s with pending := rest, reply := .done, DST := v }) ∧
    (off = 0x020 → step s = .next { s with pending := rest, reply := .done, LEN := v }) ∧
    (∀ k, ∀ _ : k < 8, off = 0x040 + 4 * k → ∃ t, step s = .next t ∧
      (∀ j, ∀ _ : j < 4, t.KEY[4 * k + j] = v.extractLsb' (8 * j) 8) ∧
      (∀ i, ∀ _ : i < 32, i / 4 ≠ k → t.KEY[i] = s.KEY[i]) ∧
      t = { s with pending := rest, reply := .done, KEY := t.KEY }) ∧
    (∀ k, ∀ _ : k < 2, off = 0x060 + 4 * k → ∃ t, step s = .next t ∧
      (∀ j, ∀ _ : j < 4, t.NONCE[4 * k + j] = v.extractLsb' (8 * j) 8) ∧
      (∀ i, ∀ _ : i < 8, i / 4 ≠ k → t.NONCE[i] = s.NONCE[i]) ∧
      t = { s with pending := rest, reply := .done, NONCE := t.NONCE }) ∧
    (∀ i, ∀ _ : i < 16, off = 0x0C0 + 4 * i → ∃ t, step s = .next t ∧ t.X[i] = v ∧
      (∀ j, ∀ _ : j < 16, j ≠ i → t.X[j] = s.X[j]) ∧ t = { s with pending := rest, reply := .done, X := t.X }) ∧
    ((off ∈ [0x004, 0x008, 0x00C, 0x010, 0x014] ∨ (off % 4 = 0 ∧ 0x080 ≤ off ∧ off < 0x0C0) ∨
        (off % 4 = 0 ∧ 0x100 ≤ off ∧ off < 0x140)) →
      step s = .next { s with pending := rest, reply := .done })

/-- R45, R51, R59: which accesses are refused, exactly; every other access gets a step. -/
def Obligations.ExactlyTheListedAccessesAreRefused : Prop :=
  ∀ s rest size off v a, a = .read size off ∨ a = .write size off v → s.pending = a :: rest →
    ((size ≠ 4 ∨ off % 4 ≠ 0 ∨ (0x024 ≤ off ∧ off ≤ 0x03C) ∨ (0x068 ≤ off ∧ off ≤ 0x07C) ∨ 0x140 ≤ off) →
      ∃ e, step s = .refused (.access e)) ∧
    (¬(size ≠ 4 ∨ off % 4 ≠ 0 ∨ (0x024 ≤ off ∧ off ≤ 0x03C) ∨ (0x068 ≤ off ∧ off ≤ 0x07C) ∨ 0x140 ≤ off) →
      ∃ t, step s = .next t)

/-! ## Whole-machine rules -/

/-- R23: the constant, key and nonce words of `S` change in no step but an `INIT` or the hardware reset. -/
def Obligations.OnlyInitChangesTheNonCounterWords : Prop :=
  ∀ s t, step s = .next t → ¬NextAccess s .hardwareReset → (∀ klen nlen rounds, ¬NextCommand s (.init klen nlen rounds)) →
    ∀ i : Fin 16, i ≠ 8 → i ≠ 9 → t.S[i] = s.S[i]

/-- R31, and R30 and R41 in part: only a successful `INIT` writes `RV` (with its own selector) and sets `KEYED`; only
`INIT`, `RESET` and the byte commands move `CUR`; the hardware reset apart. -/
def Obligations.OnlyTheListedCommandsChangeTheStatus : Prop :=
  ∀ s t, step s = .next t → ¬NextAccess s .hardwareReset →
    (t.RV ≠ s.RV → t.ERR = .ok ∧ ∃ klen nlen, NextCommand s (.init klen nlen t.RV)) ∧
    (t.KEYED ≠ s.KEYED → t.KEYED = true ∧ t.ERR = .ok ∧ ∃ klen nlen rounds, NextCommand s (.init klen nlen rounds)) ∧
    (t.CUR ≠ s.CUR → (∃ klen nlen rounds, NextCommand s (.init klen nlen rounds)) ∨ NextCommand s .reset ∨
      (∃ b, NextCommand s (.xorb b)) ∨ NextCommand s .xor ∨ ∃ w, NextCommand s (.nextint w))

/-- R34, R35, R40, R42, R43, R44: who may change each register the host sees. -/
def Obligations.EachRegisterHasItsOwnWriters : Prop :=
  ∀ s t, step s = .next t → ¬NextAccess s .hardwareReset →
    (t.SRC ≠ s.SRC → NextWrites s .src) ∧ (t.DST ≠ s.DST → NextWrites s .dst) ∧ (t.LEN ≠ s.LEN → NextWrites s .len) ∧
    (t.KEY ≠ s.KEY → ∃ k, NextWrites s (.keyw k)) ∧ (t.NONCE ≠ s.NONCE → ∃ k, NextWrites s (.noncew k)) ∧
    (t.ERR ≠ s.ERR → NextWrites s .cmd) ∧ (t.XCNT ≠ s.XCNT → NextCommand s .xor) ∧
    (t.RESULT ≠ s.RESULT → t.ERR = .ok ∧ ((∃ b, NextCommand s (.xorb b)) ∨ ∃ w, NextCommand s (.nextint w)))

/-- R52: no step but an `XOR` command reaches data memory; no step changes which addresses the platform admits. -/
def Obligations.OnlyXorReachesDataMemory : Prop :=
  ∀ s t, step s = .next t → t.dmemHoles = s.dmemHoles ∧
    (¬NextCommand s .xor → ∀ a, t.byteAt a = s.byteAt a) ∧
    (¬NextCommand s .xor → ∀ m, ∃ t', step { s with dmem := m } = .next t' ∧ t' = { t with dmem := m })

/-- The frame of the commands that store nothing: each leaves every byte of data memory and every register outside
its own list unchanged (R23, R42, R43, R44, R52). -/
def Obligations.CommandsOtherThanXorLeaveTheRestUnchanged : Prop :=
  ∀ i s t, i ≠ .xor → exec i s = .next t →
    (∀ a, t.byteAt a = s.byteAt a) ∧ t.XCNT = s.XCNT ∧ t.KEY = s.KEY ∧ t.NONCE = s.NONCE ∧ t.SRC = s.SRC ∧ t.DST = s.DST ∧
    t.LEN = s.LEN ∧
    ((∀ klen nlen rounds, i ≠ .init klen nlen rounds) → t.RV = s.RV ∧ t.KEYED = s.KEYED ∧
      ∀ j : Fin 16, j ≠ 8 → j ≠ 9 → t.S[j] = s.S[j]) ∧
    ((∀ b, i ≠ .xorb b) → (∀ w, i ≠ .nextint w) → t.RESULT = s.RESULT) ∧
    (i ∈ [.colrnd, .rowrnd, .dblrnd, .xload, .xadd] ∨ (∃ a b c d, i = .qr a b c d) →
      t.S = s.S ∧ t.KS = s.KS ∧ t.CUR = s.CUR) ∧
    (i = .xser → t.S = s.S ∧ t.X = s.X ∧ t.CUR = s.CUR) ∧
    (i = .ctrinc → t.X = s.X ∧ t.KS = s.KS ∧ t.CUR = s.CUR) ∧
    (i = .genblk → t.CUR = s.CUR) ∧
    (i = .reset ∨ (∃ klen nlen rounds, i = .init klen nlen rounds) → t.X = s.X ∧ t.KS = s.KS)

/-- The invariant of every state and the invariant of the byte cursor hold at reset. The first rests on the model's choice of an empty launch memory
(notes/assumptions/1.md). -/
def Obligations.TheInvariantHoldsAtReset : Prop := Machine.Inv State.reset ∧ UnconsumedBytesFit State.reset

/-- Every step keeps the invariant: memory stays in canonical form; before the first successful `INIT` no keystream
state leaves its reset value (R25, R41, R193); after it `S` holds the constants of one key length, and a 16-byte key
in both halves (R22, R23, R111, R113). -/
def Obligations.EveryStepKeepsTheInvariant : Prop := ∀ s t, Machine.Inv s → step s = .next t → Machine.Inv t

/-- A byte of data memory reads as written, every other byte as before, and the canonical form is kept
(R52, R60; the form is the model's, notes/assumptions/1.md). -/
def Obligations.AWrittenByteReadsBackAndNoOtherChanges : Prop :=
  ∀ s t a v, Memory.wf s.dmem → memWrite s a v = some t →
    t.byteAt a = v ∧ (∀ b, b ≠ a → t.byteAt b = s.byteAt b) ∧ Memory.wf t.dmem ∧ t = { s with dmem := t.dmem }

/-! ## Host software: the keying sequence and the streaming adapter -/

/-- R219: the host's keying sequence builds the cipher state of its key, nonce and rounds, whatever the block held, and
its last read returns `ERR = 0`; with another key length it returns 3, and with another nonce length 4, and then `S`,
`RV`, `CUR` and `KEYED` are as before. -/
def Obligations.TheKeyingSequenceKeysTheBlock : Prop :=
  (∀ (key nonce : List Byte) rounds s, key.length = 16 ∨ key.length = 32 → nonce.length = 8 →
    ∃ t, performAll (keyingSequence key nonce rounds) s = .next t ∧ t.reply = .data 0 ∧ t.ERR = .ok ∧
      t.KEYED = true ∧ t.RV = rounds ∧ t.CUR = 0 ∧ t.S = atBlock t.S 0 ∧
      (∀ i (_ : i < 4), t.S[1 + i] = listWord key i ∧ t.S[11 + i] = listWord key (if key.length = 32 then 4 + i else i)) ∧
      t.S[6] = listWord nonce 0 ∧ t.S[7] = listWord nonce 1 ∧ HasConstants t.S ∧ OnStream t.S rounds 0 t) ∧
  ∀ (key nonce : List Byte) rounds s, ¬((key.length = 16 ∨ key.length = 32) ∧ nonce.length = 8) →
    ∃ t, performAll (keyingSequence key nonce rounds) s = .next t ∧
      t.reply = .data (if key.length = 16 ∨ key.length = 32 then 4 else 3) ∧
      t.S = s.S ∧ t.RV = s.RV ∧ t.CUR = s.CUR ∧ t.KEYED = s.KEYED

/-- R179: once `eos` is set, no `read` takes an answer from the source, whatever the source is, and `eos` stays; when
the last block is delivered every `read` returns 0 and changes nothing. -/
def Obligations.EndOfStreamIsPermanent : Prop :=
  ∀ (σ : Type) (ask : σ → Pull × σ) (a : Adapter σ) (n : Int), a.eos = true →
    (a.read ask n).2.source = a.source ∧ (a.read ask n).2.eos = true ∧ (a.read ask n).2.core = a.core ∧
    (a.count ≤ a.offset → a.read ask n = (⟨[], some 0⟩, a))

/-- R181 and R187 (d): a pull's bytes are applied to the keystream from where it stands, byte for byte, and exactly
as many keystream bytes are consumed. -/
def Obligations.AdapterLoadXorsTheFreshBytes : Prop :=
  ∀ (σ : Type) (a : Adapter σ) (bs : List Byte) (rest : σ) sw v m, OnStream sw v m a.core → Memory.wf a.core.dmem →
    bs.length ≤ 64 → BuffersUsable a →
    (a.load bs rest).decoded bs.length = bs.mapIdx (fun i b => b ^^^ streamByte sw v (m + i)) ∧
    OnStream sw v (m + bs.length) (a.load bs rest).core ∧ (a.load bs rest).count = bs.length ∧
    ((a.load bs rest).eos = true ↔ a.eos = true ∨ bs.length < 64)

/-- R186: a source of 100 bytes, 64 and then 36, read in one call or in any number of calls of any sizes. -/
def Obligations.TheStreamingScenarioReturnsAHundredBytes : Prop :=
  ∀ (σ : Type) (ask : σ → Pull × σ) (a : Adapter σ) (xs ys : List Byte) sw v, FreshAdapter sw v a →
    YieldsHundred ask a.source xs ys →
    (∀ n : Int, 100 ≤ n →
      (a.read ask n).1 = ⟨(xs ++ ys).mapIdx (fun i b => b ^^^ streamByte sw v i), some 100⟩) ∧
    ∀ ns : List Int, 100 ≤ (ns.map Int.toNat).sum →
      (readAll ask ns a).1 = (xs ++ ys).mapIdx (fun i b => b ^^^ streamByte sw v i) ∧
      OnStream sw v 100 (readAll ask ns a).2.core ∧
      ∀ k : Int, (readAll ask ns a).2.read ask k = (⟨[], some 0⟩, (readAll ask ns a).2)

/-- R187 (b): the bytes delivered and the adapter after them do not depend on how the caller sizes its reads; a failure
of the source meets the larger read at the same byte. -/
def Obligations.ReadsMayBeSplit : Prop :=
  ∀ (σ : Type) (ask : σ → Pull × σ) (a : Adapter σ) (m n : Nat),
    ((a.read ask m).1.returned ≠ none →
      (a.read ask (m + n : Nat)).1.buffer = (a.read ask m).1.buffer ++ ((a.read ask m).2.read ask n).1.buffer ∧
      (a.read ask (m + n : Nat)).2 = ((a.read ask m).2.read ask n).2 ∧
      ((a.read ask (m + n : Nat)).1.returned = none ↔ ((a.read ask m).2.read ask n).1.returned = none)) ∧
    ((a.read ask m).1.returned = none → a.read ask (m + n : Nat) = a.read ask m)

/-- R184: an adapter is a byte source for another adapter: a pull from it delivers what its own `read` of 64 bytes
delivers, at most 64 bytes, fewer only when it has reached its end; at its end it delivers none and does not change; and
a failure of its own source is handed on. -/
def Obligations.AnAdapterIsAByteSource : Prop :=
  ∀ (σ : Type) (ask : σ → Pull × σ) (a : Adapter σ),
    (∀ bs b, Adapter.ask ask a = (.bytes bs, b) → a.read ask 64 = (⟨bs, some bs.length⟩, b) ∧ bs.length ≤ 64 ∧
      (bs.length < 64 → b.phase = .endOfStream)) ∧
    (a.phase = .endOfStream → Adapter.ask ask a = (.bytes [], a)) ∧
    ∀ b, Adapter.ask ask a = (.failure, b) ↔ ∃ out, a.read ask 64 = (⟨out, none⟩, b)

/-- R184 and R187 (c): two adapters in a chain, each on its own block, both keyed alike: the second returns the content
of the first one's source, here 100 bytes. -/
def Obligations.ChainedAdaptersReturnTheOriginalContent : Prop :=
  ∀ (σ : Type) (ask : σ → Pull × σ) (b : Adapter (Adapter σ)) (xs ys : List Byte) sw v,
    FreshAdapter sw v b → FreshAdapter sw v b.source → YieldsHundred ask b.source.source xs ys →
    ∀ n : Int, 100 ≤ n → (b.read (Adapter.ask ask) n).1 = ⟨xs ++ ys, some 100⟩
end

