-- ==== Sys2Proof/Laws/State.lean ====
section
/-! SUPPORT. Sys2Proof/Laws/State.lean: one lemma per field per shared update of the state, so that no later proof
unfolds one. -/

namespace Sys2Proof.Machine

theorem finish_eq (s : State) : finish s = .next { s with ERR := .ok } := rfl

theorem raise_eq (e : ErrCode) (s : State) : raise e s = .next { s with ERR := e } := rfl

theorem whenKeyed_of_keyed {s : State} (h : s.KEYED = true) (body : Host.Outcome State Fault Refusal) :
    whenKeyed s body = body := by simp [whenKeyed, h]

theorem whenKeyed_of_not_keyed {s : State} (h : s.KEYED = false) (body : Host.Outcome State Fault Refusal) :
    whenKeyed s body = .next { s with ERR := .notKeyed } := by simp [whenKeyed, h, raise]

/-! Block generation (R130) writes `X`, `KS` and `S`. -/

@[simp] theorem generateBlock_S (s : State) : (generateBlock s).S = counterIncrement s.S := rfl
@[simp] theorem generateBlock_X (s : State) : (generateBlock s).X = blockWords s.S s.RV := rfl
@[simp] theorem generateBlock_KS (s : State) : (generateBlock s).KS = block s.S s.RV := rfl
@[simp] theorem generateBlock_CUR (s : State) : (generateBlock s).CUR = s.CUR := rfl
@[simp] theorem generateBlock_RV (s : State) : (generateBlock s).RV = s.RV := rfl
@[simp] theorem generateBlock_KEY (s : State) : (generateBlock s).KEY = s.KEY := rfl
@[simp] theorem generateBlock_NONCE (s : State) : (generateBlock s).NONCE = s.NONCE := rfl
@[simp] theorem generateBlock_KEYED (s : State) : (generateBlock s).KEYED = s.KEYED := rfl
@[simp] theorem generateBlock_ERR (s : State) : (generateBlock s).ERR = s.ERR := rfl
@[simp] theorem generateBlock_RESULT (s : State) : (generateBlock s).RESULT = s.RESULT := rfl
@[simp] theorem generateBlock_XCNT (s : State) : (generateBlock s).XCNT = s.XCNT := rfl
@[simp] theorem generateBlock_SRC (s : State) : (generateBlock s).SRC = s.SRC := rfl
@[simp] theorem generateBlock_DST (s : State) : (generateBlock s).DST = s.DST := rfl
@[simp] theorem generateBlock_LEN (s : State) : (generateBlock s).LEN = s.LEN := rfl
@[simp] theorem generateBlock_dmem (s : State) : (generateBlock s).dmem = s.dmem := rfl
@[simp] theorem generateBlock_dmemHoles (s : State) : (generateBlock s).dmemHoles = s.dmemHoles := rfl
@[simp] theorem generateBlock_pending (s : State) : (generateBlock s).pending = s.pending := rfl
@[simp] theorem generateBlock_reply (s : State) : (generateBlock s).reply = s.reply := rfl

/-! The refill before a pull (R150). -/

theorem refill_of_zero {s : State} (h : s.CUR = 0) : refill s = generateBlock s := by simp [refill, h]

theorem refill_of_ne {s : State} (h : s.CUR ≠ 0) : refill s = s := by simp [refill, h]

@[simp] theorem refill_CUR (s : State) : (refill s).CUR = s.CUR := by unfold refill; split <;> rfl
@[simp] theorem refill_RV (s : State) : (refill s).RV = s.RV := by unfold refill; split <;> rfl
@[simp] theorem refill_KEY (s : State) : (refill s).KEY = s.KEY := by unfold refill; split <;> rfl
@[simp] theorem refill_NONCE (s : State) : (refill s).NONCE = s.NONCE := by unfold refill; split <;> rfl
@[simp] theorem refill_KEYED (s : State) : (refill s).KEYED = s.KEYED := by unfold refill; split <;> rfl
@[simp] theorem refill_ERR (s : State) : (refill s).ERR = s.ERR := by unfold refill; split <;> rfl
@[simp] theorem refill_RESULT (s : State) : (refill s).RESULT = s.RESULT := by unfold refill; split <;> rfl
@[simp] theorem refill_XCNT (s : State) : (refill s).XCNT = s.XCNT := by unfold refill; split <;> rfl
@[simp] theorem refill_SRC (s : State) : (refill s).SRC = s.SRC := by unfold refill; split <;> rfl
@[simp] theorem refill_DST (s : State) : (refill s).DST = s.DST := by unfold refill; split <;> rfl
@[simp] theorem refill_LEN (s : State) : (refill s).LEN = s.LEN := by unfold refill; split <;> rfl
@[simp] theorem refill_dmem (s : State) : (refill s).dmem = s.dmem := by unfold refill; split <;> rfl
@[simp] theorem refill_dmemHoles (s : State) : (refill s).dmemHoles = s.dmemHoles := by unfold refill; split <;> rfl
@[simp] theorem refill_pending (s : State) : (refill s).pending = s.pending := by unfold refill; split <;> rfl
@[simp] theorem refill_reply (s : State) : (refill s).reply = s.reply := by unfold refill; split <;> rfl

/-! A pull (R150) writes `CUR`, and what the refill writes. -/

@[simp] theorem nextKsByte_S (s : State) : (nextKsByte s).2.S = (refill s).S := rfl
@[simp] theorem nextKsByte_X (s : State) : (nextKsByte s).2.X = (refill s).X := rfl
@[simp] theorem nextKsByte_KS (s : State) : (nextKsByte s).2.KS = (refill s).KS := rfl
@[simp] theorem nextKsByte_CUR (s : State) : (nextKsByte s).2.CUR = s.CUR + 1 := by simp [nextKsByte]
@[simp] theorem nextKsByte_RV (s : State) : (nextKsByte s).2.RV = s.RV := by simp [nextKsByte]
@[simp] theorem nextKsByte_KEY (s : State) : (nextKsByte s).2.KEY = s.KEY := by simp [nextKsByte]
@[simp] theorem nextKsByte_NONCE (s : State) : (nextKsByte s).2.NONCE = s.NONCE := by simp [nextKsByte]
@[simp] theorem nextKsByte_KEYED (s : State) : (nextKsByte s).2.KEYED = s.KEYED := by simp [nextKsByte]
@[simp] theorem nextKsByte_ERR (s : State) : (nextKsByte s).2.ERR = s.ERR := by simp [nextKsByte]
@[simp] theorem nextKsByte_RESULT (s : State) : (nextKsByte s).2.RESULT = s.RESULT := by simp [nextKsByte]
@[simp] theorem nextKsByte_XCNT (s : State) : (nextKsByte s).2.XCNT = s.XCNT := by simp [nextKsByte]
@[simp] theorem nextKsByte_SRC (s : State) : (nextKsByte s).2.SRC = s.SRC := by simp [nextKsByte]
@[simp] theorem nextKsByte_DST (s : State) : (nextKsByte s).2.DST = s.DST := by simp [nextKsByte]
@[simp] theorem nextKsByte_LEN (s : State) : (nextKsByte s).2.LEN = s.LEN := by simp [nextKsByte]
@[simp] theorem nextKsByte_dmem (s : State) : (nextKsByte s).2.dmem = s.dmem := by simp [nextKsByte]
@[simp] theorem nextKsByte_dmemHoles (s : State) : (nextKsByte s).2.dmemHoles = s.dmemHoles := by simp [nextKsByte]
@[simp] theorem nextKsByte_pending (s : State) : (nextKsByte s).2.pending = s.pending := by simp [nextKsByte]
@[simp] theorem nextKsByte_reply (s : State) : (nextKsByte s).2.reply = s.reply := by simp [nextKsByte]

/-! The hardware reset event (R48, R215). -/

@[simp] theorem hardwareReset_S (s : State) : (hardwareReset s).S = State.reset.S := rfl
@[simp] theorem hardwareReset_X (s : State) : (hardwareReset s).X = State.reset.X := rfl
@[simp] theorem hardwareReset_KS (s : State) : (hardwareReset s).KS = State.reset.KS := rfl
@[simp] theorem hardwareReset_CUR (s : State) : (hardwareReset s).CUR = State.reset.CUR := rfl
@[simp] theorem hardwareReset_RV (s : State) : (hardwareReset s).RV = State.reset.RV := rfl
@[simp] theorem hardwareReset_KEY (s : State) : (hardwareReset s).KEY = State.reset.KEY := rfl
@[simp] theorem hardwareReset_NONCE (s : State) : (hardwareReset s).NONCE = State.reset.NONCE := rfl
@[simp] theorem hardwareReset_KEYED (s : State) : (hardwareReset s).KEYED = State.reset.KEYED := rfl
@[simp] theorem hardwareReset_ERR (s : State) : (hardwareReset s).ERR = State.reset.ERR := rfl
@[simp] theorem hardwareReset_RESULT (s : State) : (hardwareReset s).RESULT = State.reset.RESULT := rfl
@[simp] theorem hardwareReset_XCNT (s : State) : (hardwareReset s).XCNT = State.reset.XCNT := rfl
@[simp] theorem hardwareReset_SRC (s : State) : (hardwareReset s).SRC = State.reset.SRC := rfl
@[simp] theorem hardwareReset_DST (s : State) : (hardwareReset s).DST = State.reset.DST := rfl
@[simp] theorem hardwareReset_LEN (s : State) : (hardwareReset s).LEN = State.reset.LEN := rfl
@[simp] theorem hardwareReset_dmem (s : State) : (hardwareReset s).dmem = s.dmem := rfl
@[simp] theorem hardwareReset_dmemHoles (s : State) : (hardwareReset s).dmemHoles = s.dmemHoles := rfl
@[simp] theorem hardwareReset_pending (s : State) : (hardwareReset s).pending = s.pending := rfl
@[simp] theorem hardwareReset_reply (s : State) : (hardwareReset s).reply = s.reply := rfl

end Sys2Proof.Machine
end

