-- ==== Sys2Proof/Laws/Permutation.lean ====
section
/-! SUPPORT. Sys2Proof/Laws/Permutation.lean: what a quarter-round does to each of the sixteen words, and that
quarter-rounds on disjoint words commute (R93 to R96). -/

namespace Sys2Proof

theorem distinctIndices_iff {a b c d : Fin 16} :
    distinctIndices a b c d = true ↔ a ≠ b ∧ a ≠ c ∧ a ≠ d ∧ b ≠ c ∧ b ≠ d ∧ c ≠ d := by
  simp [distinctIndices, and_assoc]

namespace Machine

/-- The word `i` of a file with word `j` written. -/
theorem set_get (x : WordFile) (i j : Fin 16) (v : Word) : (x.set j v)[i] = if i = j then v else x[i] := by
  simp [Vector.getElem_set, Fin.ext_iff, eq_comm]

/-- The four words of R93, each on the words already updated, and the twelve others. -/
theorem quarterRound_words {a b c d : Fin 16} (h : distinctIndices a b c d = true) (x : WordFile) :
    (quarterRound a b c d x)[b] = x[b] ^^^ rotl32 (add32 x[a] x[d]) 7 ∧
    (quarterRound a b c d x)[c] = x[c] ^^^ rotl32 (add32 (quarterRound a b c d x)[b] x[a]) 9 ∧
    (quarterRound a b c d x)[d] =
      x[d] ^^^ rotl32 (add32 (quarterRound a b c d x)[c] (quarterRound a b c d x)[b]) 13 ∧
    (quarterRound a b c d x)[a] =
      x[a] ^^^ rotl32 (add32 (quarterRound a b c d x)[d] (quarterRound a b c d x)[c]) 18 ∧
    ∀ i : Fin 16, i ≠ a → i ≠ b → i ≠ c → i ≠ d → (quarterRound a b c d x)[i] = x[i] := by
  obtain ⟨hab, hac, had, hbc, hbd, hcd⟩ := distinctIndices_iff.mp h
  refine ⟨?_, ?_, ?_, ?_, fun i ha hb hc hd => ?_⟩ <;>
    simp only [quarterRound, set_get, *, Ne.symm hab, Ne.symm hac, Ne.symm had, Ne.symm hbc, Ne.symm hbd,
      Ne.symm hcd, if_true, if_false]

theorem quarterRound_zero (a b c d : Fin 16) :
    quarterRound a b c d (Vector.replicate 16 0) = Vector.replicate 16 0 := by
  have hset : ∀ i : Fin 16, (Vector.replicate 16 (0 : Word)).set i 0 = Vector.replicate 16 0 := by decide
  have hget : ∀ i : Fin 16, (Vector.replicate 16 (0 : Word))[i] = 0 := by decide
  have h7 : (0 : Word) ^^^ rotl32 (add32 0 0) 7 = 0 := by decide
  have h9 : (0 : Word) ^^^ rotl32 (add32 0 0) 9 = 0 := by decide
  have h13 : (0 : Word) ^^^ rotl32 (add32 0 0) 13 = 0 := by decide
  have h18 : (0 : Word) ^^^ rotl32 (add32 0 0) 18 = 0 := by decide
  simp only [quarterRound, hget, h7, h9, h13, h18, hset]

/-- Two files that agree on every word are equal. -/
theorem wordFile_ext {x y : WordFile} (h : ∀ i : Fin 16, x[i] = y[i]) : x = y :=
  Vector.ext fun i hi => h ⟨i, hi⟩

/-- Quarter-rounds that share no word commute (R95). -/
theorem quarterRound_comm {a b c d a' b' c' d' : Fin 16} (h : distinctIndices a b c d = true)
    (h' : distinctIndices a' b' c' d' = true) (hd : ∀ i ∈ [a, b, c, d], i ∉ [a', b', c', d']) (x : WordFile) :
    quarterRound a b c d (quarterRound a' b' c' d' x) = quarterRound a' b' c' d' (quarterRound a b c d x) := by
  have key : ∀ {a b c d a' b' c' d' : Fin 16}, distinctIndices a b c d = true → distinctIndices a' b' c' d' = true →
      (∀ i ∈ [a, b, c, d], i ∉ [a', b', c', d']) → ∀ x : WordFile, ∀ i ∈ [a, b, c, d],
      (quarterRound a b c d (quarterRound a' b' c' d' x))[i] =
        (quarterRound a' b' c' d' (quarterRound a b c d x))[i] := by
    intro a b c d a' b' c' d' h h' hd x i hi
    obtain ⟨e1, e2, e3, e4, -⟩ := quarterRound_words h (quarterRound a' b' c' d' x)
    obtain ⟨f1, f2, f3, f4, -⟩ := quarterRound_words h x
    have ho : ∀ (y : WordFile), ∀ j ∈ [a, b, c, d], (quarterRound a' b' c' d' y)[j] = y[j] := by
      intro y j hj
      have := hd j hj
      simp only [List.mem_cons, List.not_mem_nil, or_false, not_or] at this
      exact (quarterRound_words h' y).2.2.2.2 j this.1 this.2.1 this.2.2.1 this.2.2.2
    have oa := ho x a (by simp)
    have ob := ho x b (by simp)
    have oc := ho x c (by simp)
    have od := ho x d (by simp)
    rw [oa, ob, od] at e1
    rw [oa, oc, e1, ← f1] at e2
    rw [od, e1, ← f1, e2, ← f2] at e3
    rw [oa, e2, ← f2, e3, ← f3] at e4
    rw [ho _ i hi]
    simp only [List.mem_cons, List.not_mem_nil, or_false] at hi
    rcases hi with rfl | rfl | rfl | rfl
    · rw [e4, ← f4]
    · rw [e1, ← f1]
    · rw [e2, ← f2]
    · rw [e3, ← f3]
  refine wordFile_ext fun i => ?_
  by_cases hi : i ∈ [a, b, c, d]
  · exact key h h' hd x i hi
  · by_cases hi' : i ∈ [a', b', c', d']
    · exact (key h' h (fun j hj hj' => hd j hj' hj) x i hi').symm
    · simp only [List.mem_cons, List.not_mem_nil, or_false, not_or] at hi hi'
      have o := fun y => (quarterRound_words h y).2.2.2.2 i hi.1 hi.2.1 hi.2.2.1 hi.2.2.2
      have o' := fun y => (quarterRound_words h' y).2.2.2.2 i hi'.1 hi'.2.1 hi'.2.2.1 hi'.2.2.2
      rw [o, o', o', o]

end Machine

end Sys2Proof
end

