-- ==== Sys2Proof/Laws/Keystream.lean ====
section
/-! SUPPORT. Sys2Proof/Laws/Keystream.lean: the counter increment as 64-bit arithmetic (R118, R120), the words it leaves
alone (R23), little-endian packing and unpacking (R15, R46), and the bytes of a block (R130). -/

namespace Sys2Proof.Machine

theorem counterIncrement_low (sw : WordFile) : (counterIncrement sw)[8] = sw[8] + 1 := by
  by_cases h : sw[8] + 1#32 = 0#32 <;> simp [counterIncrement, add32, h]

theorem counterIncrement_high (sw : WordFile) :
    (counterIncrement sw)[9] = if sw[8] + 1 = 0 then sw[9] + 1 else sw[9] := by
  by_cases h : sw[8] + 1#32 = 0#32 <;> simp [counterIncrement, add32, h]

/-- No word but 8 and 9 is written (R23, R118). -/
theorem counterIncrement_other (sw : WordFile) {i : Nat} (hi : i < 16) (h8 : i ≠ 8) (h9 : i ≠ 9) :
    (counterIncrement sw)[i] = sw[i] := by
  by_cases h : sw[8] + 1#32 = 0#32 <;> simp [counterIncrement, add32, h, Ne.symm h8, Ne.symm h9]

theorem counter_toNat (sw : WordFile) : (counter sw).toNat = sw[8].toNat + 2 ^ 32 * sw[9].toNat := by
  have h8 := sw[8].isLt
  simp only [counter, BitVec.toNat_append]
  rw [← Nat.shiftLeft_add_eq_or_of_lt h8, Nat.shiftLeft_eq]
  omega

/-- `CTR <- (CTR + 1) mod 2^64` (R118, R120). -/
theorem counter_increment (sw : WordFile) : counter (counterIncrement sw) = counter sw + 1 := by
  apply BitVec.eq_of_toNat_eq
  rw [BitVec.toNat_add, counter_toNat, counter_toNat, counterIncrement_low, counterIncrement_high]
  have h8 := sw[8].isLt
  have h9 := sw[9].isLt
  have one32 : (1 : Word).toNat = 1 := rfl
  have one64 : (1 : BitVec 64).toNat = 1 := rfl
  have zero32 : (0 : Word).toNat = 0 := rfl
  split
  · next h =>
    have := congrArg BitVec.toNat h
    simp only [BitVec.toNat_add, one32, one64, zero32] at this ⊢
    omega
  · next h =>
    have : sw[8].toNat + 1 ≠ 2 ^ 32 := fun hc => h (BitVec.eq_of_toNat_eq (by simp [BitVec.toNat_add, hc]))
    simp only [BitVec.toNat_add, one32, one64]
    omega

/-! Little-endian packing. -/

theorem byteOf_toNat (w : Word) (j : Nat) : (byteOf w j).toNat = w.toNat / 2 ^ (8 * j) % 2 ^ 8 := by
  simp [byteOf, BitVec.extractLsb'_toNat, Nat.shiftRight_eq_div_pow]

theorem le32Of_toNat (b0 b1 b2 b3 : Byte) :
    (le32Of b0 b1 b2 b3).toNat = b0.toNat + 2 ^ 8 * b1.toNat + 2 ^ 16 * b2.toNat + 2 ^ 24 * b3.toNat := by
  have := b0.isLt; have := b1.isLt; have := b2.isLt; have := b3.isLt
  simp only [le32Of, BitVec.toNat_ofNat]
  omega

/-- `LE32` is the inverse of `BYTES_LE` (R15). -/
theorem le32Of_byteOf (w : Word) : le32Of (byteOf w 0) (byteOf w 1) (byteOf w 2) (byteOf w 3) = w := by
  apply BitVec.eq_of_toNat_eq
  have := w.isLt
  rw [le32Of_toNat, byteOf_toNat, byteOf_toNat, byteOf_toNat, byteOf_toNat]
  omega

theorem byteOf_le32Of (b0 b1 b2 b3 : Byte) :
    byteOf (le32Of b0 b1 b2 b3) 0 = b0 ∧ byteOf (le32Of b0 b1 b2 b3) 1 = b1 ∧
    byteOf (le32Of b0 b1 b2 b3) 2 = b2 ∧ byteOf (le32Of b0 b1 b2 b3) 3 = b3 := by
  have := b0.isLt; have := b1.isLt; have := b2.isLt; have := b3.isLt
  refine ⟨?_, ?_, ?_, ?_⟩ <;> apply BitVec.eq_of_toNat_eq <;> rw [byteOf_toNat, le32Of_toNat] <;> omega

/-- The word just stored reads back (R46). -/
theorem le32_putWord {n : Nat} (b : Vector Byte n) (o : Nat) (w : Word) (h : o + 4 ≤ n) :
    le32 (putWord b o w h) o h = w := by
  simp [le32, putWord, le32Of_byteOf]

/-- Bytes outside the stored word are unchanged (R46). -/
theorem putWord_other {n : Nat} (b : Vector Byte n) (o : Nat) (w : Word) (h : o + 4 ≤ n) {i : Nat} (hi : i < n)
    (ho : i < o ∨ o + 4 ≤ i) : (putWord b o w h)[i] = b[i] := by
  simp only [putWord, Vector.getElem_set]
  repeat rw [if_neg (by omega)]

/-- Byte `4i + j` of the serialised file is byte `j` of word `i` (R130, R135). -/
theorem serialise_byte (x : WordFile) {i j : Nat} (hi : i < 16) (hj : j < 4) :
    (serialise x)[4 * i + j] = byteOf x[i] j := by
  have h1 : (4 * i + j) / 4 = i := by omega
  have h2 : (4 * i + j) % 4 = j := by omega
  simp [serialise, h1, h2]

/-- `KSW[i]` is word `i` of the file that was serialised (R46, R135). -/
theorem ksWord_serialise (x : WordFile) (i : Fin 16) : ksWord (serialise x) i = x[i] := by
  have hi := i.isLt
  have h0 := serialise_byte x hi (j := 0) (by omega)
  have h1 := serialise_byte x hi (j := 1) (by omega)
  have h2 := serialise_byte x hi (j := 2) (by omega)
  have h3 := serialise_byte x hi (j := 3) (by omega)
  simp only [Nat.add_zero] at h0
  simp only [ksWord, le32, h0, h1, h2, h3, le32Of_byteOf, Fin.getElem_fin]

theorem feedForward_word (x sw : WordFile) {i : Nat} (hi : i < 16) : (feedForward x sw)[i] = x[i] + sw[i] := by
  simp [feedForward, add32]

end Sys2Proof.Machine
end

