-- ==== Sys2Proof/Laws/Memory.lean ====
section
/-! SUPPORT. Sys2Proof/Laws/Memory.lean: the laws of data memory: a read after a write, the canonical form kept, equal
readings are equal memories; and what `memRead` and `memWrite` can answer. -/

namespace Sys2Proof.Machine

theorem Memory.read_of_below {m : Memory} {a : Nat} (h : ∀ p ∈ m, a < p.1) : Memory.read m a = Config.dmemDefault := by
  induction m with
  | nil => rfl
  | cons p m ih =>
    have hp := h p (by simp)
    simp only [Memory.read]
    rw [if_neg (by omega)]
    exact ih fun q hq => h q (by simp [hq])

theorem Memory.wf_tail {p : Host.Cell} {m : Memory} (h : Memory.wf (p :: m)) : Memory.wf m :=
  ⟨(List.pairwise_cons.mp h.1).2, fun q hq => h.2 q (by simp [hq])⟩

theorem Memory.read_write_same {m : Memory} (h : Memory.wf m) (a : Nat) (v : Byte) : (m.write a v).read a = v := by
  induction m with
  | nil =>
    unfold Memory.write
    split
    · next hv => simp [Memory.read, hv]
    · simp [Memory.read]
  | cons p m ih =>
    obtain ⟨k, w⟩ := p
    have hlow : ∀ q ∈ m, k < q.1 := (List.pairwise_cons.mp h.1).1
    unfold Memory.write
    split
    · next hak =>
      split
      · next hv =>
        rw [hv]
        exact Memory.read_of_below fun q hq => by
          rcases List.mem_cons.mp hq with rfl | hq
          · exact hak
          · exact Nat.lt_trans hak (hlow q hq)
      · simp [Memory.read]
    · split
      · next hak =>
        split
        · next hv => subst hak; rw [hv]; exact Memory.read_of_below hlow
        · simp [Memory.read]
      · next hak =>
        simp only [Memory.read]
        rw [if_neg (by omega)]
        exact ih (Memory.wf_tail h)

theorem Memory.read_write_other (m : Memory) {a b : Nat} (v : Byte) (hab : b ≠ a) : (m.write a v).read b = m.read b := by
  induction m with
  | nil =>
    unfold Memory.write
    split
    · rfl
    · simp only [Memory.read]; rw [if_neg (Ne.symm hab)]
  | cons p m ih =>
    obtain ⟨k, w⟩ := p
    unfold Memory.write
    split
    · split
      · rfl
      · rw [Memory.read, if_neg (Ne.symm hab)]
    · split
      · next hak =>
        subst hak
        split
        · rw [Memory.read, if_neg (Ne.symm hab)]
        · simp only [Memory.read]; rw [if_neg (Ne.symm hab), if_neg (Ne.symm hab)]
      · simp only [Memory.read]; rw [ih]

theorem Memory.mem_write {m : Memory} {a : Nat} {v : Byte} {p : Host.Cell} (h : p ∈ m.write a v) :
    p ∈ m ∨ (p = (a, v) ∧ v ≠ Config.dmemDefault) := by
  induction m with
  | nil =>
    unfold Memory.write at h
    split at h
    · simp at h
    · next hv => exact .inr ⟨by simpa using h, hv⟩
  | cons q m ih =>
    obtain ⟨k, w⟩ := q
    unfold Memory.write at h
    split at h
    · split at h
      · exact .inl h
      · next hv =>
        rcases List.mem_cons.mp h with rfl | h
        · exact .inr ⟨rfl, hv⟩
        · exact .inl h
    · split at h
      · split at h
        · exact .inl (by simp [h])
        · next hv =>
          rcases List.mem_cons.mp h with rfl | h
          · exact .inr ⟨rfl, hv⟩
          · exact .inl (by simp [h])
      · rcases List.mem_cons.mp h with rfl | h
        · exact .inl (by simp)
        · rcases ih h with h | h
          · exact .inl (by simp [h])
          · exact .inr h

/-- Every write keeps the canonical form. -/
theorem Memory.write_wf {m : Memory} (h : Memory.wf m) {a : Nat} (ha : a < 2 ^ 32) (v : Byte) : Memory.wf (m.write a v) := by
  refine ⟨?_, fun p hp => ?_⟩
  · induction m with
    | nil => unfold Memory.write; split <;> simp
    | cons q m ih =>
      obtain ⟨k, w⟩ := q
      have hlow : ∀ q ∈ m, k < q.1 := (List.pairwise_cons.mp h.1).1
      unfold Memory.write
      split
      · next hak =>
        split
        · exact h.1
        · refine List.pairwise_cons.mpr ⟨fun q hq => ?_, h.1⟩
          rcases List.mem_cons.mp hq with rfl | hq
          · exact hak
          · exact Nat.lt_trans hak (hlow q hq)
      · split
        · next hak =>
          split
          · exact (Memory.wf_tail h).1
          · exact List.pairwise_cons.mpr ⟨fun q hq => hak ▸ hlow q hq, (Memory.wf_tail h).1⟩
        · next hak =>
          refine List.pairwise_cons.mpr ⟨fun q hq => ?_, ih (Memory.wf_tail h)⟩
          rcases Memory.mem_write hq with hq | ⟨rfl, -⟩
          · exact hlow q hq
          · show k < a; omega
  · rcases Memory.mem_write hp with hp | ⟨rfl, hv⟩
    · exact h.2 p hp
    · exact ⟨ha, hv⟩

/-- Two memories in canonical form that read alike everywhere are equal. -/
theorem Memory.ext_of_read {m n : Memory} (hm : Memory.wf m) (hn : Memory.wf n)
    (h : ∀ a, m.read a = n.read a) : m = n := by
  induction m generalizing n with
  | nil =>
    cases n with
    | nil => rfl
    | cons q n =>
      have := h q.1
      simp only [Memory.read, if_pos] at this
      exact absurd this.symm (hn.2 q (by simp)).2
  | cons p m ih =>
    obtain ⟨k, w⟩ := p
    have hlow : ∀ q ∈ m, k < q.1 := (List.pairwise_cons.mp hm.1).1
    have hw : w ≠ Config.dmemDefault := (hm.2 (k, w) (by simp)).2
    cases n with
    | nil =>
      have := h k
      simp only [Memory.read, if_pos] at this
      exact absurd this hw
    | cons q n =>
      obtain ⟨l, x⟩ := q
      have hlow' : ∀ q ∈ n, l < q.1 := (List.pairwise_cons.mp hn.1).1
      have hx : x ≠ Config.dmemDefault := (hn.2 (l, x) (by simp)).2
      have hkl : k = l := by
        by_contra hne
        rcases Nat.lt_or_gt_of_ne hne with hlt | hgt
        · have := h k
          rw [Memory.read_of_below (m := (l, x) :: n) (a := k) fun q hq => by
            rcases List.mem_cons.mp hq with rfl | hq
            · exact hlt
            · exact Nat.lt_trans hlt (hlow' q hq)] at this
          simp only [Memory.read, if_pos] at this
          exact hw this
        · have := h l
          rw [Memory.read_of_below (m := (k, w) :: m) (a := l) fun q hq => by
            rcases List.mem_cons.mp hq with rfl | hq
            · exact hgt
            · exact Nat.lt_trans hgt (hlow q hq)] at this
          simp only [Memory.read, if_pos] at this
          exact hx this.symm
      subst hkl
      have hwx : w = x := by simpa [Memory.read] using h k
      subst hwx
      have : m = n := ih (Memory.wf_tail hm) (Memory.wf_tail hn) fun a => by
        by_cases ha : k = a
        · subst ha; rw [Memory.read_of_below hlow, Memory.read_of_below hlow']
        · have := h a
          simp only [Memory.read] at this
          rwa [if_neg ha, if_neg ha] at this
      rw [this]

theorem memRead_eq_some {s : State} {a : Word} {v : Byte} (h : memRead s a = some v) :
    s.dmemOk a = true ∧ v = s.byteAt a := by
  unfold memRead at h
  split at h
  · next hok => exact ⟨hok, by simpa using h.symm⟩
  · simp at h

theorem memRead_of_ok {s : State} {a : Word} (h : s.dmemOk a = true) : memRead s a = some (s.byteAt a) := by
  simp [memRead, h]

theorem memRead_of_hole {s : State} {a : Word} (h : s.dmemOk a = false) : memRead s a = none := by simp [memRead, h]

theorem memWrite_eq_some {s t : State} {a : Word} {v : Byte} (h : memWrite s a v = some t) :
    s.dmemOk a = true ∧ t = { s with dmem := s.dmem.write a.toNat v } := by
  unfold memWrite at h
  split at h
  · next hok => exact ⟨hok, by simpa using h.symm⟩
  · simp at h

theorem memWrite_of_ok {s : State} {a : Word} (h : s.dmemOk a = true) (v : Byte) :
    memWrite s a v = some { s with dmem := s.dmem.write a.toNat v } := by simp [memWrite, h]

theorem memWrite_of_hole {s : State} {a : Word} (h : s.dmemOk a = false) (v : Byte) : memWrite s a v = none := by
  simp [memWrite, h]

/-- Reading one byte after the write of one byte. -/
theorem byteAt_write {s : State} (h : Memory.wf s.dmem) (a b : Word) (v : Byte) :
    ({ s with dmem := s.dmem.write a.toNat v } : State).byteAt b = if b = a then v else s.byteAt b := by
  unfold State.byteAt
  split
  · next hba => subst hba; exact Memory.read_write_same h _ _
  · next hba => exact Memory.read_write_other _ _ fun hn => hba (BitVec.eq_of_toNat_eq hn)

end Sys2Proof.Machine
end

