-- ==== Sys2Proof/Laws/Cursor.lean ====
section
/-! SUPPORT. Sys2Proof/Laws/Cursor.lean: what any number of pulls does, and the loops of `NEXTINT` and `XOR` in terms of
them (R150, R157, R161, R163): after byte `i` the state is that of `i` pulls with the memory and the count of `i` bytes. -/

namespace Sys2Proof.Machine

/-! Pulls leave every field alone but `X`, `KS`, `S` and `CUR`. -/

@[simp] theorem afterPulls_RV (m : Nat) (s : State) : (afterPulls m s).RV = s.RV := by
  induction m with
  | zero => rfl
  | succ m ih => simp [afterPulls, ih]

@[simp] theorem afterPulls_KEY (m : Nat) (s : State) : (afterPulls m s).KEY = s.KEY := by
  induction m with
  | zero => rfl
  | succ m ih => simp [afterPulls, ih]

@[simp] theorem afterPulls_NONCE (m : Nat) (s : State) : (afterPulls m s).NONCE = s.NONCE := by
  induction m with
  | zero => rfl
  | succ m ih => simp [afterPulls, ih]

@[simp] theorem afterPulls_KEYED (m : Nat) (s : State) : (afterPulls m s).KEYED = s.KEYED := by
  induction m with
  | zero => rfl
  | succ m ih => simp [afterPulls, ih]

@[simp] theorem afterPulls_ERR (m : Nat) (s : State) : (afterPulls m s).ERR = s.ERR := by
  induction m with
  | zero => rfl
  | succ m ih => simp [afterPulls, ih]

@[simp] theorem afterPulls_RESULT (m : Nat) (s : State) : (afterPulls m s).RESULT = s.RESULT := by
  induction m with
  | zero => rfl
  | succ m ih => simp [afterPulls, ih]

@[simp] theorem afterPulls_XCNT (m : Nat) (s : State) : (afterPulls m s).XCNT = s.XCNT := by
  induction m with
  | zero => rfl
  | succ m ih => simp [afterPulls, ih]

@[simp] theorem afterPulls_SRC (m : Nat) (s : State) : (afterPulls m s).SRC = s.SRC := by
  induction m with
  | zero => rfl
  | succ m ih => simp [afterPulls, ih]

@[simp] theorem afterPulls_DST (m : Nat) (s : State) : (afterPulls m s).DST = s.DST := by
  induction m with
  | zero => rfl
  | succ m ih => simp [afterPulls, ih]

@[simp] theorem afterPulls_LEN (m : Nat) (s : State) : (afterPulls m s).LEN = s.LEN := by
  induction m with
  | zero => rfl
  | succ m ih => simp [afterPulls, ih]

@[simp] theorem afterPulls_dmem (m : Nat) (s : State) : (afterPulls m s).dmem = s.dmem := by
  induction m with
  | zero => rfl
  | succ m ih => simp [afterPulls, ih]

@[simp] theorem afterPulls_dmemHoles (m : Nat) (s : State) : (afterPulls m s).dmemHoles = s.dmemHoles := by
  induction m with
  | zero => rfl
  | succ m ih => simp [afterPulls, ih]

@[simp] theorem afterPulls_pending (m : Nat) (s : State) : (afterPulls m s).pending = s.pending := by
  induction m with
  | zero => rfl
  | succ m ih => simp [afterPulls, ih]

@[simp] theorem afterPulls_reply (m : Nat) (s : State) : (afterPulls m s).reply = s.reply := by
  induction m with
  | zero => rfl
  | succ m ih => simp [afterPulls, ih]

theorem afterPulls_succ (m : Nat) (s : State) : afterPulls (m + 1) s = afterPulls m (nextKsByte s).2 := by
  induction m with
  | zero => rfl
  | succ m ih => rw [afterPulls, ih]; rfl

theorem afterPulls_add (m n : Nat) (s : State) : afterPulls (m + n) s = afterPulls n (afterPulls m s) := by
  induction n with
  | zero => rfl
  | succ n ih => rw [← Nat.add_assoc, afterPulls, ih]; rfl

theorem pulledByte_add (m n : Nat) (s : State) : pulledByte s (m + n) = pulledByte (afterPulls m s) n := by
  simp only [pulledByte, afterPulls_add]

/-- Pulls leave the words of `S` that are no counter words alone (R23). -/
theorem afterPulls_word (m : Nat) (s : State) {i : Nat} (hi : i < 16) (h8 : i ≠ 8) (h9 : i ≠ 9) :
    (afterPulls m s).S[i] = s.S[i] := by
  induction m with
  | zero => rfl
  | succ m ih =>
    rw [← ih]
    simp only [afterPulls, nextKsByte_S]
    unfold refill
    split
    · exact counterIncrement_other _ hi h8 h9
    · rfl

/-- Memory, the count and the result play no part in a pull. -/
theorem nextKsByte_frame (s : State) (m : Memory) (n : Word) :
    nextKsByte { s with dmem := m, XCNT := n } =
      ((nextKsByte s).1, { (nextKsByte s).2 with dmem := m, XCNT := n }) := by
  simp only [nextKsByte, refill]
  split <;> rfl

/-- The little-endian number of `n` pulled bytes, the first at byte position `j` (R163, R164). -/
def drawn (s : State) : Nat → Nat → BitVec 64
  | 0, _ => 0
  | n + 1, j => drawn s n j + ((pulledByte s n).setWidth 64 <<< (8 * (j + n)))

theorem drawn_succ (s : State) (n j : Nat) :
    drawn s (n + 1) j = ((nextKsByte s).1.setWidth 64 <<< (8 * j)) + drawn (nextKsByte s).2 n (j + 1) := by
  induction n with
  | zero => simp [drawn, pulledByte, afterPulls]
  | succ n ih =>
    have h : pulledByte s (n + 1) = pulledByte (nextKsByte s).2 n := by simp only [pulledByte, afterPulls_succ]
    rw [drawn, ih, drawn, h, BitVec.add_assoc, show j + 1 + n = j + (n + 1) by omega]

/-- The loop of `NEXTINT` is `n` pulls (R163). -/
theorem drawBytes_eq (n j : Nat) (r : BitVec 64) (s : State) :
    drawBytes n j r s = (r + drawn s n j, afterPulls n s) := by
  induction n generalizing j r s with
  | zero => simp [drawBytes, drawn, afterPulls]
  | succ n ih => simp only [drawBytes, ih, drawn_succ, afterPulls_succ, BitVec.add_assoc]

/-- Memory after `i` bytes of an `XOR` that met no fault (R157). -/
def xorMem (s : State) : Nat → Memory
  | 0 => s.dmem
  | i + 1 =>
    (xorMem s i).write (xorDst s i).toNat ((xorMem s i).read (xorSrc s i).toNat ^^^ pulledByte s i)

/-- The state of an `XOR` after `p` pulls and `i` bytes written (R157, R161). -/
def xorState (s : State) (p i : Nat) : State :=
  { afterPulls p s with dmem := xorMem s i, XCNT := BitVec.ofNat 32 i }

/-- One pass: all it can do (R157, R161). -/
theorem xorByte_eq (s : State) (i : Nat) :
    xorByte i (xorState s i i) =
      if s.dmemOk (xorSrc s i) = false then .error (xorState s i i)
      else if s.dmemOk (xorDst s i) = false then .error (xorState s (i + 1) i)
      else .ok (xorState s (i + 1) (i + 1)) := by
  have hok : ∀ p q a, (xorState s p q).dmemOk a = s.dmemOk a := fun p q a => by simp [State.dmemOk, xorState]
  have hsrc : xorSrc (xorState s i i) i = xorSrc s i := by simp [xorSrc, xorState]
  have hnext : nextKsByte (xorState s i i) = (pulledByte s i, xorState s (i + 1) i) :=
    nextKsByte_frame (afterPulls i s) (xorMem s i) (BitVec.ofNat 32 i)
  have hdst : xorDst (xorState s (i + 1) i) i = xorDst s i := by simp [xorDst, xorState]
  simp only [xorByte, hsrc, hnext, hdst]
  by_cases h1 : s.dmemOk (xorSrc s i) = false
  · rw [memRead_of_hole ((hok _ _ _).trans h1), if_pos h1]
  · have hr := memRead_of_ok ((hok i i _).trans (by simpa using h1))
    simp only [hr, if_neg h1]
    by_cases h2 : s.dmemOk (xorDst s i) = false
    · rw [memWrite_of_hole ((hok _ _ _).trans h2), if_pos h2]
    · rw [memWrite_of_ok ((hok _ _ _).trans (by simpa using h2)), if_neg h2]
      rfl

/-- The loop from byte `i` on when every access is admitted (R157). -/
theorem xorLoop_ok (s : State) (n i : Nat)
    (h : ∀ j, i ≤ j → j < i + n → s.dmemOk (xorSrc s j) = true ∧ s.dmemOk (xorDst s j) = true) :
    xorLoop n i (xorState s i i) = .ok (xorState s (i + n) (i + n)) := by
  induction n generalizing i with
  | zero => rfl
  | succ n ih =>
    obtain ⟨h1, h2⟩ := h i (Nat.le_refl _) (by omega)
    rw [xorLoop, xorByte_eq, if_neg (by simp [h1]), if_neg (by simp [h2])]
    show xorLoop n (i + 1) (xorState s (i + 1) (i + 1)) = _
    rw [ih (i + 1) fun j hj hjn => h j (by omega) (by omega), show i + 1 + n = i + (n + 1) by omega]

/-- The loop that meets its first access not admitted at byte `k`: the read is tried before the pull, the write after
it (R161, R200). -/
theorem xorLoop_fault (s : State) (n i k : Nat) (hik : i ≤ k) (hk : k < i + n)
    (h : ∀ j, i ≤ j → j < k → s.dmemOk (xorSrc s j) = true ∧ s.dmemOk (xorDst s j) = true)
    (hf : s.dmemOk (xorSrc s k) = false ∨ s.dmemOk (xorDst s k) = false) :
    xorLoop n i (xorState s i i) =
      .error (if s.dmemOk (xorSrc s k) = false then xorState s k k else xorState s (k + 1) k) := by
  induction n generalizing i with
  | zero => omega
  | succ n ih =>
    rw [xorLoop, xorByte_eq]
    by_cases hi : i = k
    · subst hi
      by_cases h1 : s.dmemOk (xorSrc s i) = false
      · simp [h1]
      · have h2 : s.dmemOk (xorDst s i) = false := hf.resolve_left h1
        simp [h1, h2]
    · obtain ⟨h1, h2⟩ := h i (Nat.le_refl _) (by omega)
      rw [if_neg (by simp [h1]), if_neg (by simp [h2])]
      exact ih (i + 1) (by omega) (by omega) fun j hj hjk => h j (by omega) hjk

/-- Where the loop of `XOR` can end: after all its bytes, or at the first byte with an access not admitted. -/
theorem xorLoop_cases (s : State) (n : Nat) :
    ((∀ j < n, s.dmemOk (xorSrc s j) = true ∧ s.dmemOk (xorDst s j) = true) ∧
      xorLoop n 0 { s with XCNT := 0 } = .ok (xorState s n n)) ∨
    ∃ k < n, (∀ j < k, s.dmemOk (xorSrc s j) = true ∧ s.dmemOk (xorDst s j) = true) ∧
      ((s.dmemOk (xorSrc s k) = false ∧ xorLoop n 0 { s with XCNT := 0 } = .error (xorState s k k)) ∨
       (s.dmemOk (xorSrc s k) = true ∧ s.dmemOk (xorDst s k) = false ∧
         xorLoop n 0 { s with XCNT := 0 } = .error (xorState s (k + 1) k))) := by
  have h0 : ({ s with XCNT := 0 } : State) = xorState s 0 0 := rfl
  by_cases hall : ∀ j < n, s.dmemOk (xorSrc s j) = true ∧ s.dmemOk (xorDst s j) = true
  · refine .inl ⟨hall, ?_⟩
    rw [h0, xorLoop_ok s n 0 fun j _ hj => hall j (by omega), Nat.zero_add]
  · right
    have hex : ∃ j, j < n ∧ ¬(s.dmemOk (xorSrc s j) = true ∧ s.dmemOk (xorDst s j) = true) := by
      by_contra hne
      exact hall fun j hj => by_contra fun hc => hne ⟨j, hj, hc⟩
    obtain ⟨hk, hbad⟩ := Nat.find_spec hex
    have hmin : ∀ j < Nat.find hex, s.dmemOk (xorSrc s j) = true ∧ s.dmemOk (xorDst s j) = true := fun j hj =>
      by_contra fun hc => Nat.find_min hex hj ⟨by omega, hc⟩
    refine ⟨Nat.find hex, hk, hmin, ?_⟩
    by_cases h1 : s.dmemOk (xorSrc s (Nat.find hex)) = false
    · refine .inl ⟨h1, ?_⟩
      rw [h0, xorLoop_fault s n 0 _ (by omega) (by omega) (fun j _ hj => hmin j hj) (.inl h1), if_pos h1]
    · have h1' : s.dmemOk (xorSrc s (Nat.find hex)) = true := by simpa using h1
      have h2 : s.dmemOk (xorDst s (Nat.find hex)) = false := by simpa using fun hc => hbad ⟨h1', hc⟩
      refine .inr ⟨h1', h2, ?_⟩
      rw [h0, xorLoop_fault s n 0 _ (by omega) (by omega) (fun j _ hj => hmin j hj) (.inr h2), if_neg h1]

/-- The length of an `XOR` is below 2^31 (R158). -/
theorem xorLength_lt (s : State) : xorLength s < 2 ^ 31 := by
  unfold xorLength
  have := BitVec.toInt_lt (x := s.LEN)
  omega

theorem xorMem_wf {s : State} (h : Memory.wf s.dmem) (i : Nat) : Memory.wf (xorMem s i) := by
  induction i with
  | zero => exact h
  | succ i ih => exact Memory.write_wf ih (xorDst s i).isLt _

/-- Bytes that none of the first `n` stores reaches read as before. -/
theorem xorMem_other (s : State) (n : Nat) {a : Word} (h : ∀ i < n, a ≠ xorDst s i) :
    (xorMem s n).read a.toNat = s.byteAt a := by
  induction n with
  | zero => rfl
  | succ n ih =>
    rw [xorMem, Memory.read_write_other _ _ fun he => h n (by omega) (BitVec.eq_of_toNat_eq he)]
    exact ih fun i hi => h i (by omega)

/-- The addresses of one `XOR` are pairwise different (R159: a buffer is shorter than the address space). -/
theorem xorDst_inj {s : State} {i j : Nat} (hi : i < 2 ^ 32) (hj : j < 2 ^ 32) (h : xorDst s i = xorDst s j) : i = j := by
  have := congrArg BitVec.toNat h
  simp only [xorDst, BitVec.toNat_add, BitVec.toNat_ofNat] at this
  omega

/-- The byte stored by pass `i` stands until the end. -/
theorem xorMem_stored {s : State} (h : Memory.wf s.dmem) {n i : Nat} (hi : i < n) (hn : n ≤ 2 ^ 32) :
    (xorMem s n).read (xorDst s i).toNat = (xorMem s i).read (xorSrc s i).toNat ^^^ pulledByte s i := by
  induction n with
  | zero => omega
  | succ n ih =>
    by_cases hin : i = n
    · subst hin; exact Memory.read_write_same (xorMem_wf h i) _ _
    · rw [xorMem, Memory.read_write_other _ _ fun he =>
        hin (xorDst_inj (s := s) (by omega) (by omega) (BitVec.eq_of_toNat_eq he))]
      exact ih (by omega) (by omega)

end Sys2Proof.Machine
end

