-- ==== Sys2Proof/Laws/Decode.lean ====
section
/-! SUPPORT. Sys2Proof/Laws/Decode.lean: the fields of a word as numbers, the coding of the rounds variant, and what
each format accepts (R71 to R79). -/

namespace Sys2Proof

theorem field_lt (w : Word) (hi lo : Nat) : field w hi lo < 2 ^ (hi - lo + 1) := Nat.mod_lt _ (Nat.two_pow_pos _)

theorem field_ofNat (n hi lo : Nat) (h : n < 2 ^ 32) :
    field (BitVec.ofNat 32 n) hi lo = n / 2 ^ lo % 2 ^ (hi - lo + 1) := by
  rw [field, BitVec.toNat_ofNat, Nat.mod_eq_of_lt h]

@[simp] theorem Variant.ofCode_code (v : Variant) : Variant.ofCode v.code = some v := by cases v <;> rfl

theorem Variant.code_of_ofCode {n : Nat} {v : Variant} (h : Variant.ofCode n = some v) : v.code = n := by
  match n, h with
  | 0, h => cases h; rfl
  | 1, h => cases h; rfl
  | 2, h => cases h; rfl

theorem Variant.ofCode_eq_none {n : Nat} (h : 2 < n) : Variant.ofCode n = none := by
  match n, h with
  | n + 3, _ => rfl

theorem Variant.code_lt (v : Variant) : v.code < 3 := by cases v <;> decide

theorem decodeZ_ok {w : Word} {i j : Instr} : decodeZ w i = .ok j ↔ field w 23 0 = 0 ∧ j = i := by
  unfold decodeZ
  split
  · next h => exact ⟨fun e => ⟨h, by cases e; rfl⟩, fun ⟨_, e⟩ => by rw [e]⟩
  · next h => exact ⟨nofun, fun ⟨h', _⟩ => absurd h' h⟩

theorem decodeQ_ok {w : Word} {j : Instr} : decodeQ w = .ok j ↔ field w 23 16 = 0 ∧
    distinctIndices (Fin.ofNat 16 (field w 15 12)) (Fin.ofNat 16 (field w 11 8)) (Fin.ofNat 16 (field w 7 4))
      (Fin.ofNat 16 (field w 3 0)) = true ∧
    j = .qr (Fin.ofNat 16 (field w 15 12)) (Fin.ofNat 16 (field w 11 8)) (Fin.ofNat 16 (field w 7 4))
      (Fin.ofNat 16 (field w 3 0)) := by
  unfold decodeQ
  dsimp only
  split
  · next h =>
    split
    · next hd => exact ⟨fun e => ⟨h, hd, by cases e; rfl⟩, fun ⟨_, _, e⟩ => by rw [e]⟩
    · next hd => exact ⟨nofun, fun ⟨_, hd', _⟩ => absurd hd' hd⟩
  · next h => exact ⟨nofun, fun ⟨h', _⟩ => absurd h' h⟩

theorem decodeI_ok {w : Word} {j : Instr} : decodeI w = .ok j ↔ ∃ v, Variant.ofCode (field w 7 0) = some v ∧
    j = .init (BitVec.ofNat 8 (field w 23 16)) (BitVec.ofNat 8 (field w 15 8)) v := by
  unfold decodeI
  split
  · next v h => exact ⟨fun e => ⟨v, h, by cases e; rfl⟩, fun ⟨u, hu, e⟩ => by rw [e, Option.some.inj (h.symm.trans hu)]⟩
  · next h => exact ⟨nofun, fun ⟨u, hu, _⟩ => by cases h.symm.trans hu⟩

theorem decodeB_ok {w : Word} {j : Instr} :
    decodeB w = .ok j ↔ field w 23 8 = 0 ∧ j = .xorb (BitVec.ofNat 8 (field w 7 0)) := by
  unfold decodeB
  split
  · next h => exact ⟨fun e => ⟨h, by cases e; rfl⟩, fun ⟨_, e⟩ => by rw [e]⟩
  · next h => exact ⟨nofun, fun ⟨h', _⟩ => absurd h' h⟩

theorem decodeW_ok {w : Word} {j : Instr} :
    decodeW w = .ok j ↔ field w 23 2 = 0 ∧ j = .nextint (Fin.ofNat 4 (field w 1 0)) := by
  unfold decodeW
  split
  · next h => exact ⟨fun e => ⟨h, by cases e; rfl⟩, fun ⟨_, e⟩ => by rw [e]⟩
  · next h => exact ⟨nofun, fun ⟨h', _⟩ => absurd h' h⟩

/-! The format each opcode selects (R78). -/

theorem decode_qr {w : Word} (h : field w 31 24 = 0x10) : decode w = decodeQ w := by simp only [decode, h]

theorem decode_colrnd {w : Word} (h : field w 31 24 = 0x11) : decode w = decodeZ w .colrnd := by simp only [decode, h]

theorem decode_rowrnd {w : Word} (h : field w 31 24 = 0x12) : decode w = decodeZ w .rowrnd := by simp only [decode, h]

theorem decode_dblrnd {w : Word} (h : field w 31 24 = 0x13) : decode w = decodeZ w .dblrnd := by simp only [decode, h]

theorem decode_init {w : Word} (h : field w 31 24 = 0x20) : decode w = decodeI w := by simp only [decode, h]

theorem decode_ctrinc {w : Word} (h : field w 31 24 = 0x21) : decode w = decodeZ w .ctrinc := by simp only [decode, h]

theorem decode_genblk {w : Word} (h : field w 31 24 = 0x30) : decode w = decodeZ w .genblk := by simp only [decode, h]

theorem decode_xload {w : Word} (h : field w 31 24 = 0x31) : decode w = decodeZ w .xload := by simp only [decode, h]

theorem decode_xadd {w : Word} (h : field w 31 24 = 0x32) : decode w = decodeZ w .xadd := by simp only [decode, h]

theorem decode_xser {w : Word} (h : field w 31 24 = 0x33) : decode w = decodeZ w .xser := by simp only [decode, h]

theorem decode_xorb {w : Word} (h : field w 31 24 = 0x40) : decode w = decodeB w := by simp only [decode, h]

theorem decode_xor {w : Word} (h : field w 31 24 = 0x41) : decode w = decodeZ w .xor := by simp only [decode, h]

theorem decode_nextint {w : Word} (h : field w 31 24 = 0x42) : decode w = decodeW w := by simp only [decode, h]

theorem decode_reset {w : Word} (h : field w 31 24 = 0x43) : decode w = decodeZ w .reset := by simp only [decode, h]

end Sys2Proof

namespace Sys2Proof.Machine

theorem command_of_ok {w : Word} {i : Instr} (h : decode w = .ok i) (s : State) : command w s = exec i s := by
  simp [command, h]

theorem command_of_error {w : Word} {e : Illegal} (h : decode w = .error e) (s : State) :
    command w s = .next { s with ERR := .illegalCommand } := by simp [command, h, raise]

end Sys2Proof.Machine
end

