-- ==== Sys2Proof/Laws/RegSpace.lean ====
section
/-! SUPPORT. Sys2Proof/Laws/RegSpace.lean: which register an offset names (R36), and what one access can do
(R37, R45). -/

namespace Sys2Proof.Machine

@[simp] theorem regOf_offset (r : Reg) : regOf 4 r.offset = .ok r := by
  cases r with
  | keyw k => revert k; decide
  | noncew k => revert k; decide
  | s i => revert i; decide
  | x i => revert i; decide
  | ksw i => revert i; decide
  | cmd => rfl
  | status => rfl
  | err => rfl
  | xcnt => rfl
  | resultLo => rfl
  | resultHi => rfl
  | src => rfl
  | dst => rfl
  | len => rfl

@[simp] theorem perform_wr (r : Reg) (v : Word) (s : State) :
    perform (wr r v) s = writeReg r v { s with reply := .done } := by simp [perform, wr]

@[simp] theorem perform_rd (r : Reg) (s : State) :
    perform (rd r) s = .next { s with reply := .data (readReg r s) } := by simp [perform, rd]

theorem step_of_cons {s : State} {a : HostAccess} {rest : List HostAccess} (h : s.pending = a :: rest) :
    step s = perform a { s with pending := rest } := by simp [step, h]

theorem step_of_nil {s : State} (h : s.pending = []) : step s = .next s := by simp [step, h]

/-- What one access that gets a step can be: a read, a write that is no command, a command, or the hardware reset. -/
theorem perform_cases {a : HostAccess} {s t : State} (h : perform a s = .next t) :
    (∃ size off r, a = .read size off ∧ regOf size off = .ok r ∧ t = { s with reply := .data (readReg r s) }) ∨
    (∃ size off r v, a = .write size off v ∧ regOf size off = .ok r ∧ r ≠ .cmd ∧
      writeReg r v { s with reply := .done } = .next t) ∨
    (∃ size off w, a = .write size off w ∧ regOf size off = .ok .cmd ∧
      command w { s with reply := .done } = .next t) ∨
    (a = .hardwareReset ∧ t = hardwareReset s) := by
  cases a with
  | read size off =>
    simp only [perform] at h
    split at h
    · next r hr => exact .inl ⟨size, off, r, rfl, hr, by simpa using h.symm⟩
    · cases h
  | write size off v =>
    simp only [perform] at h
    split at h
    · next r hr =>
      by_cases hc : r = .cmd
      · subst hc; exact .inr (.inr (.inl ⟨size, off, v, rfl, hr, h⟩))
      · exact .inr (.inl ⟨size, off, r, v, rfl, hr, hc, h⟩)
    · cases h
  | hardwareReset => exact .inr (.inr (.inr ⟨rfl, by simpa [perform] using h.symm⟩))

/-- What one step can be: no access or a read, a write that is no command, an illegal word, a command, or the hardware
reset (R18, R45, R81, R215). -/
theorem step_cases {s t : State} (h : step s = .next t) :
    (∃ rest answer, t = { s with pending := rest, reply := answer }) ∨
    (∃ size off r v rest, s.pending = .write size off v :: rest ∧ regOf size off = .ok r ∧ r ≠ .cmd ∧
      writeReg r v { s with pending := rest, reply := .done } = .next t) ∨
    (∃ size off w rest, s.pending = .write size off w :: rest ∧ regOf size off = .ok .cmd ∧
      t = { s with pending := rest, reply := .done, ERR := .illegalCommand }) ∨
    (∃ size off w rest i, s.pending = .write size off w :: rest ∧ regOf size off = .ok .cmd ∧ decode w = .ok i ∧
      exec i { s with pending := rest, reply := .done } = .next t) ∨
    (∃ rest, s.pending = .hardwareReset :: rest ∧ t = hardwareReset { s with pending := rest }) := by
  cases hp : s.pending with
  | nil => rw [step_of_nil hp] at h; cases h; exact .inl ⟨s.pending, s.reply, rfl⟩
  | cons a rest =>
    rw [step_of_cons hp] at h
    rcases perform_cases h with ⟨_, _, r, _, _, rfl⟩ | ⟨size, off, r, v, rfl, hr, hc, hw⟩ | ⟨size, off, w, rfl, hr, hw⟩ |
      ⟨rfl, ht⟩
    · exact .inl ⟨rest, _, rfl⟩
    · exact .inr (.inl ⟨size, off, r, v, rest, rfl, hr, hc, hw⟩)
    · cases hd : decode w with
      | error e =>
        rw [command_of_error hd] at hw
        exact .inr (.inr (.inl ⟨size, off, w, rest, rfl, hr, by cases hw; rfl⟩))
      | ok i =>
        rw [command_of_ok hd] at hw
        exact .inr (.inr (.inr (.inl ⟨size, off, w, rest, i, rfl, hr, hd, hw⟩)))
    · exact .inr (.inr (.inr (.inr ⟨rest, rfl, ht⟩)))

end Sys2Proof.Machine
end

