-- ==== Sys2Proof/Laws/Exec.lean ====
section
/-! SUPPORT. Sys2Proof/Laws/Exec.lean: what each keyed command does, in terms of pulls, and all that an `XOR` can do
(R152 to R163). -/

namespace Sys2Proof.Machine

theorem exec_xorb {s : State} (h : s.KEYED = true) (b : Byte) : exec (.xorb b) s =
    .next { (nextKsByte s).2 with RESULT := (b ^^^ (nextKsByte s).1).setWidth 64, ERR := .ok } := by
  show execXorb b s = _
  rw [execXorb, whenKeyed_of_keyed h]
  rfl

theorem exec_nextint {s : State} (h : s.KEYED = true) (w : Fin 4) : exec (.nextint w) s =
    .next { afterPulls (2 ^ w.val) s with RESULT := drawn s (2 ^ w.val) 0, ERR := .ok } := by
  show execNextint w s = _
  rw [execNextint, whenKeyed_of_keyed h]
  simp only [drawBytes_eq, drawWidth, finish]
  simp

theorem exec_xor_ok {s : State} (h : s.KEYED = true)
    (hok : ∀ j < xorLength s, s.dmemOk (xorSrc s j) = true ∧ s.dmemOk (xorDst s j) = true) :
    exec .xor s = .next { xorState s (xorLength s) (xorLength s) with ERR := .ok } := by
  show execXor s = _
  rw [execXor, whenKeyed_of_keyed h]
  have h0 : ({ s with XCNT := 0 } : State) = xorState s 0 0 := rfl
  rw [h0, xorLoop_ok s _ 0 fun j _ hj => hok j (by omega), Nat.zero_add]
  rfl

/-- An `XOR` that meets an access not admitted at byte `k` (R161). -/
theorem exec_xor_fault {s : State} (h : s.KEYED = true) {k : Nat} (hk : k < xorLength s)
    (hok : ∀ j < k, s.dmemOk (xorSrc s j) = true ∧ s.dmemOk (xorDst s j) = true)
    (hf : s.dmemOk (xorSrc s k) = false ∨ s.dmemOk (xorDst s k) = false) :
    exec .xor s = .next { (if s.dmemOk (xorSrc s k) = false then xorState s k k else xorState s (k + 1) k) with
      ERR := .busFault } := by
  show execXor s = _
  rw [execXor, whenKeyed_of_keyed h]
  have h0 : ({ s with XCNT := 0 } : State) = xorState s 0 0 := rfl
  rw [h0, xorLoop_fault s _ 0 k (by omega) (by omega) (fun j _ hj => hok j hj) hf]
  rfl

/-- All that an `XOR` on a keyed block can end in (R157, R161). -/
theorem exec_xor_cases {s t : State} (hkey : s.KEYED = true) (h : exec .xor s = .next t) :
    ((∀ j < xorLength s, s.dmemOk (xorSrc s j) = true ∧ s.dmemOk (xorDst s j) = true) ∧
      t = { xorState s (xorLength s) (xorLength s) with ERR := .ok }) ∨
    ∃ k < xorLength s, (∀ j < k, s.dmemOk (xorSrc s j) = true ∧ s.dmemOk (xorDst s j) = true) ∧
      ((s.dmemOk (xorSrc s k) = false ∧ t = { xorState s k k with ERR := .busFault }) ∨
       (s.dmemOk (xorSrc s k) = true ∧ s.dmemOk (xorDst s k) = false ∧
         t = { xorState s (k + 1) k with ERR := .busFault })) := by
  rcases xorLoop_cases s (xorLength s) with ⟨hall, -⟩ | ⟨k, hk, hok, hf⟩
  · rw [exec_xor_ok hkey hall] at h
    exact .inl ⟨hall, by simpa using h.symm⟩
  · refine .inr ⟨k, hk, hok, ?_⟩
    rcases hf with ⟨h1, -⟩ | ⟨h1, h2, -⟩
    · rw [exec_xor_fault hkey hk hok (.inl h1), if_pos h1] at h
      exact .inl ⟨h1, by simpa using h.symm⟩
    · rw [exec_xor_fault hkey hk hok (.inr h2), if_neg (by simp [h1])] at h
      exact .inr ⟨h1, h2, by simpa using h.symm⟩

theorem exec_ctrinc {s : State} (h : s.KEYED = true) :
    exec .ctrinc s = .next { s with S := counterIncrement s.S, ERR := .ok } := whenKeyed_of_keyed h _

theorem exec_genblk {s : State} (h : s.KEYED = true) : exec .genblk s = .next { generateBlock s with ERR := .ok } :=
  whenKeyed_of_keyed h _

theorem exec_xload {s : State} (h : s.KEYED = true) : exec .xload s = .next { s with X := s.S, ERR := .ok } :=
  whenKeyed_of_keyed h _

theorem exec_xadd {s : State} (h : s.KEYED = true) :
    exec .xadd s = .next { s with X := feedForward s.X s.S, ERR := .ok } := whenKeyed_of_keyed h _

theorem exec_reset {s : State} (h : s.KEYED = true) :
    exec .reset s = .next { s with S := atBlock s.S 0, CUR := 0, ERR := .ok } := whenKeyed_of_keyed h _

/-- A command that needs a CipherState, and the ones that do not (R80). -/
def needsKeyed : Instr → Bool
  | .qr _ _ _ _ => false
  | .colrnd => false
  | .rowrnd => false
  | .dblrnd => false
  | .init _ _ _ => false
  | .xser => false
  | .ctrinc => true
  | .genblk => true
  | .xload => true
  | .xadd => true
  | .xorb _ => true
  | .xor => true
  | .nextint _ => true
  | .reset => true

theorem exec_not_keyed {i : Instr} {s : State} (hn : needsKeyed i = true) (h : s.KEYED = false) :
    exec i s = .next { s with ERR := .notKeyed } := by
  cases i with
  | ctrinc => exact whenKeyed_of_not_keyed h _
  | genblk => exact whenKeyed_of_not_keyed h _
  | xload => exact whenKeyed_of_not_keyed h _
  | xadd => exact whenKeyed_of_not_keyed h _
  | xorb b => exact whenKeyed_of_not_keyed h _
  | xor => exact whenKeyed_of_not_keyed h _
  | nextint w => exact whenKeyed_of_not_keyed h _
  | reset => exact whenKeyed_of_not_keyed h _
  | qr a b c d => cases hn
  | colrnd => cases hn
  | rowrnd => cases hn
  | dblrnd => cases hn
  | init k n r => cases hn
  | xser => cases hn

end Sys2Proof.Machine
end

