-- ==== Sys2Proof/Laws/Stream.lean ====
section
/-! SUPPORT. Sys2Proof/Laws/Stream.lean: the words of a cipher state at a block index, and what one pull does to a block
that stands on the standard keystream (R118, R137, R150, R151). -/

namespace Sys2Proof.Machine

theorem doubleRounds_eq_iterate (n : Nat) (x : WordFile) : doubleRounds n x = doubleRound^[n] x := by
  induction n generalizing x with
  | zero => rfl
  | succ n ih => rw [doubleRounds, ih]; rfl

theorem atBlock_low (sw : WordFile) (n : Nat) : (atBlock sw n)[8] = BitVec.ofNat 32 n := by simp [atBlock]

theorem atBlock_high (sw : WordFile) (n : Nat) : (atBlock sw n)[9] = BitVec.ofNat 32 (n / 2 ^ 32) := by simp [atBlock]

theorem atBlock_other (sw : WordFile) (n : Nat) {i : Nat} (hi : i < 16) (h8 : i ≠ 8) (h9 : i ≠ 9) :
    (atBlock sw n)[i] = sw[i] := by simp [atBlock, Ne.symm h8, Ne.symm h9]

theorem atBlock_atBlock (sw : WordFile) (m n : Nat) : atBlock (atBlock sw m) n = atBlock sw n := by
  refine Vector.ext fun i hi => ?_
  by_cases h8 : i = 8
  · subst h8; rw [atBlock_low, atBlock_low]
  by_cases h9 : i = 9
  · subst h9; rw [atBlock_high, atBlock_high]
  · rw [atBlock_other _ _ hi h8 h9, atBlock_other _ _ hi h8 h9, atBlock_other _ _ hi h8 h9]

/-- A cipher state stands at the block index its own counter words hold (R29). -/
theorem atBlock_counter (sw : WordFile) : atBlock sw (counter sw).toNat = sw := by
  have h8 := sw[8].isLt
  have h9 := sw[9].isLt
  refine Vector.ext fun i hi => ?_
  by_cases h : i = 8
  · subst h
    rw [atBlock_low, counter_toNat]
    exact BitVec.eq_of_toNat_eq (by rw [BitVec.toNat_ofNat]; omega)
  by_cases h' : i = 9
  · subst h'
    rw [atBlock_high, counter_toNat]
    exact BitVec.eq_of_toNat_eq (by rw [BitVec.toNat_ofNat]; omega)
  · exact atBlock_other _ _ hi h h'

/-- The increment takes block index `n` to `n + 1` (R118). -/
theorem counterIncrement_atBlock (sw : WordFile) (n : Nat) : counterIncrement (atBlock sw n) = atBlock sw (n + 1) := by
  refine Vector.ext fun i hi => ?_
  by_cases h8 : i = 8
  · subst h8
    rw [counterIncrement_low, atBlock_low, atBlock_low]
    exact BitVec.eq_of_toNat_eq (by simp)
  by_cases h9 : i = 9
  · subst h9
    rw [counterIncrement_high, atBlock_low, atBlock_high, atBlock_high]
    have e : BitVec.ofNat 32 n + 1 = 0 ↔ (n + 1) % 2 ^ 32 = 0 :=
      ⟨fun h => by simpa using congrArg BitVec.toNat h, fun h => BitVec.eq_of_toNat_eq (by simpa using h)⟩
    by_cases h : (n + 1) % 2 ^ 32 = 0
    · rw [if_pos (e.mpr h)]
      apply BitVec.eq_of_toNat_eq
      rw [BitVec.toNat_add, BitVec.toNat_ofNat, BitVec.toNat_ofNat, show (1 : Word).toNat = 1 from rfl]
      omega
    · rw [if_neg fun x => h (e.mp x)]
      apply BitVec.eq_of_toNat_eq
      rw [BitVec.toNat_ofNat, BitVec.toNat_ofNat]
      omega
  · rw [counterIncrement_other _ hi h8 h9, atBlock_other _ _ hi h8 h9, atBlock_other _ _ hi h8 h9]

/-- The stream position is a matter of five fields only. -/
theorem OnStream.congr {sw : WordFile} {v : Variant} {m : Nat} {s t : State} (h : OnStream sw v m s) (hS : t.S = s.S)
    (hRV : t.RV = s.RV) (hCUR : t.CUR = s.CUR) (hKS : t.KS = s.KS) (hKEYED : t.KEYED = s.KEYED) : OnStream sw v m t :=
  ⟨hKEYED.trans h.keyed, hS.trans h.words, hRV.trans h.variant, hCUR ▸ h.cursor, fun hm => hKS.trans (h.block hm)⟩

/-- A keyed block with the counter and the cursor at 0 stands at byte 0. -/
theorem OnStream.start {s : State} {sw : WordFile} {v : Variant} (hS : s.S = atBlock sw 0) (hRV : s.RV = v)
    (hCUR : s.CUR = 0) (hKEYED : s.KEYED = true) : OnStream sw v 0 s :=
  ⟨hKEYED, hS, hRV, by rw [hCUR]; rfl, fun h => absurd rfl h⟩

/-- The cursor invariant is a matter of four fields only. -/
theorem UnconsumedBytesFit.congr {s t : State} (h : UnconsumedBytesFit s) (hS : t.S = s.S) (hRV : t.RV = s.RV)
    (hCUR : t.CUR = s.CUR) (hKS : t.KS = s.KS) : UnconsumedBytesFit t := by
  unfold UnconsumedBytesFit at *
  rwa [hS, hRV, hCUR, hKS]

theorem UnconsumedBytesFit.of_cursor_zero {t : State} (h : t.CUR = 0) : UnconsumedBytesFit t := fun hc => absurd h hc

theorem OnStream.cursor_zero {sw : WordFile} {v : Variant} {m : Nat} {s : State} (h : OnStream sw v m s) :
    s.CUR = 0 ↔ m % 64 = 0 := by
  rw [← h.cursor]
  exact ⟨fun e => by rw [e]; rfl, fun e => Fin.ext e⟩

end Sys2Proof.Machine
end

