-- ==== Sys2Proof/Laws/Adapter.lean ====
section
/-! SUPPORT. Sys2Proof/Laws/Adapter.lean: what the parts of the streaming adapter do: the host's stores into `inbuf`, the
`XOR` sequence it issues, the block it loads, and the loop of `read` (R178, R181). -/

namespace Sys2Proof.Machine

/-- Stores leave every other byte alone. -/
theorem storeBytes_other (bs : List Byte) (a : Word) (m : Memory) (b : Word)
    (h : ∀ i < bs.length, b ≠ a + BitVec.ofNat 32 i) : (storeBytes bs a m).read b.toNat = m.read b.toNat := by
  induction bs generalizing a m with
  | nil => rfl
  | cons x bs ih =>
    rw [storeBytes, ih]
    · exact Memory.read_write_other _ _ fun e => h 0 (by simp) (by simpa using BitVec.eq_of_toNat_eq e)
    · intro i hi e
      refine h (i + 1) (by simp; omega) ?_
      rw [e, BitVec.add_assoc]
      congr 1
      apply BitVec.eq_of_toNat_eq
      simp [Nat.add_comm]

theorem storeBytes_wf (bs : List Byte) (a : Word) {m : Memory} (h : Memory.wf m) : Memory.wf (storeBytes bs a m) := by
  induction bs generalizing a m with
  | nil => exact h
  | cons x bs ih => exact ih _ (Memory.write_wf h a.isLt _)

/-- A stored byte reads back. -/
theorem storeBytes_at (bs : List Byte) (a : Word) {m : Memory} (hw : Memory.wf m) (hl : bs.length < 2 ^ 32) {i : Nat}
    (h : i < bs.length) : (storeBytes bs a m).read (a + BitVec.ofNat 32 i).toNat = bs[i] := by
  induction bs generalizing a m i with
  | nil => simp at h
  | cons x bs ih =>
    rw [storeBytes]
    cases i with
    | zero =>
      rw [storeBytes_other]
      · simpa using Memory.read_write_same hw a.toNat x
      · intro j hj e
        have := congrArg BitVec.toNat e
        simp at this hl
        have e2 : (1 : Word).toNat = 1 := rfl
        have := a.isLt
        omega
    | succ i =>
      have := ih (a + 1) (Memory.write_wf hw a.isLt x) (by simp at hl; omega) (by simpa using h)
      rw [List.getElem_cons_succ, ← this]
      congr 2
      rw [BitVec.add_assoc]
      congr 1
      apply BitVec.eq_of_toNat_eq
      simp [Nat.add_comm]

/-- The accesses of R181: the three registers, the `XOR`, and the read of `ERR`. -/
theorem drive_xorBuffer {s t : State} {a b l : Word}
    (h : exec .xor { s with SRC := a, DST := b, LEN := l, reply := .done } = .next t) :
    drive ((Pseudo.xorBuffer a b l).expand ++ [rd .err]) s = { t with reply := .data (errWord t.ERR) } := by
  have e : performAll ((Pseudo.xorBuffer a b l).expand ++ [rd .err]) s =
      .next { t with reply := .data (errWord t.ERR) } := by
    show performAll [wr .src a, wr .dst b, wr .len l, issue .xor, rd .err] s = _
    simp only [performAll, perform_wr, issue, writeReg]
    rw [command_of_ok (show decode (encode .xor) = .ok .xor by decide), h]
    simp only [perform_rd, readReg]
  rw [drive, e]

/-- The block as `Adapter.load` runs its `XOR`: the bytes in `inbuf`, the operands written. -/
def Adapter.loading {σ : Type} (a : Adapter σ) (bs : List Byte) : State :=
  { a.core with
    dmem := storeBytes bs a.inAddr a.core.dmem
    SRC := a.inAddr
    DST := a.outAddr
    LEN := BitVec.ofNat 32 bs.length
    reply := .done }

theorem loading_xorLength {σ : Type} (a : Adapter σ) {bs : List Byte} (h : bs.length ≤ 64) :
    xorLength (a.loading bs) = bs.length := by
  have e : (BitVec.ofNat 32 bs.length).toInt = bs.length := by
    rw [BitVec.toInt_eq_toNat_cond, BitVec.toNat_ofNat, Nat.mod_eq_of_lt (by omega), if_pos (by omega)]
  show (BitVec.ofNat 32 bs.length).toInt.toNat = _
  rw [e]
  rfl

/-- All that a load does when its accesses are admitted: the block is that of an `XOR` of the bytes pulled. -/
theorem load_eq {σ : Type} (a : Adapter σ) {bs : List Byte} (rest : σ) (hkey : a.core.KEYED = true) (hl : bs.length ≤ 64)
    (hok : ∀ i < bs.length, a.core.dmemOk (a.inAddr + BitVec.ofNat 32 i) = true ∧
      a.core.dmemOk (a.outAddr + BitVec.ofNat 32 i) = true) :
    a.load bs rest =
      { core := { xorState (a.loading bs) bs.length bs.length with ERR := .ok, reply := .data (errWord .ok) }
        inAddr := a.inAddr
        outAddr := a.outAddr
        count := bs.length
        offset := 0
        eos := a.eos || decide (bs.length < 64)
        source := rest } := by
  have hx := exec_xor_ok (s := a.loading bs) hkey (by rw [loading_xorLength a hl]; exact hok)
  rw [loading_xorLength a hl] at hx
  unfold Adapter.load
  dsimp only
  rw [drive_xorBuffer hx]

@[simp] theorem load_count {σ : Type} (a : Adapter σ) (bs : List Byte) (rest : σ) :
    (a.load bs rest).count = bs.length := rfl

@[simp] theorem load_offset {σ : Type} (a : Adapter σ) (bs : List Byte) (rest : σ) : (a.load bs rest).offset = 0 := rfl

@[simp] theorem load_eos {σ : Type} (a : Adapter σ) (bs : List Byte) (rest : σ) :
    (a.load bs rest).eos = (a.eos || decide (bs.length < 64)) := rfl

@[simp] theorem load_source {σ : Type} (a : Adapter σ) (bs : List Byte) (rest : σ) :
    (a.load bs rest).source = rest := rfl

@[simp] theorem decoded_length {σ : Type} (a : Adapter σ) (m : Nat) : (a.decoded m).length = m := by
  simp [Adapter.decoded]

theorem decoded_add {σ : Type} (a : Adapter σ) (m n : Nat) :
    a.decoded (m + n) = a.decoded m ++ Adapter.decoded { a with offset := a.offset + m } n := by
  simp [Adapter.decoded, List.range_add, Nat.add_assoc]

/-- Passes beyond the bytes asked for change nothing: each pass that goes on copies a byte. -/
theorem readLoop_fuel {σ : Type} (ask : σ → Pull × σ) {f g r : Nat} (out : List Byte) (a : Adapter σ) (hf : r ≤ f)
    (hg : r ≤ g) : Adapter.readLoop ask f r out a = Adapter.readLoop ask g r out a := by
  induction f generalizing g r out a with
  | zero =>
    obtain rfl : r = 0 := by omega
    cases g with
    | zero => rfl
    | succ g => rw [Adapter.readLoop, Adapter.readLoop, if_pos rfl]
  | succ f ih =>
    cases g with
    | zero =>
      obtain rfl : r = 0 := by omega
      rw [Adapter.readLoop, Adapter.readLoop, if_pos rfl]
    | succ g =>
      simp only [Adapter.readLoop]
      split; rfl
      split
      · exact ih _ _ (by omega) (by omega)
      split; rfl
      match a.pull ask with
      | (.failure, rest) => rfl
      | (.bytes bs, rest) =>
        dsimp only
        split; rfl
        · have := load_count a bs rest
          exact ih _ _ (by omega) (by omega)

end Sys2Proof.Machine
end

