-- ==== Sys2Proof/Laws/PerInstr.lean ====
section
/-! SUPPORT. Sys2Proof/Laws/PerInstr.lean: the family `MatchMask`: the word of every command is a candidate of its own
row of R78. -/

namespace Sys2Proof.Laws.MatchMask

/-- `(w & mask) == match` (R78). -/
def Statement (i : Instr) : Prop := encode i &&& i.maskWord = i.matchWord

/-- A mask of the high bits removes an operand below them. -/
theorem high_mask {n m k : Nat} (hk : k ≤ 32) (hm : m < 2 ^ k) :
    BitVec.ofNat 32 (n * 2 ^ k + m) &&& BitVec.ofNat 32 ((2 ^ (32 - k) - 1) * 2 ^ k) = BitVec.ofNat 32 (n * 2 ^ k) := by
  apply BitVec.eq_of_getLsbD_eq
  intro j hj
  have h1 : (n * 2 ^ k + m).testBit j = if j < k then m.testBit j else n.testBit (j - k) := by
    rw [Nat.mul_comm]; exact Nat.testBit_two_pow_mul_add n hm j
  have h2 : (n * 2 ^ k).testBit j = if j < k then false else n.testBit (j - k) := by
    have := Nat.testBit_two_pow_mul_add n (Nat.two_pow_pos k) j
    rw [Nat.mul_comm, Nat.add_zero, Nat.zero_testBit] at this
    exact this
  have h3 : ((2 ^ (32 - k) - 1) * 2 ^ k).testBit j = if j < k then false else decide (j - k < 32 - k) := by
    have := Nat.testBit_two_pow_mul_add (2 ^ (32 - k) - 1) (Nat.two_pow_pos k) j
    rw [Nat.mul_comm, Nat.add_zero, Nat.zero_testBit, Nat.testBit_two_pow_sub_one] at this
    exact this
  simp only [BitVec.getLsbD_and, BitVec.getLsbD_ofNat, h1, h2, h3]
  by_cases hjk : j < k
  · simp [hjk]
  · have : j - k < 32 - k := by omega
    simp [hjk, this, hj]

/-- The form of the statement that `high_mask` closes. -/
theorem of_high_mask {i : Instr} (n k : Nat) (hk : k ≤ 32) (ho : i.opcode * 2 ^ 24 = n * 2 ^ k)
    (hm : i.operandBits < 2 ^ k) (hmask : i.maskWord = BitVec.ofNat 32 ((2 ^ (32 - k) - 1) * 2 ^ k)) : Statement i := by
  rw [Statement, encode, Instr.matchWord, ho, hmask]
  exact high_mask hk hm

theorem qr (a b c d : Fin 16) : Statement (.qr a b c d) := by
  refine of_high_mask 0x1000 16 (by decide) (by dsimp only [Instr.opcode]; decide) ?_ (by dsimp only [Instr.maskWord]; decide)
  have := a.isLt; have := b.isLt; have := c.isLt; have := d.isLt
  simp only [Instr.operandBits]
  omega

theorem colrnd : Statement .colrnd := by unfold Statement; decide

theorem rowrnd : Statement .rowrnd := by unfold Statement; decide

theorem dblrnd : Statement .dblrnd := by unfold Statement; decide

theorem init (klen nlen : Byte) (rounds : Variant) : Statement (.init klen nlen rounds) := by
  refine of_high_mask 0x20 24 (by decide) (by dsimp only [Instr.opcode]) ?_ (by dsimp only [Instr.maskWord]; decide)
  have := klen.isLt; have := nlen.isLt; have := rounds.code_lt
  simp only [Instr.operandBits]
  omega

theorem ctrinc : Statement .ctrinc := by unfold Statement; decide

theorem genblk : Statement .genblk := by unfold Statement; decide

theorem xload : Statement .xload := by unfold Statement; decide

theorem xadd : Statement .xadd := by unfold Statement; decide

theorem xser : Statement .xser := by unfold Statement; decide

theorem xorb (imm8 : Byte) : Statement (.xorb imm8) := by
  refine of_high_mask 0x400000 8 (by decide) (by dsimp only [Instr.opcode]; decide) ?_ (by dsimp only [Instr.maskWord]; decide)
  simpa only [Instr.operandBits] using imm8.isLt

theorem xor : Statement .xor := by unfold Statement; decide

theorem nextint (wsel : Fin 4) : Statement (.nextint wsel) := by unfold Statement; revert wsel; decide

theorem reset : Statement .reset := by unfold Statement; decide

end Sys2Proof.Laws.MatchMask
end

