-- ==== Sys2Proof/Tests/Slice0.lean ====
section
/-! SUPPORT. Sys2Proof/Tests/Slice0.lean: the smoke test of WellFormed, the words of every constructor, one-step tests of
every command, and for each statement a state that meets its hypotheses. Expected values are those of
spec/95_test_vectors.md (V-…) and of the examples in the rules. -/

namespace Sys2Proof.Tests

open Sys2Proof Sys2Proof.Machine Sys2Proof.Statements

/-! ## WellFormed: the one check, by each pair of equal indices (R79 item 3) -/

theorem test_wf_accepts_distinct : (Instr.qr 15 0 7 8).wf = true ∧ (Instr.qr 0 1 2 3).wf = true := by decide

theorem test_wf_refuses_a_eq_b : (Instr.qr 3 3 1 2).wf = false := by decide

theorem test_wf_refuses_a_eq_c : (Instr.qr 3 1 3 2).wf = false := by decide

theorem test_wf_refuses_a_eq_d : (Instr.qr 3 1 2 3).wf = false := by decide

theorem test_wf_refuses_b_eq_c : (Instr.qr 0 15 15 2).wf = false := by decide

theorem test_wf_refuses_b_eq_d : (Instr.qr 0 15 2 15).wf = false := by decide

theorem test_wf_refuses_c_eq_d : (Instr.qr 0 1 7 7).wf = false := by decide

theorem test_wf_others :
    [Instr.colrnd, .rowrnd, .dblrnd, .init 24 7 .salsa8, .ctrinc, .genblk, .xload, .xadd, .xser, .xorb 0xFF, .xor,
      .nextint 3, .reset].all Instr.wf = true := by decide

/-! ## The words of every constructor, written out from R71 to R78 -/

/-- `OPC` 0x10, A = 15, B = 0, C = 7, D = 8. -/
theorem test_decode_qr : decode 0b00010000_00000000_1111_0000_0111_1000 = .ok (.qr 15 0 7 8) := by decide

theorem test_decode_colrnd : decode 0b00010001_00000000_00000000_00000000 = .ok .colrnd := by decide

theorem test_decode_rowrnd : decode 0b00010010_00000000_00000000_00000000 = .ok .rowrnd := by decide

theorem test_decode_dblrnd : decode 0b00010011_00000000_00000000_00000000 = .ok .dblrnd := by decide

/-- `KLEN` 24, `NLEN` 9, `RVSEL` 2. -/
theorem test_decode_init : decode 0b00100000_00011000_00001001_00000010 = .ok (.init 24 9 .salsa8) := by decide

theorem test_decode_ctrinc : decode 0b00100001_00000000_00000000_00000000 = .ok .ctrinc := by decide

theorem test_decode_genblk : decode 0b00110000_00000000_00000000_00000000 = .ok .genblk := by decide

theorem test_decode_xload : decode 0b00110001_00000000_00000000_00000000 = .ok .xload := by decide

theorem test_decode_xadd : decode 0b00110010_00000000_00000000_00000000 = .ok .xadd := by decide

theorem test_decode_xser : decode 0b00110011_00000000_00000000_00000000 = .ok .xser := by decide

/-- `IMM8` 0xA4. -/
theorem test_decode_xorb : decode 0b01000000_00000000_00000000_10100100 = .ok (.xorb 0xA4) := by decide

theorem test_decode_xor : decode 0b01000001_00000000_00000000_00000000 = .ok .xor := by decide

/-- `WSEL` 1. -/
theorem test_decode_nextint : decode 0b01000010_00000000_00000000_00000001 = .ok (.nextint 1) := by decide

theorem test_decode_reset : decode 0b01000011_00000000_00000000_00000000 = .ok .reset := by decide

/-- The illegal words of V-ERR-1, 2, 4 to 7, 12, 13, 25, 28 to 31. -/
theorem test_decode_illegal :
    ([0x00000000, 0xff000000, 0x30000001, 0x10000012, 0x10010123, 0x20200803, 0x40000100, 0x42000004, 0x14000000,
      0x44000000, 0x202008ff, 0x20180903, 0x43800000, 0x10ff0123] : List Word).all
      (fun w => !(decode w).isOk) = true := by decide

/-- The words of every constructor from the table's bits. -/
theorem test_decode_table_word : decodeTableWord 32 0x1000f078 = some (.qr 15 0 7 8) ∧
    decodeTableWord 32 0x41000001 = none := by decide

/-! ## States -/

/-- The state after the word, when the command goes on. -/
def after (w : Word) (s : State) : Option State :=
  match command w s with
  | .next t => some t
  | .fault _ => none
  | .refused _ => none

/-- `S` of V-KS-1. -/
def zeroS : WordFile := #v[0x61707865, 0x0, 0x0, 0x0, 0x0, 0x3320646e, 0x0, 0x0, 0x0, 0x0, 0x79622d32, 0x0, 0x0, 0x0, 0x0, 0x6b206574]

/-- The spec's "fresh core Z20". -/
def keyed : State := { State.reset with S := zeroS, KEYED := true }

/-- `KS` of V-GEN-1. -/
def block0 : Block := Vector.ofFn fun i => (hexBytes 64
  0x9a97f65b9b4c721b960a672145fca8d4e32e67f9111ea979ce9c4826806aeee63de9c0da2bd7f91ebcb2639bf989c6251b29bf38d39a9bdce7c55f4b2ac12a39).getD
    i.val 0

/-- Fresh core Z20 after the pulls that leave `CUR = cur` inside block 0. -/
def inBlock0 (cur : Fin 64) : State := { keyed with S := zeroS.set 8 1, KS := block0, CUR := cur }

/-- The start of V-QR-11. -/
def ramp : State := { State.reset with X := Vector.ofFn fun i => BitVec.ofNat 32 (i.val * 0x01010101) }

/-- The key and nonce of the spec's second example. -/
def countingHost : State :=
  { State.reset with
    KEY := countingKey
    NONCE := #v[0x65, 0x66, 0x67, 0x68, 0x69, 0x6A, 0x6B, 0x6C] }

/-! ## One step of each command -/

/-- V-QR-11: the four operands are in no round's group, and each lands in its own word. -/
theorem test_qr_operands : (after 0x1000f078 ramp).map (fun t => (t.X[15], t.X[0], t.X[7], t.X[8], t.X[1], t.ERR)) =
    some (0xc8c8c8c8, 0x8b8b8b8b, 0x32323232, 0xbfbfbfbf, 0x01010101, .ok) := by decide +kernel

/-- V-QR-6. -/
theorem test_qr_mixes : (after 0x10000123 { State.reset with
      X := (((ramp.X.set 0 0xe7e8c006).set 1 0xc4f9417d).set 2 0x6479b4b2).set 3 0x68c67137 }).map
        (fun t => (t.X[0], t.X[1], t.X[2], t.X[3])) =
    some (0xe876d72b, 0x9361dfd5, 0xf1460244, 0x948541a3) := by decide +kernel

/-- V-COL-2. -/
theorem test_colrnd : (after 0x11000000 { State.reset with X :=
    #v[0x08521bd6, 0x1fe88837, 0xbb2aa576, 0x3aa26365, 0xc54c6a5b, 0x2fc74c2f, 0x6dd39cc3, 0xda0a64f6,
    0x90a2f23d, 0x067f95a6, 0x06b35f61, 0x41e4732e, 0xe859c100, 0xea4d84b7, 0x0f619bff, 0xbc6e965a] }).map (·.X) =
  some #v[0x8c9d190a, 0xce8e4c90, 0x1ef8e9d3, 0x1326a71a, 0x90a20123, 0xead3c4f3, 0x63a091a0, 0xf0708d69,
    0x789b010c, 0xd195a681, 0xeb7d5504, 0xa774135c, 0x481c2027, 0x53a8e4b5, 0x4c1f89c5, 0x3f78c9c8] := by decide +kernel

/-- V-ROW-2. -/
theorem test_rowrnd : (after 0x12000000 { State.reset with X :=
    #v[0x08521bd6, 0x1fe88837, 0xbb2aa576, 0x3aa26365, 0xc54c6a5b, 0x2fc74c2f, 0x6dd39cc3, 0xda0a64f6,
    0x90a2f23d, 0x067f95a6, 0x06b35f61, 0x41e4732e, 0xe859c100, 0xea4d84b7, 0x0f619bff, 0xbc6e965a] }).map (·.X) =
  some #v[0xa890d39d, 0x65d71596, 0xe9487daa, 0xc8ca6a86, 0x949d2192, 0x764b7754, 0xe408d9b9, 0x7a41b4d1,
    0x3402e183, 0x3c3af432, 0x50669f96, 0xd89ef0a8, 0x0040ede5, 0xb545fbce, 0xd257ed4f, 0x1818882d] := by decide +kernel

/-- V-DBL-2. -/
theorem test_dblrnd : (after 0x13000000 { State.reset with X :=
    #v[0xde501066, 0x6f9eb8f7, 0xe4fbbd9b, 0x454e3f57, 0xb75540d3, 0x43e93a4c, 0x3a6f2aa0, 0x726d6b36,
    0x9243f484, 0x9145d1e8, 0x4fa9d247, 0xdc8dee11, 0x054bf545, 0x254dd653, 0xd9421b6d, 0x67b276c1] }).map (·.X) =
  some #v[0xccaaf672, 0x23d960f7, 0x9153e63a, 0xcd9a60d0, 0x50440492, 0xf07cad19, 0xae344aa0, 0xdf4cfdfc,
    0xca531c29, 0x8e7943db, 0xac1680cd, 0xd503ca00, 0xa74b2ad6, 0xbc331c5c, 0x1dda24c7, 0xee928277] := by decide +kernel

/-- V-KS-3: a 16-byte key fills both halves, the other key bytes are not read. -/
theorem test_init_short_key : (after 0x20100800 countingHost).map (fun t => (t.S, t.RV, t.CUR, t.KEYED, t.ERR)) =
    some (#v[0x61707865, 0x04030201, 0x08070605, 0x0c0b0a09, 0x100f0e0d, 0x3120646e, 0x68676665, 0x6c6b6a69,
    0x00000000, 0x00000000, 0x79622d36, 0x04030201, 0x08070605, 0x0c0b0a09, 0x100f0e0d, 0x6b206574], .salsa20, 0, true, .ok) := by decide +kernel

/-- V-KS-9: both lengths wrong, the key is reported. -/
theorem test_init_key_check_first : (after 0x20180900 State.reset) =
    some { State.reset with ERR := .invalidKeySize } := by decide +kernel

/-- V-CTR-5, V-CTR-6. -/
theorem test_ctrinc_wraps : (after 0x21000000 { keyed with S := (zeroS.set 8 0xffffffff).set 9 0xffffffff }).map
      (fun t => (t.S, t.ERR)) = some (zeroS, .ok) ∧
    (after 0x21000000 { keyed with S := (zeroS.set 8 0x7fffffff).set 9 1 }).map (fun t => (t.S[8], t.S[9])) =
      some (0x80000000, 1) := by decide +kernel

/-- V-GEN-4, and V-GEN-21's clause that `CUR` does not move. -/
theorem test_genblk_salsa8 : (after 0x30000000 { keyed with RV := .salsa8, CUR := 3 }).map
      (fun t => (t.KS.toList, t.S[8], t.CUR)) =
    some (hexBytes 64 0x9f591da5f99c235445ea91866ead681b977c4ffa036d770fbca79d41fb014178cf8ecf3164e5e77d7495dc0195081edb2f45c8a1b17d2bec8df3ef9fb7618075,
      1, 3) := by decide +kernel

/-- V-GEN-3. -/
theorem test_genblk_salsa12 : (after 0x30000000 { keyed with RV := .salsa12 }).map (fun t => t.KS.toList) =
    some (hexBytes 64 0xbd78a2f8118a563c761db4f2fbe055da97f90988d27594d9c5dfd13a3efeaa3f68f0d2564850adf5017433968e4b3405ac49a39532124fcd6f47e415c7028a83) := by
  decide +kernel

/-- V-GEN-14. -/
theorem test_xload : (after 0x31000000 { countingHost with KEYED := true, S := #v[0x61707865, 0x04030201, 0x08070605, 0x0c0b0a09, 0x100f0e0d, 0x3320646e, 0x68676665, 0x6c6b6a69,
    0x00000000, 0x00000000, 0x79622d32, 0x14131211, 0x18171615, 0x1c1b1a19, 0x201f1e1d, 0x6b206574] }).map (·.X) =
  some #v[0x61707865, 0x04030201, 0x08070605, 0x0c0b0a09, 0x100f0e0d, 0x3320646e, 0x68676665, 0x6c6b6a69,
    0x00000000, 0x00000000, 0x79622d32, 0x14131211, 0x18171615, 0x1c1b1a19, 0x201f1e1d, 0x6b206574] := by decide +kernel

/-- V-GEN-17: every lane wraps on its own. -/
theorem test_xadd : (after 0x32000000 { keyed with X := Vector.replicate 16 0xffffffff }).map (·.X) =
  some #v[0x61707864, 0xffffffff, 0xffffffff, 0xffffffff, 0xffffffff, 0x3320646d, 0xffffffff, 0xffffffff,
    0xffffffff, 0xffffffff, 0x79622d31, 0xffffffff, 0xffffffff, 0xffffffff, 0xffffffff, 0x6b206573] := by decide +kernel

/-- V-GEN-18: `XSER` on a block that is not keyed. -/
theorem test_xser : (after 0x33000000 { State.reset with
      X := (State.reset.X.set 0 0x5bf6979a).set 15 0x01020304 }).map
        (fun t => ((t.KS.toList.take 5), t.KS.toList.drop 60, t.ERR)) =
    some ([0x9a, 0x97, 0xf6, 0x5b, 0], [4, 3, 2, 1], .ok) := by decide +kernel

/-- V-CUR-2. -/
theorem test_xorb_in_block : (after 0x400000ff (inBlock0 3)).map (fun t => (t.RESULT, t.CUR, t.S[8])) =
    some (0xa4, 4, 1) := by decide +kernel

/-- V-CUR-3, the 65th pull: a pull at `CUR = 0` generates the next block. -/
theorem test_xorb_regenerates : (after 0x40000000 (inBlock0 0)).map (fun t => (t.RESULT, t.CUR, t.S[8])) =
    some (0xab, 1, 2) := by decide +kernel

/-- V-XOR-7 after one `XORB`: the addresses wrap, and 11 ^ 97 = 86, 22 ^ f6 = d4. -/
theorem test_xor_wraps : (after 0x41000000 { inBlock0 1 with
      SRC := 0xffffffff, DST := 0xffffffff, LEN := 2, dmem := [(0, 0x22), (0xffffffff, 0x11)] }).map
        (fun t => (t.dmem, t.XCNT, t.CUR, t.ERR)) =
    some ([(0, 0xd4), (0xffffffff, 0x86)], 2, 3, .ok) := by decide +kernel

/-- V-XOR-9 and V-XOR-10 after one `XORB`: a read fault consumes no keystream byte for its index, a write fault one. -/
theorem test_xor_faults :
    (after 0x41000000 { inBlock0 1 with SRC := 0x100, DST := 0x200, LEN := 4, dmemHoles := [⟨0x102, 0x102⟩] }).map
      (fun t => (t.dmem, t.XCNT, t.CUR, t.ERR)) = some ([(0x200, 0x97), (0x201, 0xf6)], 2, 3, .busFault) ∧
    (after 0x41000000 { inBlock0 1 with SRC := 0x100, DST := 0x200, LEN := 4, dmemHoles := [⟨0x202, 0x202⟩] }).map
      (fun t => (t.dmem, t.XCNT, t.CUR, t.ERR)) = some ([(0x200, 0x97), (0x201, 0xf6)], 2, 4, .busFault) := by
  decide +kernel

/-- The last eight bytes of V-GEN-1 as one integer: words 14 and 15 of the file of sums, and the cursor wraps. -/
theorem test_nextint_little_endian : (after 0x42000003 (inBlock0 56)).map (fun t => (t.RESULT, t.CUR)) =
    some (0x392ac12a4b5fc5e7, 0) := by decide +kernel

/-- V-CUR-5: `RESET` keeps the stale block. -/
theorem test_reset : (after 0x43000000 { inBlock0 1 with S := zeroS.set 8 2 }).map
      (fun t => (t.S, t.CUR, t.KEYED, t.KS[0])) = some (zeroS, 0, true, 0x9a) := by decide +kernel

/-- V-ERR-17 to V-ERR-22: not keyed, nothing but `ERR` changes. -/
theorem test_not_keyed : ([0x41000000, 0x43000000, 0x42000000, 0x40000000, 0x21000000, 0x32000000, 0x31000000,
      0x30000000] : List Word).all (fun w => after w { State.reset with XCNT := 7 } =
        some { State.reset with XCNT := 7, ERR := .notKeyed }) = true := by decide +kernel

/-! ## The register space and the step -/

/-- The accesses of spec/95_test_vectors.md section 2.6, on fresh core Z20 after V-GEN-1. -/
theorem test_register_reads :
    [perform (.read 4 0x100) (inBlock0 0), perform (.read 4 0x13C) (inBlock0 0), perform (.read 4 0x080) (inBlock0 0),
      perform (.read 4 0x0A0) (inBlock0 0), perform (.read 4 0x000) (inBlock0 0), perform (.read 4 0x004) (inBlock0 3)].map
        (fun o => match o with
          | .next t => t.reply
          | .fault _ => .none
          | .refused _ => .none) =
      [.data 0x5bf6979a, .data 0x392ac12a, .data 0x61707865, .data 1, .data 0, .data 0x00000301] := by decide +kernel

theorem test_refused_accesses :
    [regOf 4 0x024, regOf 4 0x068, regOf 4 0x140, regOf 2 0x100, regOf 4 0x102].map (·.isOk) =
      [false, false, false, false, false] := by decide

/-- `withFetchWord` places a word that the very next step runs. -/
theorem test_step_runs_the_word : step (State.reset.withFetchWord 32 0x33000000) =
    .next { State.reset with reply := .done } := by rfl

/-- A write to a read-only register is ignored; a write to `KEYW[1]` stores its bytes little-endian. -/
theorem test_register_writes :
    perform (wr (.s 0) 0xFFFFFFFF) State.reset = .next { State.reset with reply := .done } ∧
    ∃ t, perform (wr (.keyw 1) 0x08070605) State.reset = .next t ∧ t.KEY[4] = 5 ∧ t.KEY[7] = 8 ∧ t.KEY[8] = 0 :=
  ⟨rfl, _, rfl, by decide, by decide, by decide⟩

/-! ## Witnesses: for each statement with hypotheses, a state and operands that meet them -/

/-- Byte 0 of the keystream. -/
theorem keyed_onStream : OnStream zeroS .salsa20 0 keyed := .start (by decide +kernel) rfl rfl rfl

/-- Byte 1 of the keystream, inside block 0. -/
def atByte1 : State :=
  { keyed with
    S := atBlock zeroS ((1 + 63) / 64)
    CUR := 1
    KS := block (atBlock zeroS (1 / 64)) .salsa20 }

theorem atByte1_onStream : OnStream zeroS .salsa20 1 atByte1 := ⟨rfl, rfl, rfl, rfl, fun _ => rfl⟩

/-- Byte 64, where a block has just been used up. -/
theorem byte64_onStream : OnStream zeroS .salsa20 64 { keyed with S := atBlock zeroS ((64 + 63) / 64) } :=
  ⟨rfl, rfl, rfl, rfl, fun h => absurd rfl h⟩

theorem test_witness_ResetPutsEveryPieceOfStateAtZero :
    ({ keyed with pending := [.hardwareReset] } : State).pending = [.hardwareReset] := rfl

theorem test_witness_RotationAndAdditionAreTheStatedFunctions : (1 ≤ 1 ∧ 1 ≤ 31) ∧ (1 ≤ 31 ∧ 31 ≤ 31) := by decide

theorem test_witness_QrUpdatesFourWordsInOrder :
    (distinctIndices 0 1 2 3 = true ∧ distinctIndices 15 14 13 12 = true) ∧
    (State.reset.X[(0 : Fin 16)] = 0 ∧ State.reset.X[(1 : Fin 16)] = 0 ∧ State.reset.X[(2 : Fin 16)] = 0 ∧
      State.reset.X[(3 : Fin 16)] = 0) ∧
    (field 0x10010123 31 24 = 0x10 ∧ field 0x10010123 23 16 ≠ 0) ∧
    (field 0x10ff0123 31 24 = 0x10 ∧ field 0x10ff0123 23 16 ≠ 0) ∧
    (field 0x10003312 31 24 = 0x10 ∧
      ¬[field 0x10003312 15 12, field 0x10003312 11 8, field 0x10003312 7 4, field 0x10003312 3 0].Nodup) ∧
    (let s := { State.reset with X := State.reset.X.set 0 1 };
      s.X[0] = 1 ∧ s.X[1] = 0 ∧ s.X[2] = 0 ∧ s.X[3] = 0) := by decide +kernel

/-- The second clause of `ZFormat`, at the lowest and the highest reserved bit of each opcode of format Z. -/
theorem test_witness_ZFormat :
    [0x11, 0x12, 0x13, 0x21, 0x30, 0x31, 0x32, 0x33, 0x41, 0x43].all (fun opc =>
      [1, 2 ^ 23].all fun r => decide (field (BitVec.ofNat 32 (opc * 2 ^ 24 + r)) 31 24 = opc ∧
        field (BitVec.ofNat 32 (opc * 2 ^ 24 + r)) 23 0 ≠ 0)) = true := by decide +kernel

/-- The hypothesis of `NeedsKeyed`, and of every clause that needs `KEYED`. -/
theorem test_witness_KEYED : State.reset.KEYED = false ∧ keyed.KEYED = true := by decide

theorem test_witness_ColrndAppliesTheFourColumnQuarterRounds :
    columnGroups.reverse.Perm columnGroups ∧ State.reset.X = Vector.replicate 16 0 ∧
    ({ State.reset with X := #v[1, 0, 0, 0, 1, 0, 0, 0, 1, 0, 0, 0, 1, 0, 0, 0] } : State).X =
      #v[1, 0, 0, 0, 1, 0, 0, 0, 1, 0, 0, 0, 1, 0, 0, 0] := ⟨List.reverse_perm _, rfl, rfl⟩

theorem test_witness_RowrndAppliesTheFourRowQuarterRounds :
    rowGroups.reverse.Perm rowGroups ∧ State.reset.X = Vector.replicate 16 0 ∧
    ({ State.reset with X := #v[1, 0, 0, 0, 1, 0, 0, 0, 1, 0, 0, 0, 1, 0, 0, 0] } : State).X =
      #v[1, 0, 0, 0, 1, 0, 0, 0, 1, 0, 0, 0, 1, 0, 0, 0] := ⟨List.reverse_perm _, rfl, rfl⟩

theorem test_witness_DblrndIsColrndThenRowrnd :
    (∃ t, exec .dblrnd ramp = .next t) ∧ State.reset.X = Vector.replicate 16 0 ∧
    ({ State.reset with X := #v[1, 0, 0, 0, 0, 0, 0, 0, 0, 0, 0, 0, 0, 0, 0, 0] } : State).X =
      #v[1, 0, 0, 0, 0, 0, 0, 0, 0, 0, 0, 0, 0, 0, 0, 0] := ⟨⟨_, rfl⟩, rfl, rfl⟩

theorem test_witness_MixingFunctionsAreBijections : distinctIndices 12 3 0 15 = true := by decide

theorem test_witness_InitBuildsTheCipherStateOrRefuses :
    (((16 : Byte) = 16 ∨ (16 : Byte) = 32) ∧ ((32 : Byte) = 16 ∨ (32 : Byte) = 32)) ∧
    ((0 : Byte) ≠ 16 ∧ (0 : Byte) ≠ 32 ∧ (24 : Byte) ≠ 16 ∧ (24 : Byte) ≠ 32 ∧ (255 : Byte) ≠ 16 ∧ (255 : Byte) ≠ 32) ∧
    ((0 : Byte) ≠ 8 ∧ (7 : Byte) ≠ 8 ∧ (9 : Byte) ≠ 8 ∧ (255 : Byte) ≠ 8) ∧
    (field 0x20200803 31 24 = 0x20 ∧ 2 < field 0x20200803 7 0) ∧
    (field 0x202008ff 31 24 = 0x20 ∧ 2 < field 0x202008ff 7 0) ∧
    ZeroKey State.reset ∧
    (countingHost.KEY = countingKey ∧ ∃ t, exec (.init 32 8 .salsa20) countingHost = .next t) ∧
    (∃ t, exec (.init 16 8 .salsa8) countingHost = .next t) ∧
    countingHost.NONCE = #v[0x65, 0x66, 0x67, 0x68, 0x69, 0x6A, 0x6B, 0x6C] :=
  ⟨by decide, by decide, by decide, by decide, by decide, ⟨rfl, rfl⟩, ⟨rfl, _, rfl⟩, ⟨_, rfl⟩, rfl⟩

theorem test_witness_InitIsAFunctionOfKeyNonceAndWord :
    State.reset ≠ inBlock0 5 ∧ State.reset.KEY = (inBlock0 5).KEY ∧ State.reset.NONCE = (inBlock0 5).NONCE := by
  decide +kernel

theorem test_witness_TheCounterIncrementIsA64BitIncrement :
    (Instr.ctrinc ∈ [Instr.ctrinc, .genblk] ∧ Instr.genblk ∈ [Instr.ctrinc, .genblk]) ∧
    (let s := { keyed with S := zeroS.set 8 0xFFFFFFFE };
      s.KEYED = true ∧ s.S[8] = 0xFFFFFFFE ∧ s.S[9] = 0) ∧
    (let s := { keyed with S := zeroS.set 8 0xFFFFFFFF };
      s.KEYED = true ∧ s.S[8] = 0xFFFFFFFF ∧ s.S[9] = 0) ∧
    (let s := { keyed with S := (zeroS.set 8 0xFFFFFFFF).set 9 5 };
      s.KEYED = true ∧ s.S[8] = 0xFFFFFFFF ∧ s.S[9] = 5) := by decide +kernel

theorem test_witness_CtrincChangesOnlyTheCounterAndWraps :
    (let s := { keyed with S := (zeroS.set 8 0xFFFFFFFF).set 9 0xFFFFFFFF };
      s.KEYED = true ∧ s.S[8] = 0xFFFFFFFF ∧ s.S[9] = 0xFFFFFFFF) ∧
    ∃ t u, exec (.init 16 8 .salsa20) State.reset = .next t ∧ exec .ctrinc t = .next u :=
  ⟨by decide +kernel, _, _, rfl, rfl⟩

theorem test_witness_GenblkRunsTheRoundsAddsTheStateAndCounts :
    [Variant.salsa20, .salsa12, .salsa8].all (fun v => decide (∃ n ∈ [10, 6, 4], (({ keyed with RV := v } : State).RV, n) ∈
      [(Variant.salsa20, 10), (Variant.salsa12, 6), (Variant.salsa8, 4)])) = true ∧ ZeroKey State.reset :=
  ⟨by decide, rfl, rfl⟩

theorem test_witness_XloadCopiesTheCipherState :
    ∃ t u, ZeroKey State.reset ∧ command 0x20200800 State.reset = .next t ∧ command 0x31000000 t = .next u :=
  ⟨_, _, ⟨rfl, rfl⟩, rfl, rfl⟩

theorem test_witness_XaddAddsTheCipherStateLaneByLane :
    (let s := { keyed with X := Vector.replicate 16 0xFFFFFFFF, S := Vector.replicate 16 2 };
      s.KEYED = true ∧ (∃ t, exec .xadd s = .next t) ∧ s.X[(15 : Fin 16)] = 0xFFFFFFFF ∧ s.S[(15 : Fin 16)] = 2) ∧
    ∃ t u, keyed.S[0] = 0x61707865 ∧ exec .xload keyed = .next t ∧ exec .xadd t = .next u :=
  ⟨⟨rfl, ⟨_, rfl⟩, by decide, by decide⟩, _, _, by decide, rfl, rfl⟩

theorem test_witness_GenblkEqualsItsMicroCommands : keyed.KEYED = true ∧ keyed.RV = .salsa20 := by decide

theorem test_witness_InitAndResetStartTheKeystream :
    (((16 : Byte) = 16 ∨ (16 : Byte) = 32) ∧ ((32 : Byte) = 16 ∨ (32 : Byte) = 32)) ∧ (inBlock0 1).KEYED = true := by
  decide

theorem test_witness_ResetReproducesTheSequence : (16 : Byte) = 16 ∨ (16 : Byte) = 32 := by decide

theorem test_witness_XserSerialisesLittleEndian :
    let s := { State.reset with X := State.reset.X.set 0 0x5BF6979A };
    s.X[0] = 0x5BF6979A ∧ ∃ t, exec .xser s = .next t := ⟨by decide, _, rfl⟩

theorem test_witness_TheBlockDependsOnStateAndVariantOnly :
    (keyed ≠ { keyed with CUR := 9 } ∧ keyed.S = ({ keyed with CUR := 9 } : State).S) ∧
    ({ keyed with S := atBlock zeroS (2 ^ 32 - 1) } : State).S = atBlock zeroS (2 ^ 32 - 1) :=
  ⟨by decide +kernel, rfl⟩

theorem test_witness_APullGeneratesAtCursorZeroAndAdvances :
    keyed.CUR = 0 ∧ (inBlock0 1).CUR ≠ 0 ∧ (inBlock0 63).CUR ≠ 0 := by decide

theorem test_witness_PullsDeliverTheConcatenatedBlocks :
    (∃ t, exec (.init 16 8 .salsa12) State.reset = .next t) ∧ (∃ t, keyed.KEYED = true ∧ exec .reset keyed = .next t) ∧
    (∃ t, OnStream zeroS .salsa20 0 keyed ∧ command 0x41000000 keyed = .next t ∧ t.ERR = .ok ∧
      decode 0x41000000 = .ok .xor) ∧
    (∃ t, OnStream zeroS .salsa20 1 atByte1 ∧ command 0x40000000 atByte1 = .next t ∧ t.ERR = .ok ∧
      decode 0x40000000 = .ok (.xorb 0)) ∧
    (∃ t, OnStream zeroS .salsa20 1 atByte1 ∧ command 0x42000003 atByte1 = .next t ∧ t.ERR = .ok ∧
      decode 0x42000003 = .ok (.nextint 3)) ∧
    (∃ t, OnStream zeroS .salsa20 1 atByte1 ∧ command 0x41000001 atByte1 = .next t ∧ t.ERR = .illegalCommand) ∧
    OnStream zeroS .salsa20 64 { keyed with S := atBlock zeroS ((64 + 63) / 64) } :=
  ⟨⟨_, rfl⟩, ⟨_, rfl, rfl⟩, ⟨_, keyed_onStream, rfl, rfl, by decide⟩,
    ⟨_, atByte1_onStream, rfl, rfl, by decide⟩, ⟨_, atByte1_onStream, rfl, rfl, by decide⟩,
    ⟨_, atByte1_onStream, rfl, rfl⟩, byte64_onStream⟩

/-- `atByte1` with an `XOR` whose first byte is not admitted, on its read or on its write side. -/
def faulting (src dst : Word) : State := { atByte1 with SRC := src, DST := dst, LEN := 1, dmemHoles := [⟨0, 0⟩] }

theorem faulting_onStream (src dst : Word) : OnStream zeroS .salsa20 1 (faulting src dst) :=
  atByte1_onStream.congr rfl rfl rfl rfl rfl

theorem test_witness_ByteCommandsAdvanceTheKeystreamByWhatTheyPull :
    OnStream zeroS .salsa20 1 (faulting 0 4) ∧
    (∃ t, exec (.xorb 0) (faulting 0 4) = .next t) ∧ (∃ t, exec (.nextint 0) (faulting 0 4) = .next t) ∧
    (∃ t, exec .xor (faulting 0 4) = .next t ∧ t.ERR = .busFault) ∧
    (∃ t, exec .xor (faulting 4 0) = .next t ∧ t.ERR = .busFault) ∧
    (∃ t, exec .xor atByte1 = .next t ∧ t.ERR = .ok) ∧
    (∃ t, command 0 atByte1 = .next t ∧ t.ERR ≠ .ok ∧ t.ERR ≠ .busFault) ∧
    (∃ t, disturbsStream .xload = false ∧ exec .xload atByte1 = .next t) ∧
    ∃ t, perform (.write 4 0x0C0 7) atByte1 = .next t ∧ regOf 4 0x0C0 ≠ .ok .cmd :=
  ⟨faulting_onStream _ _, ⟨_, rfl⟩, ⟨_, rfl⟩, ⟨_, rfl, rfl⟩, ⟨_, rfl, rfl⟩, ⟨_, rfl, rfl⟩,
    ⟨_, rfl, by decide, by decide⟩, ⟨_, rfl, rfl⟩, _, rfl, by decide⟩

theorem test_witness_XorbAppliesOneKeystreamByte :
    (field 0x40000100 31 24 = 0x40 ∧ field 0x40000100 23 8 ≠ 0) ∧
    (field 0x40800000 31 24 = 0x40 ∧ field 0x40800000 23 8 ≠ 0) ∧ ZeroKey State.reset :=
  ⟨by decide, by decide, rfl, rfl⟩

/-- The two examples' starts, and an `XOR` of two bytes whose output overlaps its input at a higher address. -/
theorem test_witness_XorProcessesEveryByteInOrder :
    (let s := { inBlock0 1 with SRC := 0x100, DST := 0x101, LEN := 2, dmem := [(0x100, 0xaa)] };
      s.KEYED = true ∧ Memory.wf s.dmem ∧ xorLength s = 2 ∧ (∀ i < 2, s.dmemOk (xorSrc s i) = true ∧
        s.dmemOk (xorDst s i) = true) ∧ xorDst s 0 = xorSrc s 1 ∧ xorDst s 1 ≠ xorSrc s 0) ∧
    (let s := { State.reset with SRC := 0x1000, DST := 0x2000, LEN := 8, dmem :=
      [(0x1000, 0x53), (0x1001, 0x61), (0x1002, 0x6c), (0x1003, 0x73), (0x1004, 0x61), (0x1005, 0x32), (0x1006, 0x30),
        (0x1007, 0x21)] };
      s.KEY = Vector.replicate 32 0 ∧ s.NONCE = Vector.replicate 8 0 ∧ Memory.wf s.dmem ∧ s.dmemHoles = [] ∧
        bytesAt s 0x1000 8 = hexBytes 8 0x53616c7361323021) ∧
    (let s := { State.reset with SRC := 0x100, DST := 0x101, LEN := 4 };
      s.KEY = Vector.replicate 32 0 ∧ s.NONCE = Vector.replicate 8 0 ∧ Memory.wf s.dmem ∧ s.dmemHoles = [] ∧
        bytesAt s 0x100 5 = hexBytes 5 0) := by decide +kernel

theorem test_witness_XorOfZeroOrNegativeLengthIsANoOp :
    [(0 : Word), 0xFFFFFFFF, 0x80000000].all (fun n => decide (({ keyed with LEN := n } : State).KEYED = true ∧
      ({ keyed with LEN := n } : State).LEN.toInt ≤ 0)) = true ∧
    [(1 : Word), 0x7FFFFFFF].all (fun n => decide (0 < ({ keyed with LEN := n } : State).LEN.toInt)) = true := by decide

/-- A read fault and a write fault, at the first byte and after one byte. -/
theorem test_witness_XorStopsAtTheFirstAccessNotAdmitted :
    [((0x102 : Word), (0x200 : Word), 0, true), (0x101, 0x200, 1, true), (0x200, 0x102, 0, false),
      (0x200, 0x101, 1, false)].all (fun (src, dst, k, onRead) =>
        let s := { inBlock0 1 with SRC := src, DST := dst, LEN := 4, dmemHoles := [⟨0x102, 0x102⟩] }
        decide (s.KEYED = true ∧ k < xorLength s ∧
          (∀ i < k, s.dmemOk (xorSrc s i) = true ∧ s.dmemOk (xorDst s i) = true) ∧
          s.dmemOk (xorSrc s k) = !onRead ∧ (onRead = true ∨ s.dmemOk (xorDst s k) = false))) = true ∧
    [(⟨0x102, 0x102⟩ : AddrRange), ⟨0x202, 0x202⟩].all (fun hole =>
      let s := { State.reset with SRC := 0x100, DST := 0x200, LEN := 4, dmem := [(0x104, 9)], dmemHoles := [hole] };
      decide (Memory.wf s.dmem ∧ bytesAt s 0x100 4 = hexBytes 4 0 ∧ bytesAt s 0x200 4 = hexBytes 4 0 ∧
        s.KEY = Vector.replicate 32 0 ∧ s.NONCE = Vector.replicate 8 0)) = true := by decide +kernel

theorem test_witness_XorTouchesOnlyItsOutputBytesAndTheKeystreamPosition :
    ∃ t, exec .xor { inBlock0 1 with SRC := 0x100, DST := 0x200, LEN := 1 } = .next t ∧ t.ERR = .ok := ⟨_, rfl, rfl⟩

theorem test_witness_NextintDrawsALittleEndianInteger :
    (field 0x42000004 31 24 = 0x42 ∧ field 0x42000004 23 2 ≠ 0) ∧
    (field 0x42800000 31 24 = 0x42 ∧ field 0x42800000 23 2 ≠ 0) ∧ ZeroKey State.reset :=
  ⟨by decide, by decide, rfl, rfl⟩

theorem test_witness_ResetZeroesCounterAndCursorOnly :
    (∃ t, keyed.KEYED = true ∧ exec .reset keyed = .next t) ∧
    (∃ t u, exec (.init 16 8 .salsa8) State.reset = .next t ∧ exec .reset t = .next u) ∧ ZeroKey State.reset :=
  ⟨⟨_, rfl, rfl⟩, ⟨_, _, rfl, rfl⟩, rfl, rfl⟩

theorem test_witness_XorResetXorRestoresTheBuffer :
    (let s := { keyed with SRC := 0xFFFFFFFE, DST := 0xFFFFFFFE, LEN := 4, dmem := [(0, 3), (1, 4)] };
      OnStream zeroS .salsa20 0 s ∧ Memory.wf s.dmem ∧ s.DST = s.SRC ∧ Admitted s (xorLength s)) ∧
    (let s := { keyed with SRC := 0xFFFFFFFE, DST := 2, LEN := 4, dmem := [(0, 3), (1, 4)] };
      OnStream zeroS .salsa20 0 s ∧ Memory.wf s.dmem ∧ Admitted s (xorLength s) ∧
        ∀ i j, i < xorLength s → j < xorLength s → xorDst s i ≠ xorSrc s j) :=
  ⟨⟨keyed_onStream.congr rfl rfl rfl rfl rfl, by decide, rfl, fun _ _ => ⟨rfl, rfl⟩⟩,
    keyed_onStream.congr rfl rfl rfl rfl rfl, by decide, fun _ _ => ⟨rfl, rfl⟩, fun i j hi hj => by
      have hi' : i < 4 := hi
      have hj' : j < 4 := hj
      revert hj'; revert hi'; clear hi hj
      intro hi hj
      interval_cases i <;> interval_cases j <;> decide⟩

/-- Inside a block with the matching `KS`; the next step is a pull, and one at cursor 0 a `GENBLK`. -/
theorem test_witness_TheUnconsumedBytesBelongToTheBlockBeforeTheCounter :
    (let s := State.withFetchWord atByte1 32 0x40000000;
      UnconsumedBytesFit s ∧ s.CUR ≠ 0 ∧ ∃ t, step s = .next t ∧ t.CUR = 2) ∧
    (let s := State.withFetchWord keyed 32 0x30000000;
      UnconsumedBytesFit s ∧ s.CUR = 0 ∧ ∃ t, step s = .next t) :=
  ⟨⟨fun _ i _ => by
      have h : (atBlock atByte1.S (counter atByte1.S - 1).toNat) = atBlock zeroS (1 / 64) := by decide +kernel
      show atByte1.KS[i] = (block (atBlock atByte1.S (counter atByte1.S - 1).toNat) .salsa20)[i]
      rw [h]
      rfl, by decide, _, rfl, rfl⟩, fun h => absurd rfl h, rfl, _, rfl⟩

theorem test_witness_GenblkSkipsOneBlockOfTheKeystream :
    (OnStream zeroS .salsa20 0 keyed ∧ keyed.CUR = 0) ∧ (OnStream zeroS .salsa20 1 atByte1 ∧ atByte1.CUR ≠ 0 ∧
      62 < 64 - 1 % 64 ∧ 64 - 1 % 64 ≤ 63) := ⟨⟨keyed_onStream, rfl⟩, atByte1_onStream, by decide, by decide, by decide⟩

/-- The counter two below its top: an `XOR` of 129 bytes is three blocks and breaks the duty, one of 64 keeps it. -/
theorem test_witness_TheCounterDutyIsToStayBelowTheWrap :
    (let s := { keyed with S := (zeroS.set 8 0xFFFFFFFE).set 9 0xFFFFFFFF, LEN := 129 };
      s.KEYED = true ∧ (counter s.S).toNat = 2 ^ 64 - 2 ∧ blocksPulled s.CUR.val (xorLength s) = 3 ∧
        ¬(counter s.S).toNat + 3 < 2 ^ 64 ∧ blocksPulled s.CUR.val 64 = 1 ∧ (counter s.S).toNat + 1 < 2 ^ 64) ∧
    Admitted { keyed with LEN := 129 } 129 ∧
    (blocksPulled 1 63 = 0 ∧ blocksPulled 1 64 = 1 ∧ blocksPulled 63 1 = 0 ∧ blocksPulled 0 1 = 1) ∧
    (restarts .reset = true ∧ restarts (.init 16 8 .salsa8) = true) :=
  ⟨by decide +kernel, fun _ _ => ⟨rfl, rfl⟩, by decide, by decide⟩

theorem test_witness_DecodeOfEncodeIsTheCommand :
    (Instr.qr 15 14 13 12).wf = true ∧ (Instr.init 255 255 .salsa8).wf = true ∧ (Instr.xorb 255).wf = true ∧
      (Instr.nextint 3).wf = true := by decide

theorem test_witness_EncodeOfDecodeIsTheWord : decode 0x20FFFF02 = .ok (.init 255 255 .salsa8) := by decide

theorem test_witness_TheIllegalWordsAreExactlyTheListed :
    ListedIllegal 0x14000000 ∧ (¬ListedIllegal 0x30000000 ∧ ∃ t, command 0x30000000 State.reset = .next t) :=
  ⟨.inl (by decide), ⟨by unfold ListedIllegal; decide, _, rfl⟩⟩

theorem test_witness_DecodeThenKeyedThenExecute :
    decode 0x30000001 = .error .reservedField ∧ decode 0x30000000 = .ok .genblk ∧ decode 0x400000FF = .ok (.xorb 0xFF) ∧
      decode 0x42000003 = .ok (.nextint 3) ∧ State.reset.KEYED = false := by decide

theorem test_witness_EachCommandEndsWithAnOutcomeOfItsRow :
    (Instr.xser).wf = true ∧ ∃ t, exec .xser State.reset = .next t := ⟨rfl, _, rfl⟩

theorem test_witness_ErrorsOtherThanBusFaultChangeOnlyErr :
    [(0 : Word), 0x30000000, 0x20180800, 0x20200700].map (fun w => (after w State.reset).map (·.ERR)) =
      [some .illegalCommand, some .notKeyed, some .invalidKeySize, some .invalidNonceSize] := by decide +kernel

theorem test_witness_AStepRunsTheDecodedCommand :
    (keyed.withFetchWord 32 0x30000000).pending = .write 4 0x000 0x30000000 :: keyed.pending ∧
    decode 0x30000000 = .ok .genblk ∧ decode 0x30000001 = .error .reservedField ∧ 0x30000000 < 2 ^ 32 ∧
    decode (BitVec.ofNat 32 0x30000000) = .ok .genblk := by decide

/-- Every clause of the read map at the ends of its range: the word the clause names is the one that `readReg` gives. -/
theorem test_witness_ReadsReturnTheRegisterMapAndChangeNothing :
    ({ keyed with pending := [.read 4 0x13C] } : State).pending = [.read 4 0x13C] ∧
    (let v : Word := 0x00003F05
      let s := { keyed with CUR := 63, RV := .salsa8 }
      v.getLsbD 0 = s.KEYED ∧ v.extractLsb' 1 2 = BitVec.ofNat 2 s.RV.code ∧ v.extractLsb' 3 5 = 0 ∧
        v.extractLsb' 8 6 = BitVec.ofNat 6 s.CUR.val ∧ v.extractLsb' 14 18 = 0) ∧
    (let v : Word := 5
      let s := { keyed with ERR := .busFault }
      v.extractLsb' 0 8 = s.ERR.code ∧ v.extractLsb' 8 24 = 0) ∧
    (∀ j : Fin 4, (0x04030201 : Word).extractLsb' (8 * j.val) 8 = countingHost.KEY[4 * 0 + j.val] ∧
      (0x201F1E1D : Word).extractLsb' (8 * j.val) 8 = countingHost.KEY[4 * 7 + j.val] ∧
      (0x68676665 : Word).extractLsb' (8 * j.val) 8 = countingHost.NONCE[4 * 0 + j.val] ∧
      (0x6C6B6A69 : Word).extractLsb' (8 * j.val) 8 = countingHost.NONCE[4 * 1 + j.val] ∧
      (0x5BF6979A : Word).extractLsb' (8 * j.val) 8 = (inBlock0 0).KS[4 * 0 + j.val] ∧
      (0x392AC12A : Word).extractLsb' (8 * j.val) 8 = (inBlock0 0).KS[4 * 15 + j.val]) := by decide +kernel

theorem test_witness_WritesFollowTheRegisterMap :
    ({ keyed with pending := [.write 4 0x0FC 1] } : State).pending = [.write 4 0x0FC 1] ∧
    (0x05C = 0x040 + 4 * 7 ∧ 0x064 = 0x060 + 4 * 1 ∧ 0x0FC = 0x0C0 + 4 * 15) ∧
    (0x080 % 4 = 0 ∧ 0x080 ≤ 0x080 ∧ 0x080 < 0x0C0) ∧ (0x0BC % 4 = 0 ∧ 0x080 ≤ 0x0BC ∧ 0x0BC < 0x0C0) ∧
    (0x100 % 4 = 0 ∧ 0x100 ≤ 0x100 ∧ 0x100 < 0x140) ∧ (0x13C % 4 = 0 ∧ 0x100 ≤ 0x13C ∧ 0x13C < 0x140) := by decide

/-- Both clauses at the ends of the ranges: the first and the last refused offsets, and their admitted neighbours. -/
theorem test_witness_ExactlyTheListedAccessesAreRefused :
    [(4, 0x020), (4, 0x040), (4, 0x064), (4, 0x080), (4, 0x13C)].all (fun (size, off) => decide
      (¬(size ≠ 4 ∨ off % 4 ≠ 0 ∨ (0x024 ≤ off ∧ off ≤ 0x03C) ∨ (0x068 ≤ off ∧ off ≤ 0x07C) ∨ 0x140 ≤ off))) = true ∧
    [(4, 0x024), (4, 0x03C), (4, 0x068), (4, 0x07C), (4, 0x140), (2, 0x100), (8, 0x100), (4, 0x102)].all
      (fun (size, off) => decide
        (size ≠ 4 ∨ off % 4 ≠ 0 ∨ (0x024 ≤ off ∧ off ≤ 0x03C) ∨ (0x068 ≤ off ∧ off ≤ 0x07C) ∨ 0x140 ≤ off)) = true := by
  decide

/-- A step that is a command other than `INIT` and `XOR`: the premises of the whole-machine rules. -/
theorem test_witness_OnlyInitChangesTheNonCounterWords :
    let s := State.withFetchWord (inBlock0 1) 32 0x40000000
    (∃ t, step s = .next t ∧ t.CUR ≠ s.CUR ∧ t.RESULT ≠ s.RESULT) ∧ ¬NextAccess s .hardwareReset ∧
    (∀ klen nlen rounds, ¬NextCommand s (.init klen nlen rounds)) ∧ ¬NextCommand s .xor := by
  have other : ∀ i, i ≠ .xorb 0 → ¬NextCommand (State.withFetchWord (inBlock0 1) 32 0x40000000) i := by
    rintro i hi ⟨size, off, w, ⟨rest, h⟩, -, hd⟩
    have h' : HostAccess.write 4 0x000 0x40000000 :: [] = .write size off w :: rest := h
    cases h'
    have hd' : decode 0x40000000 = .ok (.xorb 0) := by decide
    exact hi (by rw [hd] at hd'; cases hd'; rfl)
  refine ⟨⟨_, rfl, by decide +kernel, by decide +kernel⟩, ?_, fun _ _ _ => other _ nofun, other _ nofun⟩
  rintro ⟨rest, h⟩
  have h' : HostAccess.write 4 0x000 0x40000000 :: [] = .hardwareReset :: rest := h
  cases h'

/-- A step that is no `XOR`: the premises of both clauses about data memory. -/
theorem test_witness_OnlyXorReachesDataMemory :
    let s := State.withFetchWord (inBlock0 1) 32 0x40000000
    (∃ t, step s = .next t) ∧ ¬NextCommand s .xor :=
  ⟨⟨_, rfl⟩, test_witness_OnlyInitChangesTheNonCounterWords.2.2.2⟩

/-- Steps that change `RV` and `KEYED`, `SRC`, `KEY`, `XCNT`. -/
theorem test_witness_OnlyTheListedCommandsChangeTheStatus :
    (let s := State.withFetchWord State.reset 32 0x20200802
      ∃ t, step s = .next t ∧ t.RV ≠ s.RV ∧ t.KEYED ≠ s.KEYED) ∧
    (let s := State.withFetchWord (inBlock0 1) 32 0x43000000
      ∃ t, step s = .next t ∧ t.CUR ≠ s.CUR) :=
  ⟨⟨_, rfl, by decide, by decide⟩, _, rfl, by decide⟩

theorem test_witness_EachRegisterHasItsOwnWriters :
    (let s := { State.reset with pending := [wr .src 1] }
      ∃ t, step s = .next t ∧ t.SRC ≠ s.SRC) ∧
    (let s := { State.reset with pending := [wr (.keyw 7) 1] }
      ∃ t, step s = .next t ∧ t.KEY ≠ s.KEY) ∧
    (let s := { State.withFetchWord keyed 32 0x41000000 with XCNT := 7 }
      ∃ t, step s = .next t ∧ t.XCNT ≠ s.XCNT) ∧
    (let s := State.withFetchWord State.reset 32 0
      ∃ t, step s = .next t ∧ t.ERR ≠ s.ERR) :=
  ⟨⟨_, rfl, by decide⟩, ⟨_, rfl, by decide⟩, ⟨_, rfl, by decide⟩, _, rfl, by decide⟩

theorem test_witness_CommandsOtherThanXorLeaveTheRestUnchanged :
    [Instr.qr 0 1 2 3, .colrnd, .rowrnd, .dblrnd, .xload, .xadd, .xser, .ctrinc, .reset, .init 16 8 .salsa8].all
      (fun i => i ≠ .xor) = true ∧ ∃ t, exec .xadd keyed = .next t := ⟨by decide, _, rfl⟩

/-- The invariant holds of a keyed block with a byte in memory, and such a block steps. -/
theorem test_witness_EveryStepKeepsTheInvariant :
    let s := State.withFetchWord { keyed with dmem := [(5, 1)] } 32 0x21000000
    Machine.Inv s ∧ ∃ t, step s = .next t :=
  ⟨⟨by decide, nofun, fun _ => .inl (by decide +kernel)⟩, _, rfl⟩

theorem test_witness_AWrittenByteReadsBackAndNoOtherChanges :
    let s := { keyed with dmem := [(5, 1), (9, 2)] }
    Memory.wf s.dmem ∧ (∃ t, memWrite s 5 0 = some t) ∧ (∃ t, memWrite s 0xFFFFFFFF 3 = some t) :=
  ⟨by decide, ⟨_, rfl⟩, _, rfl⟩

theorem test_witness_TheKeyingSequenceKeysTheBlock :
    (let key : List Byte := List.replicate 16 7
      let nonce : List Byte := List.replicate 8 1
      (key.length = 16 ∨ key.length = 32) ∧ nonce.length = 8) ∧
    (let key : List Byte := List.replicate 300 7
      let nonce : List Byte := List.replicate 264 1
      ¬((key.length = 16 ∨ key.length = 32) ∧ nonce.length = 8)) := by
  simp only [List.length_replicate]
  decide

/-- An adapter with separate buffers at 0x1000 and 0x2000, over a source of 100 bytes. -/
def adapter : Adapter (List Pull) :=
  ⟨keyed, 0x1000, 0x2000, 0, 0, false, [.bytes (List.replicate 64 1), .bytes (List.replicate 36 2)]⟩

/-- A second adapter that reads from the first, in place at 0x3000. -/
def chained : Adapter (Adapter (List Pull)) := ⟨keyed, 0x3000, 0x3000, 0, 0, false, adapter⟩

theorem test_witness_EndOfStreamIsPermanent :
    ({ adapter with eos := true } : Adapter (List Pull)).eos = true ∧
    ({ adapter with eos := true, count := 36, offset := 36 } : Adapter (List Pull)).count ≤
      ({ adapter with eos := true, count := 36, offset := 36 } : Adapter (List Pull)).offset := by decide

theorem adapter_fresh : FreshAdapter zeroS .salsa20 adapter := by
  refine ⟨keyed_onStream, by decide, ⟨fun _ _ => ⟨rfl, rfl⟩, fun i j hij hj h => ?_⟩, rfl, rfl, rfl⟩
  have h' := congrArg BitVec.toNat h
  simp only [adapter, BitVec.toNat_add, BitVec.toNat_ofNat] at h'
  simp at h'
  omega

theorem chained_fresh : FreshAdapter zeroS .salsa20 chained := by
  refine ⟨keyed_onStream, by decide, ⟨fun _ _ => ⟨rfl, rfl⟩, fun i j hij hj h => ?_⟩, rfl, rfl, rfl⟩
  have h' := congrArg BitVec.toNat h
  simp only [chained, BitVec.toNat_add, BitVec.toNat_ofNat] at h'
  simp at h'
  omega

theorem adapter_hundred :
    YieldsHundred askOracle adapter.source (List.replicate 64 1) (List.replicate 36 2) := ⟨rfl, rfl, _, _, rfl, rfl⟩

/-- The premises of the statement about a load, for separate buffers and for one buffer used in place. -/
theorem test_witness_AdapterLoadXorsTheFreshBytes :
    (OnStream zeroS .salsa20 0 adapter.core ∧ Memory.wf adapter.core.dmem ∧ BuffersUsable adapter) ∧
    BuffersUsable chained ∧ (List.replicate 64 (1 : Byte)).length ≤ 64 :=
  ⟨⟨adapter_fresh.1, adapter_fresh.2.1, adapter_fresh.2.2.1⟩, chained_fresh.2.2.1, by simp⟩

theorem test_witness_TheStreamingScenarioReturnsAHundredBytes :
    FreshAdapter zeroS .salsa20 adapter ∧
    YieldsHundred askOracle adapter.source (List.replicate 64 1) (List.replicate 36 2) ∧ (100 : Int) ≤ 100 ∧
    100 ≤ ([(-1 : Int), 50, 0, 51].map Int.toNat).sum := ⟨adapter_fresh, adapter_hundred, by decide, by decide⟩

/-- A read that the source serves, and one that it fails. -/
theorem test_witness_ReadsMayBeSplit :
    (adapter.read askOracle 0).1.returned ≠ none ∧
    (({ adapter with source := [.failure] } : Adapter (List Pull)).read askOracle 1).1.returned = none := by decide

/-- An adapter at its end, one whose source has no byte, and one whose source fails. -/
theorem test_witness_AnAdapterIsAByteSource :
    ({ adapter with eos := true } : Adapter (List Pull)).phase = .endOfStream ∧
    (Adapter.ask askOracle { adapter with source := [] }).1 = .bytes [] ∧
    (Adapter.ask askOracle { adapter with source := [.failure] }).1 = .failure := ⟨by decide, rfl, rfl⟩

theorem test_witness_ChainedAdaptersReturnTheOriginalContent :
    FreshAdapter zeroS .salsa20 chained ∧ FreshAdapter zeroS .salsa20 chained.source ∧
    YieldsHundred askOracle chained.source.source (List.replicate 64 1) (List.replicate 36 2) :=
  ⟨chained_fresh, adapter_fresh, adapter_hundred⟩

end Sys2Proof.Tests
end

/-! Proofs about the scope of the block (spec/00_scope.md R18, spec/30_encoding.md R81): no command stops the machine,
whatever the state. -/

namespace Sys2Proof.Machine

/-- `QR` goes on with four distinct indices and with any others. -/
theorem exec_qr_goesOn (a b c d : Fin 16) (s : State) : ∃ t, exec (.qr a b c d) s = .next t := by
  show ∃ t, execQr a b c d s = .next t
  unfold execQr
  split
  · exact ⟨_, finish_eq _⟩
  · exact ⟨_, raise_eq _ s⟩

/-- `INIT` goes on at each of its three ends: a bad key length, a bad nonce length, a keyed block (R199). -/
theorem exec_init_goesOn (klen nlen : Byte) (rounds : Variant) (s : State) :
    ∃ t, exec (.init klen nlen rounds) s = .next t := by
  show ∃ t, execInit klen nlen rounds s = .next t
  unfold execInit
  split
  · exact ⟨_, raise_eq _ s⟩
  · split
    · exact ⟨_, raise_eq _ s⟩
    · exact ⟨_, finish_eq _⟩

/-- `XOR` on a keyed block goes on whether its loop completes or meets an access not admitted (R157, R161). -/
theorem exec_xor_goesOn {s : State} (h : s.KEYED = true) : ∃ t, exec .xor s = .next t := by
  rcases xorLoop_cases s (xorLength s) with ⟨hall, -⟩ | ⟨k, hk, hok, hf⟩
  · exact ⟨_, exec_xor_ok h hall⟩
  · have hbad : s.dmemOk (xorSrc s k) = false ∨ s.dmemOk (xorDst s k) = false :=
      hf.imp (fun ⟨hsrc, _⟩ => hsrc) (fun ⟨_, hdst, _⟩ => hdst)
    exact ⟨_, exec_xor_fault h hk hok hbad⟩

/-- The gate of R80 answers for a command that needs a CipherState while there is none, so such a command goes on once
it does so on a keyed block. -/
theorem exec_goesOn_of_gated {i : Instr} {s : State} (hn : needsKeyed i = true)
    (hkeyed : s.KEYED = true → ∃ t, exec i s = .next t) : ∃ t, exec i s = .next t := by
  cases h : s.KEYED with
  | false => exact ⟨_, exec_not_keyed hn h⟩
  | true => exact hkeyed h

/-- Settles O39: each command by what its meaning ends in, the gated ones past the gate of R80. -/
theorem everyCommandGoesOn : Obligations.EveryCommandGoesOn := by
  intro i s
  cases i with
  | qr a b c d => exact exec_qr_goesOn a b c d s
  | colrnd => exact ⟨_, finish_eq _⟩
  | rowrnd => exact ⟨_, finish_eq _⟩
  | dblrnd => exact ⟨_, finish_eq _⟩
  | init klen nlen rounds => exact exec_init_goesOn klen nlen rounds s
  | ctrinc => exact exec_goesOn_of_gated rfl fun h => ⟨_, exec_ctrinc h⟩
  | genblk => exact exec_goesOn_of_gated rfl fun h => ⟨_, exec_genblk h⟩
  | xload => exact exec_goesOn_of_gated rfl fun h => ⟨_, exec_xload h⟩
  | xadd => exact exec_goesOn_of_gated rfl fun h => ⟨_, exec_xadd h⟩
  | xser => exact ⟨_, finish_eq _⟩
  | xorb b => exact exec_goesOn_of_gated rfl fun h => ⟨_, exec_xorb h b⟩
  | xor => exact exec_goesOn_of_gated rfl exec_xor_goesOn
  | nextint w => exact exec_goesOn_of_gated rfl fun h => ⟨_, exec_nextint h w⟩
  | reset => exact exec_goesOn_of_gated rfl fun h => ⟨_, exec_reset h⟩

end Sys2Proof.Machine

/-! Proofs about the state and the register space (spec/10_state.md). The shared part: what each command can end in
(`CommandEffect`), what each register write can change, and so what one step can change. -/

namespace Sys2Proof.Machine

open Sys2Proof.Statements

/-! ## What a command can end in -/

/-- Each end of a command: an error that changes only `ERR`, or the effect of its rule. The six commands that write
nothing but `X` stand together; an `XOR` ends after some pulls and some bytes stored (R157, R161). What `RESULT` and
the mixed file hold, and the key and nonce words `INIT` builds, is left to the lemmas `exec_…` of each command. -/
inductive CommandEffect (s : State) : Instr → State → Prop where
  | raised (i : Instr) (e : ErrCode) (he : e ≠ .ok) : CommandEffect s i { s with ERR := e }
  | mixed (i : Instr) (x : WordFile)
      (hi : i ∈ [.colrnd, .rowrnd, .dblrnd, .xload, .xadd] ∨ ∃ a b c d, i = .qr a b c d) :
      CommandEffect s i { s with X := x, ERR := .ok }
  | xser : CommandEffect s .xser { s with KS := serialise s.X, ERR := .ok }
  | init (klen nlen : Byte) (rounds : Variant) (sw : WordFile) (hsw : HasConstants sw) :
      CommandEffect s (.init klen nlen rounds)
        { s with S := sw, RV := rounds, CUR := 0, KEYED := true, ERR := .ok }
  | ctrinc (hk : s.KEYED = true) : CommandEffect s .ctrinc { s with S := counterIncrement s.S, ERR := .ok }
  | genblk (hk : s.KEYED = true) : CommandEffect s .genblk { generateBlock s with ERR := .ok }
  | reset (hk : s.KEYED = true) : CommandEffect s .reset { s with S := atBlock s.S 0, CUR := 0, ERR := .ok }
  | xorb (hk : s.KEYED = true) (b : Byte) (r : BitVec 64) :
      CommandEffect s (.xorb b) { (nextKsByte s).2 with RESULT := r, ERR := .ok }
  | nextint (hk : s.KEYED = true) (w : Fin 4) (r : BitVec 64) :
      CommandEffect s (.nextint w) { afterPulls (2 ^ w.val) s with RESULT := r, ERR := .ok }
  | xor (hk : s.KEYED = true) (pulls stored : Nat) (e : ErrCode) :
      CommandEffect s .xor { xorState s pulls stored with ERR := e }

theorem hasConstants_keySchedule32 (key : Vector Byte 32) (nonce : Vector Byte 8) :
    HasConstants (keySchedule32 key nonce) := .inl ⟨rfl, rfl, rfl, rfl⟩

/-- A 16-byte key stands in both halves (R113). -/
theorem hasConstants_keySchedule16 (key : Vector Byte 32) (nonce : Vector Byte 8) :
    HasConstants (keySchedule16 key nonce) := .inr ⟨rfl, rfl, rfl, rfl, rfl, rfl, rfl, rfl⟩

theorem exec_qr_effect {a b c d : Fin 16} {s t : State} (h : exec (.qr a b c d) s = .next t) :
    CommandEffect s (.qr a b c d) t := by
  change execQr a b c d s = .next t at h
  unfold execQr at h
  split at h
  · cases h; exact .mixed _ _ (.inr ⟨a, b, c, d, rfl⟩)
  · cases h; exact .raised _ .illegalCommand nofun

theorem exec_init_effect {klen nlen : Byte} {rounds : Variant} {s t : State}
    (h : exec (.init klen nlen rounds) s = .next t) : CommandEffect s (.init klen nlen rounds) t := by
  change execInit klen nlen rounds s = .next t at h
  unfold execInit at h
  split at h
  · cases h; exact .raised _ .invalidKeySize nofun
  · split at h
    · cases h; exact .raised _ .invalidNonceSize nofun
    · cases h
      refine .init klen nlen rounds _ ?_
      split
      · exact hasConstants_keySchedule32 _ _
      · exact hasConstants_keySchedule16 _ _

theorem exec_xor_effect {s t : State} (hk : s.KEYED = true) (h : exec .xor s = .next t) : CommandEffect s .xor t := by
  obtain ⟨-, rfl⟩ | ⟨k, -, -, ⟨-, rfl⟩ | ⟨-, -, rfl⟩⟩ := exec_xor_cases hk h
  · exact .xor hk _ _ .ok
  · exact .xor hk k k .busFault
  · exact .xor hk (k + 1) k .busFault

/-- A command that ends in a known state has the effect that state is. -/
theorem CommandEffect.of_eq {i : Instr} {s t u : State} (he : exec i s = .next u) (h : exec i s = .next t)
    (hu : CommandEffect s i u) : CommandEffect s i t := by
  rw [he] at h; cases h; exact hu

/-- The gate of R80: a command that needs a CipherState while there is none has raised `NotKeyed`. -/
theorem CommandEffect.of_gated {i : Instr} {s t : State} (hn : needsKeyed i = true) (h : exec i s = .next t)
    (hkeyed : s.KEYED = true → CommandEffect s i t) : CommandEffect s i t := by
  cases hk : s.KEYED with
  | false => exact .of_eq (exec_not_keyed hn hk) h (.raised i .notKeyed nofun)
  | true => exact hkeyed hk

/-- All that a command can do. -/
theorem exec_effect {i : Instr} {s t : State} (h : exec i s = .next t) : CommandEffect s i t := by
  cases i with
  | qr a b c d => exact exec_qr_effect h
  | colrnd => exact .of_eq (finish_eq _) h (.mixed _ _ (by simp))
  | rowrnd => exact .of_eq (finish_eq _) h (.mixed _ _ (by simp))
  | dblrnd => exact .of_eq (finish_eq _) h (.mixed _ _ (by simp))
  | init klen nlen rounds => exact exec_init_effect h
  | ctrinc => exact .of_gated rfl h fun hk => .of_eq (exec_ctrinc hk) h (.ctrinc hk)
  | genblk => exact .of_gated rfl h fun hk => .of_eq (exec_genblk hk) h (.genblk hk)
  | xload => exact .of_gated rfl h fun hk => .of_eq (exec_xload hk) h (.mixed _ _ (by simp))
  | xadd => exact .of_gated rfl h fun hk => .of_eq (exec_xadd hk) h (.mixed _ _ (by simp))
  | xser => exact .of_eq (finish_eq _) h .xser
  | xorb b => exact .of_gated rfl h fun hk => .of_eq (exec_xorb hk b) h (.xorb hk b _)
  | xor => exact .of_gated rfl h fun hk => exec_xor_effect hk h
  | nextint w => exact .of_gated rfl h fun hk => .of_eq (exec_nextint hk w) h (.nextint hk w _)
  | reset => exact .of_gated rfl h fun hk => .of_eq (exec_reset hk) h (.reset hk)

/-! ## What a command leaves unchanged -/

/-- The registers that only the host writes are unchanged (R34, R35, R44). -/
structure HostRegsKept (s t : State) : Prop where
  src : t.SRC = s.SRC
  dst : t.DST = s.DST
  len : t.LEN = s.LEN
  key : t.KEY = s.KEY
  nonce : t.NONCE = s.NONCE

/-- What no register write changes, and so only a command or the hardware reset (R23, R30, R31, R41 to R43, R52). -/
structure CommandFieldsKept (s t : State) : Prop where
  words : t.S = s.S
  cur : t.CUR = s.CUR
  rv : t.RV = s.RV
  keyed : t.KEYED = s.KEYED
  result : t.RESULT = s.RESULT
  xcnt : t.XCNT = s.XCNT
  dmem : t.dmem = s.dmem

namespace CommandEffect

variable {i : Instr} {s t : State}

theorem hostRegsKept (h : CommandEffect s i t) : HostRegsKept s t := by
  cases h with
  | raised | mixed | xser | init | ctrinc | genblk | reset => exact ⟨rfl, rfl, rfl, rfl, rfl⟩
  | xorb => constructor <;> simp
  | nextint => constructor <;> simp
  | xor => constructor <;> simp [xorState]

theorem dmem_xcnt (h : CommandEffect s i t) (hi : i ≠ .xor) : t.dmem = s.dmem ∧ t.XCNT = s.XCNT := by
  cases h with
  | raised | mixed | xser | init | ctrinc | genblk | reset => exact ⟨rfl, rfl⟩
  | xorb => simp
  | nextint => simp
  | xor => exact absurd rfl hi

/-- `RV` and `KEYED` are written by an `INIT` that succeeds, and by nothing else (R31, R41). -/
theorem rv_keyed (h : CommandEffect s i t) :
    (t.RV = s.RV ∧ t.KEYED = s.KEYED) ∨ (t.ERR = .ok ∧ t.KEYED = true ∧ ∃ klen nlen, i = .init klen nlen t.RV) := by
  cases h with
  | raised | mixed | xser | ctrinc | genblk | reset => exact .inl ⟨rfl, rfl⟩
  | init klen nlen rounds => exact .inr ⟨rfl, rfl, klen, nlen, rfl⟩
  | xorb => simp
  | nextint => simp
  | xor => simp [xorState]

/-- Pulls and the commands on the counter write no word of `S` but 8 and 9 (R23). -/
theorem words (h : CommandEffect s i t) (hi : ∀ klen nlen rounds, i ≠ .init klen nlen rounds) (j : Fin 16)
    (h8 : j ≠ 8) (h9 : j ≠ 9) : t.S[j] = s.S[j] := by
  have n8 : j.val ≠ 8 := fun e => h8 (Fin.ext e)
  have n9 : j.val ≠ 9 := fun e => h9 (Fin.ext e)
  cases h with
  | raised | mixed | xser => rfl
  | init klen nlen rounds => exact absurd rfl (hi klen nlen rounds)
  | ctrinc | genblk => exact counterIncrement_other s.S j.isLt n8 n9
  | reset => exact atBlock_other s.S 0 j.isLt n8 n9
  | xorb => exact afterPulls_word 1 s j.isLt n8 n9
  | nextint _ w => exact afterPulls_word (2 ^ w.val) s j.isLt n8 n9
  | xor _ pulls => exact afterPulls_word pulls s j.isLt n8 n9

/-- `RESULT` is written by an `XORB` or `NEXTINT` that completes, and by nothing else (R43). -/
theorem result (h : CommandEffect s i t) :
    t.RESULT = s.RESULT ∨ (t.ERR = .ok ∧ ((∃ b, i = .xorb b) ∨ ∃ w, i = .nextint w)) := by
  cases h with
  | raised | mixed | xser | init | ctrinc | genblk | reset => exact .inl rfl
  | xorb _ b => exact .inr ⟨rfl, .inl ⟨b, rfl⟩⟩
  | nextint _ w => exact .inr ⟨rfl, .inr ⟨w, rfl⟩⟩
  | xor => exact .inl (by simp [xorState])

/-- `CUR` is written by `INIT`, `RESET` and the byte commands (R30). -/
theorem cur (h : CommandEffect s i t) :
    t.CUR = s.CUR ∨ (∃ klen nlen rounds, i = .init klen nlen rounds) ∨ i = .reset ∨ (∃ b, i = .xorb b) ∨ i = .xor ∨
      ∃ w, i = .nextint w := by
  cases h with
  | raised | mixed | xser | ctrinc | genblk => exact .inl rfl
  | init klen nlen rounds => exact .inr (.inl ⟨klen, nlen, rounds, rfl⟩)
  | reset => exact .inr (.inr (.inl rfl))
  | xorb _ b => exact .inr (.inr (.inr (.inl ⟨b, rfl⟩)))
  | xor => exact .inr (.inr (.inr (.inr (.inl rfl))))
  | nextint _ w => exact .inr (.inr (.inr (.inr (.inr ⟨w, rfl⟩))))

theorem mixing (h : CommandEffect s i t)
    (hi : i ∈ [.colrnd, .rowrnd, .dblrnd, .xload, .xadd] ∨ ∃ a b c d, i = .qr a b c d) :
    t.S = s.S ∧ t.KS = s.KS ∧ t.CUR = s.CUR := by
  cases h with
  | raised | mixed => exact ⟨rfl, rfl, rfl⟩
  | xser | init | ctrinc | genblk | reset | xorb | nextint | xor => simp at hi

theorem serialising (h : CommandEffect s .xser t) : t.S = s.S ∧ t.X = s.X ∧ t.CUR = s.CUR := by
  cases h with
  | raised | xser => exact ⟨rfl, rfl, rfl⟩
  | mixed _ _ hi => simp at hi

theorem counting (h : CommandEffect s .ctrinc t) : t.X = s.X ∧ t.KS = s.KS ∧ t.CUR = s.CUR := by
  cases h with
  | raised | ctrinc => exact ⟨rfl, rfl, rfl⟩
  | mixed _ _ hi => simp at hi

theorem generating (h : CommandEffect s .genblk t) : t.CUR = s.CUR := by
  cases h with
  | raised | mixed | genblk => rfl

/-- `INIT` and `RESET` leave the working file and the block alone (R115, R168). -/
theorem restarting (h : CommandEffect s i t) (hi : i = .reset ∨ ∃ klen nlen rounds, i = .init klen nlen rounds) :
    t.X = s.X ∧ t.KS = s.KS := by
  cases h with
  | raised | init | reset => exact ⟨rfl, rfl⟩
  | mixed _ _ hm =>
    obtain rfl | ⟨klen, nlen, rounds, rfl⟩ := hi
    · simp at hm
    · simp at hm
  | xser | ctrinc | genblk | xorb | nextint | xor => simp at hi

end CommandEffect

/-- Settles O48, clause by clause from what each command leaves unchanged. -/
theorem commandsOtherThanXorLeaveTheRestUnchanged : Obligations.CommandsOtherThanXorLeaveTheRestUnchanged := by
  intro i s t hx h
  have he := exec_effect h
  obtain ⟨hmem, hcnt⟩ := he.dmem_xcnt hx
  obtain ⟨hsrc, hdst, hlen, hkey, hnonce⟩ := he.hostRegsKept
  refine ⟨fun a => by simp only [State.byteAt, hmem], hcnt, hkey, hnonce, hsrc, hdst, hlen, fun hi => ?_, fun hb hw => ?_,
    he.mixing, ?_, ?_, ?_, he.restarting⟩
  · obtain ⟨hrv, hk⟩ | ⟨-, -, klen, nlen, hinit⟩ := he.rv_keyed
    · exact ⟨hrv, hk, he.words hi⟩
    · exact absurd hinit (hi _ _ _)
  · obtain hr | ⟨-, ⟨b, hi⟩ | ⟨w, hi⟩⟩ := he.result
    · exact hr
    · exact absurd hi (hb b)
    · exact absurd hi (hw w)
  · rintro rfl; exact he.serialising
  · rintro rfl; exact he.counting
  · rintro rfl; exact he.generating

/-! ## What a step can change -/

/-- A write to a register other than `CMD` changes what the register map says (R34, R35, R44, R45). -/
theorem writeReg_writers {r : Reg} {v : Word} {s t : State} (hr : r ≠ .cmd) (h : writeReg r v s = .next t) :
    (t.SRC ≠ s.SRC → r = .src) ∧ (t.DST ≠ s.DST → r = .dst) ∧ (t.LEN ≠ s.LEN → r = .len) ∧
    (t.KEY ≠ s.KEY → ∃ k, r = .keyw k) ∧ (t.NONCE ≠ s.NONCE → ∃ k, r = .noncew k) := by
  cases r with
  | cmd => exact absurd rfl hr
  | src | dst | len | keyw | noncew | x | status | err | xcnt | resultLo | resultHi | s | ksw => cases h; simp

/-- A write to a register other than `CMD` runs no command: what only commands change is unchanged, `ERR` too (R40). -/
theorem writeReg_commandFieldsKept {r : Reg} {v : Word} {s t : State} (hr : r ≠ .cmd) (h : writeReg r v s = .next t) :
    CommandFieldsKept s t ∧ t.ERR = s.ERR := by
  cases r with
  | cmd => exact absurd rfl hr
  | src | dst | len | keyw | noncew | x | status | err | xcnt | resultLo | resultHi | s | ksw =>
    cases h; exact ⟨⟨rfl, rfl, rfl, rfl, rfl, rfl, rfl⟩, rfl⟩

/-- Apart from the hardware reset, a step runs the host's command or leaves alone what only commands change. -/
theorem step_kept_or_command {s t : State} (h : step s = .next t) (hr : ¬NextAccess s .hardwareReset) :
    CommandFieldsKept s t ∨
      ∃ i rest, NextCommand s i ∧ CommandEffect { s with pending := rest, reply := .done } i t := by
  obtain ⟨rest, answer, rfl⟩ | ⟨size, off, r, v, rest, -, -, hc, hw⟩ | ⟨size, off, w, rest, -, -, rfl⟩ |
    ⟨size, off, w, rest, i, hp, hreg, hd, hw⟩ | ⟨rest, hp, -⟩ := step_cases h
  · exact .inl ⟨rfl, rfl, rfl, rfl, rfl, rfl, rfl⟩
  · obtain ⟨hwords, hcur, hrv, hkeyed, hresult, hxcnt, hdmem⟩ := (writeReg_commandFieldsKept hc hw).1
    exact .inl ⟨hwords, hcur, hrv, hkeyed, hresult, hxcnt, hdmem⟩
  · exact .inl ⟨rfl, rfl, rfl, rfl, rfl, rfl, rfl⟩
  · exact .inr ⟨i, rest, ⟨size, off, w, ⟨rest, hp⟩, hreg, hd⟩, exec_effect hw⟩
  · exact absurd ⟨rest, hp⟩ hr

/-- Settles O44: a register write leaves `S` alone, and so does every command but `INIT` outside the counter words. -/
theorem onlyInitChangesTheNonCounterWords : Obligations.OnlyInitChangesTheNonCounterWords := by
  intro s t h hr hinit j h8 h9
  obtain hkept | ⟨i, rest, hi, he⟩ := step_kept_or_command h hr
  · rw [hkept.words]
  · exact he.words (fun klen nlen rounds e => hinit klen nlen rounds (e ▸ hi)) j h8 h9

/-- Settles O45 by the commands that write `RV`, `KEYED` and `CUR`. -/
theorem onlyTheListedCommandsChangeTheStatus : Obligations.OnlyTheListedCommandsChangeTheStatus := by
  intro s t h hr
  obtain hkept | ⟨i, rest, hi, he⟩ := step_kept_or_command h hr
  · exact ⟨fun c => absurd hkept.rv c, fun c => absurd hkept.keyed c, fun c => absurd hkept.cur c⟩
  · refine ⟨fun c => ?_, fun c => ?_, fun c => ?_⟩
    · obtain ⟨hrv, -⟩ | ⟨herr, -, klen, nlen, rfl⟩ := he.rv_keyed
      · exact absurd hrv c
      · exact ⟨herr, klen, nlen, hi⟩
    · obtain ⟨-, hk⟩ | ⟨herr, hk, klen, nlen, rfl⟩ := he.rv_keyed
      · exact absurd hk c
      · exact ⟨hk, herr, klen, nlen, t.RV, hi⟩
    · obtain hcur | ⟨klen, nlen, rounds, rfl⟩ | rfl | ⟨b, rfl⟩ | rfl | ⟨w, rfl⟩ := he.cur
      · exact absurd hcur c
      · exact .inl ⟨klen, nlen, rounds, hi⟩
      · exact .inr (.inl hi)
      · exact .inr (.inr (.inl ⟨b, hi⟩))
      · exact .inr (.inr (.inr (.inl hi)))
      · exact .inr (.inr (.inr (.inr ⟨w, hi⟩)))

/-- The registers the host writes, and `ERR`, change only in a step that writes them, `ERR` in one that writes `CMD`
(R34, R35, R40, R44). -/
theorem step_hostWriters {s t : State} (h : step s = .next t) (hr : ¬NextAccess s .hardwareReset) :
    (t.SRC ≠ s.SRC → NextWrites s .src) ∧ (t.DST ≠ s.DST → NextWrites s .dst) ∧ (t.LEN ≠ s.LEN → NextWrites s .len) ∧
    (t.KEY ≠ s.KEY → ∃ k, NextWrites s (.keyw k)) ∧ (t.NONCE ≠ s.NONCE → ∃ k, NextWrites s (.noncew k)) ∧
    (t.ERR ≠ s.ERR → NextWrites s .cmd) := by
  obtain ⟨rest, answer, rfl⟩ | ⟨size, off, r, v, rest, hp, hreg, hc, hw⟩ | ⟨size, off, w, rest, hp, hreg, rfl⟩ |
    ⟨size, off, w, rest, i, hp, hreg, -, hw⟩ | ⟨rest, hp, -⟩ := step_cases h
  · simp
  · have hnext : NextWrites s r := ⟨size, off, v, ⟨rest, hp⟩, hreg⟩
    obtain ⟨hsrc, hdst, hlen, hkey, hnonce⟩ := writeReg_writers hc hw
    exact ⟨fun c => hsrc c ▸ hnext, fun c => hdst c ▸ hnext, fun c => hlen c ▸ hnext,
      fun c => let ⟨k, e⟩ := hkey c; ⟨k, e ▸ hnext⟩, fun c => let ⟨k, e⟩ := hnonce c; ⟨k, e ▸ hnext⟩,
      fun c => absurd (writeReg_commandFieldsKept hc hw).2 c⟩
  · have hnext : NextWrites s .cmd := ⟨size, off, w, ⟨rest, hp⟩, hreg⟩
    simp [hnext]
  · obtain ⟨hsrc, hdst, hlen, hkey, hnonce⟩ := (exec_effect hw).hostRegsKept
    exact ⟨fun c => absurd hsrc c, fun c => absurd hdst c, fun c => absurd hlen c, fun c => absurd hkey c,
      fun c => absurd hnonce c, fun _ => ⟨size, off, w, ⟨rest, hp⟩, hreg⟩⟩
  · exact absurd ⟨rest, hp⟩ hr

/-- Settles O46: the host's registers and `ERR` by the access that writes them, `XCNT` and `RESULT` by the command. -/
theorem eachRegisterHasItsOwnWriters : Obligations.EachRegisterHasItsOwnWriters := by
  intro s t h hr
  obtain ⟨hsrc, hdst, hlen, hkey, hnonce, herr⟩ := step_hostWriters h hr
  refine ⟨hsrc, hdst, hlen, hkey, hnonce, herr, fun c => ?_, fun c => ?_⟩
  · obtain hkept | ⟨i, rest, hi, he⟩ := step_kept_or_command h hr
    · exact absurd hkept.xcnt c
    · by_cases hx : i = .xor
      · exact hx ▸ hi
      · exact absurd (he.dmem_xcnt hx).2 c
  · obtain hkept | ⟨i, rest, hi, he⟩ := step_kept_or_command h hr
    · exact absurd hkept.result c
    · obtain hres | ⟨hok, ⟨b, rfl⟩ | ⟨w, rfl⟩⟩ := he.result
      · exact absurd hres c
      · exact ⟨hok, .inl ⟨b, hi⟩⟩
      · exact ⟨hok, .inr ⟨w, hi⟩⟩

/-! ## The invariant -/

/-- The invariant is a matter of the fields that only commands change. -/
theorem Inv.congr {s t : State} (h : Inv s) (k : CommandFieldsKept s t) : Inv t := by
  obtain ⟨hwords, hcur, hrv, hkeyed, hresult, hxcnt, hdmem⟩ := k
  refine ⟨hdmem ▸ h.memory, fun hk => ?_, fun hk => ?_⟩
  · rw [hwords, hcur, hrv, hresult, hxcnt]
    exact h.unkeyed (hkeyed ▸ hk)
  · rw [hwords]
    exact h.keyed (hkeyed ▸ hk)

/-- The constants and the two key halves stand outside the counter words (R22, R23). -/
theorem HasConstants.congr {sw sw' : WordFile} (h : HasConstants sw)
    (heq : ∀ j : Fin 16, j ≠ 8 → j ≠ 9 → sw'[j] = sw[j]) : HasConstants sw' := by
  have word : ∀ (n : Nat) (hn : n < 16), n ≠ 8 → n ≠ 9 → sw'[n] = sw[n] := fun n hn h8 h9 =>
    heq ⟨n, hn⟩ (fun e => h8 (congrArg Fin.val e)) (fun e => h9 (congrArg Fin.val e))
  unfold HasConstants at *
  simp only [word _ _, ne_eq, Nat.reduceEqDiff, not_false_eq_true]
  exact h

/-- Every command keeps data memory in canonical form. -/
theorem CommandEffect.memory_wf {i : Instr} {s t : State} (h : CommandEffect s i t) (hm : Memory.wf s.dmem) :
    Memory.wf t.dmem := by
  cases h with
  | raised | mixed | xser | init | ctrinc | genblk | reset => exact hm
  | xorb => simpa using hm
  | nextint => simpa using hm
  | xor _ _ stored => exact xorMem_wf hm stored

/-- The commands that change what the invariant speaks of: an `INIT` that succeeds, and those past the gate of R80. -/
theorem CommandEffect.kept_or_keyed {i : Instr} {s t : State} (h : CommandEffect s i t) :
    CommandFieldsKept s t ∨ (t.KEYED = true ∧ HasConstants t.S) ∨
      (s.KEYED = true ∧ ∀ klen nlen rounds, i ≠ .init klen nlen rounds) := by
  cases h with
  | raised | mixed | xser => exact .inl ⟨rfl, rfl, rfl, rfl, rfl, rfl, rfl⟩
  | init _ _ _ _ hsw => exact .inr (.inl ⟨rfl, hsw⟩)
  | ctrinc hk | genblk hk | reset hk | xorb hk | nextint hk | xor hk => exact .inr (.inr ⟨hk, nofun⟩)

/-- A keyed state owes the invariant its memory and its constants. -/
theorem Inv.of_keyed {s : State} (hm : Memory.wf s.dmem) (hk : s.KEYED = true) (hc : HasConstants s.S) : Inv s :=
  ⟨hm, fun hn => absurd (hk.symm.trans hn) nofun, fun _ => hc⟩

/-- Every command keeps the invariant: no command but `INIT` makes an unkeyed block a keyed one, and on a keyed block
only `INIT` writes the constants and the key (R22, R23, R41). -/
theorem CommandEffect.inv {i : Instr} {s t : State} (h : CommandEffect s i t) (hs : Inv s) : Inv t := by
  have hm := h.memory_wf hs.memory
  obtain hkept | ⟨hk, hc⟩ | ⟨hk, hi⟩ := h.kept_or_keyed
  · exact hs.congr hkept
  · exact .of_keyed hm hk hc
  · have hk' : t.KEYED = true := by
      obtain ⟨-, hkeep⟩ | ⟨-, hset, -⟩ := h.rv_keyed
      · exact hkeep.trans hk
      · exact hset
    exact .of_keyed hm hk' ((hs.keyed hk).congr (h.words hi))

/-- The values of R48 meet the invariant over any data memory in canonical form. -/
theorem inv_hardwareReset {s : State} (hm : Memory.wf s.dmem) : Inv (hardwareReset s) :=
  ⟨hm, fun _ => ⟨rfl, rfl, rfl, rfl, rfl⟩, nofun⟩

/-- Settles O50: the reset event gives the values of R48, a command keeps the invariant, and no other access changes
what it speaks of. -/
theorem everyStepKeepsTheInvariant : Obligations.EveryStepKeepsTheInvariant := by
  intro s t hs h
  by_cases hr : NextAccess s .hardwareReset
  · obtain ⟨rest, hp⟩ := hr
    rw [step_of_cons hp] at h
    cases h
    exact inv_hardwareReset hs.memory
  · obtain hkept | ⟨i, rest, -, he⟩ := step_kept_or_command h hr
    · exact hs.congr hkept
    · exact he.inv (hs.congr ⟨rfl, rfl, rfl, rfl, rfl, rfl, rfl⟩)

/-- Settles O49: the reset state is the reset event's, over the empty memory, and its cursor is 0. -/
theorem theInvariantHoldsAtReset : Obligations.TheInvariantHoldsAtReset :=
  ⟨inv_hardwareReset (s := State.reset) ⟨.nil, nofun⟩, .of_cursor_zero rfl⟩

/-- Settles O1: each file reads 0 at every index, and the reset event answers the state of R48. -/
theorem resetPutsEveryPieceOfStateAtZero : Obligations.ResetPutsEveryPieceOfStateAtZero := by
  refine ⟨⟨fun i => ?_, fun k => ?_, fun k => ?_, fun k => ?_, rfl, rfl, rfl, rfl, rfl, rfl, rfl, rfl, rfl⟩,
    fun s rest hp => ⟨_, step_of_cons hp, rfl⟩⟩
  · simp [State.reset]
  · simp [State.reset]
  · simp [State.reset]
  · simp [State.reset]

/-! ## The accesses of the register space -/

/-- A step on an aligned word read of a register: its value, and nothing else changed (R45, R63). -/
theorem step_read {s : State} {rest : List HostAccess} {r : Reg} (hp : s.pending = .read 4 r.offset :: rest) :
    step s = .next { s with pending := rest, reply := .data (readReg r s) } := by
  rw [step_of_cons hp]
  exact perform_rd r _ |>.trans (by cases r <;> rfl)

/-- A step on an aligned word write to a register. -/
theorem step_write {s : State} {rest : List HostAccess} {r : Reg} {v : Word}
    (hp : s.pending = .write 4 r.offset v :: rest) :
    step s = writeReg r v { s with pending := rest, reply := .done } := by
  rw [step_of_cons hp]
  exact perform_wr r v _

/-- Settles O40: `CMD` stands at offset 0, and `withFetchWord` writes the word itself, which is below 2^32. -/
theorem aStepRunsTheDecodedCommand : Obligations.AStepRunsTheDecodedCommand := by
  refine ⟨fun s rest w i hp hd => ?_, fun s rest w e hp hd => ?_, fun s w i hw hd => ?_⟩
  · exact (step_write (r := .cmd) hp).trans (command_of_ok hd _)
  · exact (step_write (r := .cmd) hp).trans (command_of_error hd _)
  · have hp : (s.withFetchWord 32 w).pending = .write 4 Reg.cmd.offset (BitVec.ofNat 32 w) :: s.pending := by
      simp only [State.withFetchWord, Nat.mod_eq_of_lt hw, Reg.offset]
    exact (step_write hp).trans (command_of_ok hd _)

/-- A word is the little-endian number of its bytes (R15). -/
theorem eq_le32 {n : Nat} {b : Vector Byte n} {o : Nat} (h : o + 4 ≤ n) {v : Word}
    (hb : ∀ j, ∀ _ : j < 4, v.extractLsb' (8 * j) 8 = b[o + j]) : le32 b o h = v := by
  rw [← le32Of_byteOf v]
  simp only [le32, byteOf, hb 0 (by omega), hb 1 (by omega), hb 2 (by omega), hb 3 (by omega), Nat.add_zero]

/-- The fields of `STATUS` fill the word (R38). -/
theorem eq_statusWord {s : State} {v : Word} (hkeyed : v.getLsbD 0 = s.KEYED)
    (hrv : v.extractLsb' 1 2 = BitVec.ofNat 2 s.RV.code) (hlow : v.extractLsb' 3 5 = 0)
    (hcur : v.extractLsb' 8 6 = BitVec.ofNat 6 s.CUR.val) (hhigh : v.extractLsb' 14 18 = 0) : statusWord s = v := by
  have hv := v.isLt
  have h0 : v.toNat % 2 = s.KEYED.toNat := by
    rw [← hkeyed, BitVec.getLsbD, Nat.testBit_zero]
    rcases Nat.mod_two_eq_zero_or_one v.toNat with h | h <;> simp [h]
  have h1 := congrArg BitVec.toNat hrv
  have h2 := congrArg BitVec.toNat hlow
  have h3 := congrArg BitVec.toNat hcur
  have h4 := congrArg BitVec.toNat hhigh
  have := s.RV.code_lt
  have := s.CUR.isLt
  simp only [BitVec.extractLsb'_toNat, Nat.shiftRight_eq_div_pow, BitVec.ofNat_eq_ofNat,
    BitVec.toNat_ofNat] at h1 h2 h3 h4
  apply BitVec.eq_of_toNat_eq
  rw [statusWord, BitVec.toNat_ofNat]
  omega

/-- The code fills the low byte of `ERR`, and the rest reads 0 (R40). -/
theorem eq_errWord {e : ErrCode} {v : Word} (hlow : v.extractLsb' 0 8 = e.code) (hhigh : v.extractLsb' 8 24 = 0) :
    errWord e = v := by
  have hv := v.isLt
  have h0 := congrArg BitVec.toNat hlow
  have h1 := congrArg BitVec.toNat hhigh
  simp only [BitVec.extractLsb'_toNat, Nat.shiftRight_eq_div_pow, BitVec.ofNat_eq_ofNat,
    BitVec.toNat_ofNat] at h0 h1
  apply BitVec.eq_of_toNat_eq
  rw [errWord, BitVec.toNat_setWidth]
  omega

/-- Settles O41: each offset names its register, and the word a read returns is the one with the stated fields. -/
theorem readsReturnTheRegisterMapAndChangeNothing : Obligations.ReadsReturnTheRegisterMapAndChangeNothing := by
  intro s rest off hp v hv
  have read : ∀ r : Reg, off = r.offset → readReg r s = v →
      step s = .next { s with pending := rest, reply := .data v } := by
    rintro r rfl rfl
    exact step_read hp
  obtain ⟨ho, h⟩ | ⟨ho, hkeyed, hrv, hlow, hcur, hhigh⟩ | ⟨ho, hlow, hhigh⟩ | ⟨ho, h⟩ | ⟨ho, h⟩ | ⟨ho, h⟩ | ⟨ho, h⟩ |
    ⟨ho, h⟩ | ⟨ho, h⟩ | ⟨k, hk, ho, h⟩ | ⟨k, hk, ho, h⟩ | ⟨i, hi, ho, h⟩ | ⟨i, hi, ho, h⟩ | ⟨i, hi, ho, h⟩ := hv
  · exact read .cmd ho h.symm
  · exact read .status ho (eq_statusWord hkeyed hrv hlow hcur hhigh)
  · exact read .err ho (eq_errWord hlow hhigh)
  · exact read .xcnt ho h.symm
  · exact read .resultLo ho h.symm
  · exact read .resultHi ho h.symm
  · exact read .src ho h.symm
  · exact read .dst ho h.symm
  · exact read .len ho h.symm
  · exact read (.keyw ⟨k, hk⟩) ho (eq_le32 _ h)
  · exact read (.noncew ⟨k, hk⟩) ho (eq_le32 _ h)
  · exact read (.s ⟨i, hi⟩) ho h.symm
  · exact read (.x ⟨i, hi⟩) ho h.symm
  · exact read (.ksw ⟨i, hi⟩) ho (eq_le32 _ h)

/-- Byte `j` of a stored word is byte `j` of the word (R46). -/
theorem putWord_byte {n : Nat} (b : Vector Byte n) (o : Nat) (w : Word) (h : o + 4 ≤ n) {j : Nat} (hj : j < 4) :
    (putWord b o w h)[o + j] = w.extractLsb' (8 * j) 8 := by
  match j, hj with
  | 0, _ => simp [putWord, byteOf]
  | 1, _ => simp [putWord, byteOf]
  | 2, _ => simp [putWord, byteOf]
  | 3, _ => simp [putWord, byteOf]

/-- The registers that ignore a write (R36, R45). -/
theorem step_write_readOnly {s : State} {rest : List HostAccess} {off : Nat} {v : Word}
    (hp : s.pending = .write 4 off v :: rest)
    (h : off ∈ [0x004, 0x008, 0x00C, 0x010, 0x014] ∨ (off % 4 = 0 ∧ 0x080 ≤ off ∧ off < 0x0C0) ∨
      (off % 4 = 0 ∧ 0x100 ≤ off ∧ off < 0x140)) : step s = .next { s with pending := rest, reply := .done } := by
  have ignored : ∀ r : Reg, off = r.offset → (∀ u, writeReg r v u = .next u) →
      step s = .next { s with pending := rest, reply := .done } := by
    rintro r rfl hw
    exact (step_write hp).trans (hw _)
  obtain h | ⟨h4, hlo, hhi⟩ | ⟨h4, hlo, hhi⟩ := h
  · simp only [List.mem_cons, List.not_mem_nil, or_false] at h
    obtain h | h | h | h | h := h
    · exact ignored .status h fun _ => rfl
    · exact ignored .err h fun _ => rfl
    · exact ignored .xcnt h fun _ => rfl
    · exact ignored .resultLo h fun _ => rfl
    · exact ignored .resultHi h fun _ => rfl
  · exact ignored (.s ⟨(off - 0x080) / 4, by omega⟩) (by simp only [Reg.offset]; omega) fun _ => rfl
  · exact ignored (.ksw ⟨(off - 0x100) / 4, by omega⟩) (by simp only [Reg.offset]; omega) fun _ => rfl

/-- Settles O42: each offset names its register, and a packed register stores the four bytes of the word. -/
theorem writesFollowTheRegisterMap : Obligations.WritesFollowTheRegisterMap := by
  intro s rest off v hp
  have write : ∀ r : Reg, off = r.offset → step s = writeReg r v { s with pending := rest, reply := .done } := by
    rintro r rfl
    exact step_write hp
  refine ⟨write .src, write .dst, write .len, fun k hk ho => ?_, fun k hk ho => ?_, fun i hi ho => ?_,
    step_write_readOnly hp⟩
  · exact ⟨_, write (.keyw ⟨k, hk⟩) ho, fun j hj => putWord_byte s.KEY (4 * k) v (by omega) hj,
      fun i hi hne => putWord_other s.KEY (4 * k) v (by omega) hi (by omega), rfl⟩
  · exact ⟨_, write (.noncew ⟨k, hk⟩) ho, fun j hj => putWord_byte s.NONCE (4 * k) v (by omega) hj,
      fun i hi hne => putWord_other s.NONCE (4 * k) v (by omega) hi (by omega), rfl⟩
  · exact ⟨_, write (.x ⟨i, hi⟩) ho, by simp, fun j hj hne => by simp [Ne.symm hne], rfl⟩

/-! ## The accesses that are refused -/

/-- Every aligned offset of the space outside its two gaps is that of a register (R36). -/
theorem exists_reg_offset {off : Nat} (h4 : off % 4 = 0) (hgap : ¬(0x024 ≤ off ∧ off ≤ 0x03C))
    (hgap' : ¬(0x068 ≤ off ∧ off ≤ 0x07C)) (hlt : off < 0x140) : ∃ r : Reg, off = r.offset := by
  have range : off < 0x024 ∨ (0x040 ≤ off ∧ off < 0x060) ∨ (0x060 ≤ off ∧ off < 0x068) ∨ (0x080 ≤ off ∧ off < 0x0C0) ∨
      (0x0C0 ≤ off ∧ off < 0x100) ∨ 0x100 ≤ off := by omega
  obtain h | ⟨hlo, hhi⟩ | ⟨hlo, hhi⟩ | ⟨hlo, hhi⟩ | ⟨hlo, hhi⟩ | hlo := range
  · have single : off = 0x000 ∨ off = 0x004 ∨ off = 0x008 ∨ off = 0x00C ∨ off = 0x010 ∨ off = 0x014 ∨ off = 0x018 ∨
        off = 0x01C ∨ off = 0x020 := by omega
    obtain h | h | h | h | h | h | h | h | h := single
    · exact ⟨.cmd, h⟩
    · exact ⟨.status, h⟩
    · exact ⟨.err, h⟩
    · exact ⟨.xcnt, h⟩
    · exact ⟨.resultLo, h⟩
    · exact ⟨.resultHi, h⟩
    · exact ⟨.src, h⟩
    · exact ⟨.dst, h⟩
    · exact ⟨.len, h⟩
  · exact ⟨.keyw ⟨(off - 0x040) / 4, by omega⟩, by simp only [Reg.offset]; omega⟩
  · exact ⟨.noncew ⟨(off - 0x060) / 4, by omega⟩, by simp only [Reg.offset]; omega⟩
  · exact ⟨.s ⟨(off - 0x080) / 4, by omega⟩, by simp only [Reg.offset]; omega⟩
  · exact ⟨.x ⟨(off - 0x0C0) / 4, by omega⟩, by simp only [Reg.offset]; omega⟩
  · exact ⟨.ksw ⟨(off - 0x100) / 4, by omega⟩, by simp only [Reg.offset]; omega⟩

/-- The offsets that name no register (R36, R45). -/
theorem regAt_of_hole {off : Nat} (h : (0x024 ≤ off ∧ off < 0x040) ∨ (0x068 ≤ off ∧ off < 0x080) ∨ 0x140 ≤ off) :
    ∃ e, regAt off = .error e := by
  unfold regAt
  obtain h | h | h := h
  · iterate 9 rw [if_neg (by omega)]
    exact ⟨_, if_pos (by omega)⟩
  · iterate 12 rw [if_neg (by omega)]
    exact ⟨_, if_pos (by omega)⟩
  · iterate 16 rw [if_neg (by omega)]
    exact ⟨_, rfl⟩

/-- The three grounds of R45, R51 and R59 for a refusal. -/
theorem regOf_of_refused {size off : Nat}
    (h : size ≠ 4 ∨ off % 4 ≠ 0 ∨ (0x024 ≤ off ∧ off ≤ 0x03C) ∨ (0x068 ≤ off ∧ off ≤ 0x07C) ∨ 0x140 ≤ off) :
    ∃ e, regOf size off = .error e := by
  unfold regOf
  split
  · exact ⟨_, rfl⟩
  · split
    · exact ⟨_, rfl⟩
    · exact regAt_of_hole (by omega)

/-- Every register write goes on, the write of a command because every command does (R18, R45). -/
theorem writeReg_goesOn (r : Reg) (v : Word) (s : State) : ∃ t, writeReg r v s = .next t := by
  cases r with
  | cmd =>
    show ∃ t, command v s = .next t
    cases hd : decode v with
    | error e => exact ⟨_, command_of_error hd s⟩
    | ok i => rw [command_of_ok hd]; exact everyCommandGoesOn i s
  | src | dst | len | keyw | noncew | x | status | err | xcnt | resultLo | resultHi | s | ksw => exact ⟨_, rfl⟩

/-- Settles O43: a listed access reaches no register, and any other one reaches the register at its offset. -/
theorem exactlyTheListedAccessesAreRefused : Obligations.ExactlyTheListedAccessesAreRefused := by
  intro s rest size off v a ha hp
  refine ⟨fun h => ?_, fun h => ?_⟩
  · obtain ⟨e, he⟩ := regOf_of_refused h
    refine ⟨e, ?_⟩
    rw [step_of_cons hp]
    obtain rfl | rfl := ha
    · simp only [perform, he]
    · simp only [perform, he]
  · obtain ⟨rfl, h4, hgap, hgap', hlt⟩ : size = 4 ∧ off % 4 = 0 ∧ ¬(0x024 ≤ off ∧ off ≤ 0x03C) ∧
        ¬(0x068 ≤ off ∧ off ≤ 0x07C) ∧ off < 0x140 := by omega
    obtain ⟨r, rfl⟩ := exists_reg_offset h4 hgap hgap' hlt
    obtain rfl | rfl := ha
    · exact ⟨_, step_read hp⟩
    · rw [step_write hp]
      exact writeReg_goesOn r v _

end Sys2Proof.Machine

/-! Proofs about data memory (spec/20_memory.md R52, R54, R60). Noninterference is an equation at each level of the
machine, from one pull up to one step: with another data memory the outcome is the same but for that memory
(`withMemory`). -/

namespace Sys2Proof.Machine

open Sys2Proof.Statements

/-! ## One byte written -/

/-- Settles O51: an admitted write is `Memory.write`, whose laws are those of `Laws/Memory.lean`. -/
theorem aWrittenByteReadsBackAndNoOtherChanges : Obligations.AWrittenByteReadsBackAndNoOtherChanges := by
  intro s t a v hwf hw
  obtain ⟨-, rfl⟩ := memWrite_eq_some hw
  refine ⟨?_, fun b hb => ?_, Memory.write_wf hwf a.isLt v, rfl⟩
  · rw [byteAt_write hwf, if_pos rfl]
  · rw [byteAt_write hwf, if_neg hb]

/-! ## Which addresses are admitted -/

theorem CommandEffect.dmemHoles {i : Instr} {s t : State} (h : CommandEffect s i t) : t.dmemHoles = s.dmemHoles := by
  cases h with
  | raised | mixed | xser | init | ctrinc | genblk | reset => rfl
  | xorb => simp
  | nextint => simp
  | xor => simp [xorState]

theorem writeReg_dmemHoles {r : Reg} {v : Word} {s t : State} (hr : r ≠ .cmd) (h : writeReg r v s = .next t) :
    t.dmemHoles = s.dmemHoles := by
  cases r with
  | cmd => exact absurd rfl hr
  | src | dst | len | keyw | noncew | x | status | err | xcnt | resultLo | resultHi | s | ksw => cases h; rfl

/-- No step changes which addresses the platform admits (R54), an `XOR` and the hardware reset included. -/
theorem step_dmemHoles {s t : State} (h : step s = .next t) : t.dmemHoles = s.dmemHoles := by
  obtain ⟨rest, answer, rfl⟩ | ⟨size, off, r, v, rest, -, -, hc, hw⟩ | ⟨size, off, w, rest, -, -, rfl⟩ |
    ⟨size, off, w, rest, i, -, -, -, hw⟩ | ⟨rest, -, rfl⟩ := step_cases h
  · rfl
  · exact (writeReg_dmemHoles hc hw :)
  · rfl
  · exact (exec_effect hw).dmemHoles
  · rfl

/-! ## Noninterference of data memory -/

/-- An outcome with the data memory of its next state replaced. -/
def withMemory (m : Memory) : Host.Outcome State Fault Refusal → Host.Outcome State Fault Refusal
  | .next t => .next { t with dmem := m }
  | .fault f => .fault f
  | .refused r => .refused r

theorem nextKsByte_withMemory (m : Memory) (s : State) :
    nextKsByte { s with dmem := m } = ((nextKsByte s).1, { (nextKsByte s).2 with dmem := m }) :=
  (nextKsByte_frame s m s.XCNT).trans (by simp only [nextKsByte_XCNT])

theorem afterPulls_withMemory (m : Memory) (n : Nat) (s : State) :
    afterPulls n { s with dmem := m } = { afterPulls n s with dmem := m } := by
  induction n with
  | zero => rfl
  | succ n ih => simp only [afterPulls, ih, nextKsByte_withMemory]

theorem drawn_withMemory (m : Memory) (n j : Nat) (s : State) : drawn { s with dmem := m } n j = drawn s n j := by
  induction n with
  | zero => rfl
  | succ n ih => simp only [drawn, ih, pulledByte, afterPulls_withMemory, nextKsByte_withMemory]

/-- The gate of R80 asks for `KEYED` alone, so a gated command is as independent of data memory as its body. -/
theorem whenKeyed_withMemory {m : Memory} {s : State} {body body' : Host.Outcome State Fault Refusal}
    (h : body' = withMemory m body) : whenKeyed { s with dmem := m } body' = withMemory m (whenKeyed s body) := by
  subst h
  unfold whenKeyed
  split
  · rfl
  · rfl

theorem execQr_withMemory (m : Memory) (a b c d : Fin 16) (s : State) :
    execQr a b c d { s with dmem := m } = withMemory m (execQr a b c d s) := by
  unfold execQr
  split
  · rfl
  · rfl

theorem execInit_withMemory (m : Memory) (klen nlen : Byte) (rounds : Variant) (s : State) :
    execInit klen nlen rounds { s with dmem := m } = withMemory m (execInit klen nlen rounds s) := by
  unfold execInit
  split
  · rfl
  · split
    · rfl
    · rfl

theorem execXorb_withMemory (m : Memory) (b : Byte) (s : State) :
    execXorb b { s with dmem := m } = withMemory m (execXorb b s) := by
  simp only [execXorb, nextKsByte_withMemory]
  exact whenKeyed_withMemory rfl

theorem execNextint_withMemory (m : Memory) (w : Fin 4) (s : State) :
    execNextint w { s with dmem := m } = withMemory m (execNextint w s) := by
  simp only [execNextint, drawBytes_eq, afterPulls_withMemory, drawn_withMemory]
  exact whenKeyed_withMemory rfl

/-- No command but `XOR` reads or writes data memory (R52). -/
theorem exec_withMemory {i : Instr} (hi : i ≠ .xor) (m : Memory) (s : State) :
    exec i { s with dmem := m } = withMemory m (exec i s) := by
  cases i with
  | qr a b c d => exact execQr_withMemory m a b c d s
  | colrnd | rowrnd | dblrnd | xser => rfl
  | init klen nlen rounds => exact execInit_withMemory m klen nlen rounds s
  | ctrinc | genblk | xload | xadd | reset => exact whenKeyed_withMemory rfl
  | xorb b => exact execXorb_withMemory m b s
  | xor => exact absurd rfl hi
  | nextint w => exact execNextint_withMemory m w s

theorem command_withMemory {w : Word} (hw : decode w ≠ .ok .xor) (m : Memory) (s : State) :
    command w { s with dmem := m } = withMemory m (command w s) := by
  cases hd : decode w with
  | error e => rw [command_of_error hd, command_of_error hd]; rfl
  | ok i =>
    have hi : i ≠ .xor := fun e => hw (e ▸ hd)
    rw [command_of_ok hd, command_of_ok hd, exec_withMemory hi]

/-- The register map holds no byte of data memory (R36, R52). -/
theorem readReg_withMemory (m : Memory) (r : Reg) (s : State) : readReg r { s with dmem := m } = readReg r s := by
  cases r with
  | cmd | status | err | xcnt | resultLo | resultHi | src | dst | len | keyw | noncew | s | x | ksw => rfl

theorem writeReg_withMemory {r : Reg} {v : Word} (h : r = .cmd → decode v ≠ .ok .xor) (m : Memory) (s : State) :
    writeReg r v { s with dmem := m } = withMemory m (writeReg r v s) := by
  cases r with
  | cmd => exact command_withMemory (h rfl) m s
  | src | dst | len | keyw | noncew | x | status | err | xcnt | resultLo | resultHi | s | ksw => rfl

/-- An access that delivers no `XOR` neither reads nor writes data memory (R52), the hardware reset included (R215). -/
theorem perform_withMemory {a : HostAccess}
    (h : ∀ size off w, a = .write size off w → regOf size off = .ok .cmd → decode w ≠ .ok .xor) (m : Memory)
    (s : State) : perform a { s with dmem := m } = withMemory m (perform a s) := by
  cases a with
  | read size off =>
    simp only [perform]
    split
    · rw [readReg_withMemory]; rfl
    · rfl
  | write size off v =>
    simp only [perform]
    split
    · next r hr => exact writeReg_withMemory (fun e => h size off v rfl (e ▸ hr)) m { s with reply := .done }
    · rfl
  | hardwareReset => rfl

/-- A step that is no `XOR` has the same outcome over any other data memory, but for that memory (R52). -/
theorem step_withMemory {s : State} (hx : ¬NextCommand s .xor) (m : Memory) :
    step { s with dmem := m } = withMemory m (step s) := by
  by_cases hp : s.pending = []
  · rw [step_of_nil hp, step_of_nil (s := { s with dmem := m }) hp]; rfl
  · obtain ⟨a, rest, hp⟩ := List.exists_cons_of_ne_nil hp
    rw [step_of_cons hp, step_of_cons (s := { s with dmem := m }) hp]
    refine perform_withMemory (fun size off w ha hreg hd => ?_) m { s with pending := rest }
    exact hx ⟨size, off, w, ⟨rest, ha ▸ hp⟩, hreg, hd⟩

/-- A step that is no `XOR` leaves data memory as it is: its outcome over the memory it has is that outcome with this
same memory in it. -/
theorem step_dmem {s t : State} (hx : ¬NextCommand s .xor) (h : step s = .next t) : t.dmem = s.dmem := by
  have hsame : step s = withMemory s.dmem (step s) := step_withMemory hx s.dmem
  rw [h] at hsame
  injection hsame with ht
  rw [ht]

/-- Settles O47: a step that is no `XOR` has an outcome that data memory plays no part in. -/
theorem onlyXorReachesDataMemory : Obligations.OnlyXorReachesDataMemory := by
  intro s t h
  refine ⟨step_dmemHoles h, fun hx a => ?_, fun hx m => ⟨{ t with dmem := m }, ?_, rfl⟩⟩
  · simp only [State.byteAt, step_dmem hx h]
  · rw [step_withMemory hx, h]; rfl

end Sys2Proof.Machine

/-! Proofs about the command words (spec/30_encoding.md R70 to R83). A word is its opcode and its 24 operand bits
(`encode_eq_iff`), each format accepts the operand bits of its own commands and no others, and so the decoder is the
inverse of the encoder on well-formed commands (`decode_eq_ok_iff`). -/

namespace Sys2Proof

open Sys2Proof.Statements

/-! ## The parts of a word -/

theorem Instr.opcode_lt (i : Instr) : i.opcode < 2 ^ 8 := by cases i <;> simp [Instr.opcode]

theorem Instr.operandBits_lt (i : Instr) : i.operandBits < 2 ^ 24 := by
  cases i with
  | qr | xorb | nextint => simp only [Instr.operandBits]; omega
  | init klen nlen rounds =>
    have := rounds.code_lt
    simp only [Instr.operandBits]
    omega
  | colrnd | rowrnd | dblrnd | ctrinc | genblk | xload | xadd | xser | xor | reset => simp [Instr.operandBits]

/-- The opcode and the operand bits make up the word (R70). -/
theorem encode_eq_iff {i : Instr} {w : Word} :
    encode i = w ↔ field w 31 24 = i.opcode ∧ field w 23 0 = i.operandBits := by
  have hopc := i.opcode_lt
  have hbits := i.operandBits_lt
  rw [← BitVec.toNat_inj, encode, BitVec.toNat_ofNat, field, field]
  omega

/-! ## What each format accepts -/

/-- The commands of format Z (R72, R78). -/
def operandless : List Instr :=
  [.colrnd, .rowrnd, .dblrnd, .ctrinc, .genblk, .xload, .xadd, .xser, .xor, .reset]

theorem operandless_spec {i : Instr} (hi : i ∈ operandless) : i.wf = true ∧ i.operandBits = 0 := by
  cases i with
  | qr | init | xorb | nextint => simp [operandless] at hi
  | colrnd | rowrnd | dblrnd | ctrinc | genblk | xload | xadd | xser | xor | reset => exact ⟨rfl, rfl⟩

theorem decodeQ_eq_ok_iff {w : Word} {i : Instr} : decodeQ w = .ok i ↔
    ∃ a b c d, i = .qr a b c d ∧ i.wf = true ∧ field w 23 0 = i.operandBits := by
  rw [decodeQ_ok]
  constructor
  · rintro ⟨hres, hdist, rfl⟩
    refine ⟨_, _, _, _, rfl, hdist, ?_⟩
    simp only [field, Instr.operandBits, Fin.val_ofNat] at hres ⊢
    omega
  · rintro ⟨a, b, c, d, rfl, hdist, hbits⟩
    simp only [field, Instr.operandBits] at hbits
    have ha : Fin.ofNat 16 (field w 15 12) = a := Fin.ext (by simp only [field, Fin.val_ofNat]; omega)
    have hb : Fin.ofNat 16 (field w 11 8) = b := Fin.ext (by simp only [field, Fin.val_ofNat]; omega)
    have hc : Fin.ofNat 16 (field w 7 4) = c := Fin.ext (by simp only [field, Fin.val_ofNat]; omega)
    have hd : Fin.ofNat 16 (field w 3 0) = d := Fin.ext (by simp only [field, Fin.val_ofNat]; omega)
    rw [ha, hb, hc, hd]
    exact ⟨by rw [field]; omega, hdist, rfl⟩

theorem decodeI_eq_ok_iff {w : Word} {i : Instr} : decodeI w = .ok i ↔
    ∃ klen nlen rounds, i = .init klen nlen rounds ∧ field w 23 0 = i.operandBits := by
  rw [decodeI_ok]
  constructor
  · rintro ⟨rounds, hcode, rfl⟩
    have hcode := Variant.code_of_ofCode hcode
    refine ⟨_, _, rounds, rfl, ?_⟩
    simp only [field, Instr.operandBits, BitVec.toNat_ofNat] at hcode ⊢
    omega
  · rintro ⟨klen, nlen, rounds, rfl, hbits⟩
    have := rounds.code_lt
    simp only [field, Instr.operandBits] at hbits
    have hk : BitVec.ofNat 8 (field w 23 16) = klen :=
      BitVec.eq_of_toNat_eq (by simp only [field, BitVec.toNat_ofNat]; omega)
    have hn : BitVec.ofNat 8 (field w 15 8) = nlen :=
      BitVec.eq_of_toNat_eq (by simp only [field, BitVec.toNat_ofNat]; omega)
    have hr : field w 7 0 = rounds.code := by rw [field]; omega
    exact ⟨rounds, by rw [hr, Variant.ofCode_code], by rw [hk, hn]⟩

theorem decodeB_eq_ok_iff {w : Word} {i : Instr} :
    decodeB w = .ok i ↔ ∃ imm8, i = .xorb imm8 ∧ field w 23 0 = i.operandBits := by
  rw [decodeB_ok]
  constructor
  · rintro ⟨hres, rfl⟩
    refine ⟨_, rfl, ?_⟩
    simp only [field, Instr.operandBits, BitVec.toNat_ofNat] at hres ⊢
    omega
  · rintro ⟨imm8, rfl, hbits⟩
    simp only [field, Instr.operandBits] at hbits
    have himm : BitVec.ofNat 8 (field w 7 0) = imm8 :=
      BitVec.eq_of_toNat_eq (by simp only [field, BitVec.toNat_ofNat]; omega)
    exact ⟨by rw [field]; omega, by rw [himm]⟩

theorem decodeW_eq_ok_iff {w : Word} {i : Instr} :
    decodeW w = .ok i ↔ ∃ wsel, i = .nextint wsel ∧ field w 23 0 = i.operandBits := by
  rw [decodeW_ok]
  constructor
  · rintro ⟨hres, rfl⟩
    refine ⟨_, rfl, ?_⟩
    simp only [field, Instr.operandBits, Fin.val_ofNat] at hres ⊢
    omega
  · rintro ⟨wsel, rfl, hbits⟩
    simp only [field, Instr.operandBits] at hbits
    have hw : Fin.ofNat 4 (field w 1 0) = wsel := Fin.ext (by simp only [field, Fin.val_ofNat]; omega)
    exact ⟨by rw [field]; omega, by rw [hw]⟩

/-! ## The decoder is the inverse of the encoder -/

theorem decode_operandless {w : Word} {i : Instr} (hi : i ∈ operandless) (h : field w 31 24 = i.opcode) :
    decode w = decodeZ w i := by
  cases i with
  | qr | init | xorb | nextint => simp [operandless] at hi
  | colrnd | rowrnd | dblrnd | ctrinc | genblk | xload | xadd | xser | xor | reset => simp only [decode, h, Instr.opcode]

/-- The format the opcode of a word selects: one of its own for four commands, format Z for ten, none for any other
opcode (R70, R78). -/
theorem decode_cases (w : Word) :
    (field w 31 24 = 0x10 ∧ decode w = decodeQ w) ∨ (field w 31 24 = 0x20 ∧ decode w = decodeI w) ∨
    (field w 31 24 = 0x40 ∧ decode w = decodeB w) ∨ (field w 31 24 = 0x42 ∧ decode w = decodeW w) ∨
    (∃ i ∈ operandless, field w 31 24 = i.opcode ∧ decode w = decodeZ w i) ∨
    (field w 31 24 ∉ [0x10, 0x11, 0x12, 0x13, 0x20, 0x21, 0x30, 0x31, 0x32, 0x33, 0x40, 0x41, 0x42, 0x43] ∧
      decode w = .error .unknownOpcode) := by
  unfold decode
  split
  case h_1 h => exact .inl ⟨h, rfl⟩
  case h_5 h => exact .inr (.inl ⟨h, rfl⟩)
  case h_11 h => exact .inr (.inr (.inl ⟨h, rfl⟩))
  case h_13 h => exact .inr (.inr (.inr (.inl ⟨h, rfl⟩)))
  case h_15 => exact .inr (.inr (.inr (.inr (.inr ⟨by simp_all, rfl⟩))))
  all_goals next h => exact .inr (.inr (.inr (.inr (.inl ⟨_, by simp [operandless], by exact h, rfl⟩))))

theorem decode_eq_ok_iff {w : Word} {i : Instr} : decode w = .ok i ↔ i.wf = true ∧ encode i = w := by
  rw [encode_eq_iff]
  constructor
  · intro h
    obtain ⟨hopc, hd⟩ | ⟨hopc, hd⟩ | ⟨hopc, hd⟩ | ⟨hopc, hd⟩ | ⟨j, hj, hopc, hd⟩ | ⟨-, hd⟩ := decode_cases w <;>
      rw [hd] at h
    · obtain ⟨a, b, c, d, rfl, hwf, hbits⟩ := decodeQ_eq_ok_iff.1 h
      exact ⟨hwf, hopc, hbits⟩
    · obtain ⟨klen, nlen, rounds, rfl, hbits⟩ := decodeI_eq_ok_iff.1 h
      exact ⟨rfl, hopc, hbits⟩
    · obtain ⟨imm8, rfl, hbits⟩ := decodeB_eq_ok_iff.1 h
      exact ⟨rfl, hopc, hbits⟩
    · obtain ⟨wsel, rfl, hbits⟩ := decodeW_eq_ok_iff.1 h
      exact ⟨rfl, hopc, hbits⟩
    · obtain ⟨hzero, rfl⟩ := decodeZ_ok.1 h
      obtain ⟨hwf, hbits⟩ := operandless_spec hj
      exact ⟨hwf, hopc, hzero.trans hbits.symm⟩
    · cases h
  · rintro ⟨hwf, hopc, hbits⟩
    cases i with
    | qr a b c d => exact (decode_qr hopc).trans (decodeQ_eq_ok_iff.2 ⟨a, b, c, d, rfl, hwf, hbits⟩)
    | init klen nlen rounds => exact (decode_init hopc).trans (decodeI_eq_ok_iff.2 ⟨klen, nlen, rounds, rfl, hbits⟩)
    | xorb imm8 => exact (decode_xorb hopc).trans (decodeB_eq_ok_iff.2 ⟨imm8, rfl, hbits⟩)
    | nextint wsel => exact (decode_nextint hopc).trans (decodeW_eq_ok_iff.2 ⟨wsel, rfl, hbits⟩)
    | colrnd | rowrnd | dblrnd | ctrinc | genblk | xload | xadd | xser | xor | reset =>
      exact (decode_operandless (by simp [operandless]) hopc).trans (decodeZ_ok.2 ⟨hbits, rfl⟩)

/-- Settles O33: the commands that words spell are those the decoder finds. -/
theorem decodeOfEncodeIsTheCommand : Obligations.DecodeOfEncodeIsTheCommand :=
  fun _ hwf => decode_eq_ok_iff.2 ⟨hwf, rfl⟩

/-- Settles O34: the same equivalence, read from the word to the command. -/
theorem encodeOfDecodeIsTheWord : Obligations.EncodeOfDecodeIsTheWord :=
  fun _ _ h => (decode_eq_ok_iff.1 h).symm

/-! ## The illegal words -/

theorem distinctIndices_iff_nodup {a b c d : Nat} (ha : a < 16) (hb : b < 16) (hc : c < 16) (hd : d < 16) :
    distinctIndices (Fin.ofNat 16 a) (Fin.ofNat 16 b) (Fin.ofNat 16 c) (Fin.ofNat 16 d) = true ↔ [a, b, c, d].Nodup := by
  simp [distinctIndices, Fin.ext_iff, Nat.mod_eq_of_lt, ha, hb, hc, hd, and_assoc]

theorem Variant.ofCode_eq_none_iff {n : Nat} : Variant.ofCode n = none ↔ n ∉ [0, 1, 2] := by
  match n with
  | 0 | 1 | 2 => decide
  | n + 3 => simp [Variant.ofCode_eq_none]

/-- A format that accepts one command under one condition refuses every word without it. -/
theorem exists_error_iff_not {r : Except Illegal Instr} {p : Prop} {i : Instr} (h : ∀ j, r = .ok j ↔ p ∧ j = i) :
    (∃ e, r = .error e) ↔ ¬p := by
  cases r with
  | ok j => exact ⟨nofun, fun hp => absurd ((h j).1 rfl).1 hp⟩
  | error e =>
    have hnot : ¬p := fun hp => absurd ((h i).2 ⟨hp, rfl⟩) nofun
    exact ⟨fun _ => hnot, fun _ => ⟨e, rfl⟩⟩

theorem decodeZ_error_iff {w : Word} {i : Instr} : (∃ e, decodeZ w i = .error e) ↔ field w 23 0 ≠ 0 :=
  exists_error_iff_not fun _ => decodeZ_ok

theorem decodeB_error_iff {w : Word} : (∃ e, decodeB w = .error e) ↔ field w 23 8 ≠ 0 :=
  exists_error_iff_not fun _ => decodeB_ok

theorem decodeW_error_iff {w : Word} : (∃ e, decodeW w = .error e) ↔ field w 23 2 ≠ 0 :=
  exists_error_iff_not fun _ => decodeW_ok

theorem decodeQ_error_iff {w : Word} : (∃ e, decodeQ w = .error e) ↔
    field w 23 16 ≠ 0 ∨ ¬[field w 15 12, field w 11 8, field w 7 4, field w 3 0].Nodup := by
  rw [← distinctIndices_iff_nodup (field_lt w 15 12) (field_lt w 11 8) (field_lt w 7 4) (field_lt w 3 0), ne_eq,
    ← not_and_or]
  exact exists_error_iff_not fun _ => decodeQ_ok.trans and_assoc.symm

theorem decodeI_error_iff {w : Word} : (∃ e, decodeI w = .error e) ↔ field w 7 0 ∉ [0, 1, 2] := by
  rw [← Variant.ofCode_eq_none_iff]
  unfold decodeI
  split
  · next h => simp [h]
  · next h => simp [h]

/-- Of the cases of R79, only the reserved bits 23:0 concern a format Z word. -/
theorem listedIllegal_operandless {w : Word} {i : Instr} (hi : i ∈ operandless) (h : field w 31 24 = i.opcode) :
    ListedIllegal w ↔ field w 23 0 ≠ 0 := by
  cases i with
  | qr | init | xorb | nextint => simp [operandless] at hi
  | colrnd | rowrnd | dblrnd | ctrinc | genblk | xload | xadd | xser | xor | reset =>
    simp [ListedIllegal, h, Instr.opcode]

/-- The decoder refuses the words that R79 lists, format by format. -/
theorem decode_error_iff {w : Word} : (∃ e, decode w = .error e) ↔ ListedIllegal w := by
  obtain ⟨hopc, hd⟩ | ⟨hopc, hd⟩ | ⟨hopc, hd⟩ | ⟨hopc, hd⟩ | ⟨i, hi, hopc, hd⟩ | ⟨hopc, hd⟩ := decode_cases w <;>
    rw [hd]
  · rw [decodeQ_error_iff]; simp [ListedIllegal, hopc]
  · rw [decodeI_error_iff]; simp [ListedIllegal, hopc]
  · rw [decodeB_error_iff]; simp [ListedIllegal, hopc]
  · rw [decodeW_error_iff]; simp [ListedIllegal, hopc]
  · rw [decodeZ_error_iff, listedIllegal_operandless hi hopc]
  · exact ⟨fun _ => .inl hopc, fun _ => ⟨_, rfl⟩⟩

theorem decode_ok_of_not_listedIllegal {w : Word} (h : ¬ListedIllegal w) : ∃ i, decode w = .ok i := by
  cases hd : decode w with
  | ok i => exact ⟨i, rfl⟩
  | error e => exact absurd (decode_error_iff.1 ⟨e, hd⟩) h

end Sys2Proof

namespace Sys2Proof.Machine

open Sys2Proof.Statements

/-! ## What a command ends with -/

theorem exec_init_err {klen nlen : Byte} {rounds : Variant} {s t : State}
    (h : exec (.init klen nlen rounds) s = .next t) : t.ERR = .ok ∨ t.ERR ∈ [.invalidKeySize, .invalidNonceSize] := by
  change execInit klen nlen rounds s = .next t at h
  unfold execInit at h
  split at h
  · cases h; simp
  · split at h
    · cases h; simp
    · cases h; exact .inl rfl

/-- A well-formed command that passes the gate of R80 ends with `ERR` 0 or with an error of its own (R81 steps 3
and 4). -/
theorem exec_err_of_passed {i : Instr} {s t : State} (hwf : i.wf = true) (hk : needsKeyed i = true → s.KEYED = true)
    (h : exec i s = .next t) :
    t.ERR = .ok ∨ (i = .xor ∧ t.ERR = .busFault) ∨
      ∃ klen nlen rounds, i = .init klen nlen rounds ∧ t.ERR ∈ [.invalidKeySize, .invalidNonceSize] := by
  cases i with
  | qr a b c d =>
    have hq : exec (.qr a b c d) s = finish { s with X := quarterRound a b c d s.X } := if_pos hwf
    cases hq.symm.trans h; exact .inl rfl
  | colrnd | rowrnd | dblrnd | xser => cases h; exact .inl rfl
  | init klen nlen rounds => exact (exec_init_err h).imp_right fun he => .inr ⟨klen, nlen, rounds, rfl, he⟩
  | ctrinc => cases (exec_ctrinc (hk rfl)).symm.trans h; exact .inl rfl
  | genblk => cases (exec_genblk (hk rfl)).symm.trans h; exact .inl rfl
  | xload => cases (exec_xload (hk rfl)).symm.trans h; exact .inl rfl
  | xadd => cases (exec_xadd (hk rfl)).symm.trans h; exact .inl rfl
  | xorb b => cases (exec_xorb (hk rfl) b).symm.trans h; exact .inl rfl
  | nextint w => cases (exec_nextint (hk rfl) w).symm.trans h; exact .inl rfl
  | reset => cases (exec_reset (hk rfl)).symm.trans h; exact .inl rfl
  | xor =>
    obtain ⟨-, rfl⟩ | ⟨k, -, -, ⟨-, rfl⟩ | ⟨-, -, rfl⟩⟩ := exec_xor_cases (hk rfl) h
    · exact .inl rfl
    · exact .inr (.inl ⟨rfl, rfl⟩)
    · exact .inr (.inl ⟨rfl, rfl⟩)

/-- A command that a word spells never ends as an illegal word does (R192). -/
theorem exec_err_ne_illegalCommand {i : Instr} {s t : State} (hwf : i.wf = true) (h : exec i s = .next t) :
    t.ERR ≠ .illegalCommand := by
  by_cases hk : needsKeyed i = true → s.KEYED = true
  · obtain he | ⟨-, he⟩ | ⟨klen, nlen, rounds, -, he⟩ := exec_err_of_passed hwf hk h
    · simp [he]
    · simp [he]
    · intro hill; simp [hill] at he
  · obtain ⟨hn, hs⟩ := Classical.not_imp.1 hk
    cases (exec_not_keyed hn (Bool.eq_false_iff.2 hs)).symm.trans h
    simp

/-- Settles O35: the decoder refuses what R79 lists, and what it accepts is a well-formed command. -/
theorem theIllegalWordsAreExactlyTheListed : Obligations.TheIllegalWordsAreExactlyTheListed := by
  refine fun w => ⟨decode_error_iff, fun hw s => ?_, fun hw s t h => ?_⟩
  · obtain ⟨e, hd⟩ := decode_error_iff.2 hw
    exact command_of_error hd s
  · obtain ⟨i, hd⟩ := decode_ok_of_not_listedIllegal hw
    rw [command_of_ok hd] at h
    exact exec_err_ne_illegalCommand (decode_eq_ok_iff.1 hd).1 h

/-! ## Decode, then `KEYED`, then execute -/

/-- The commands of R80 as the statement of R81 lists them. -/
theorem needsKeyed_iff {i : Instr} : needsKeyed i = true ↔
    i ∈ [.ctrinc, .genblk, .xload, .xadd, .xor, .reset] ∨ (∃ b, i = .xorb b) ∨ ∃ n, i = .nextint n := by
  cases i <;> simp [needsKeyed]

theorem command_goesOn (w : Word) (s : State) : ∃ t, command w s = .next t := by
  cases hd : decode w with
  | ok i => rw [command_of_ok hd]; exact everyCommandGoesOn i s
  | error e => exact ⟨_, command_of_error hd s⟩

/-- Settles O36: the decoder's answer first, then the gate of R80, then the errors of the command itself. -/
theorem decodeThenKeyedThenExecute : Obligations.DecodeThenKeyedThenExecute := by
  intro w s
  simp only [← needsKeyed_iff]
  refine ⟨fun e hd => command_of_error hd s, fun i hd hn hk => ?_, fun i hd => command_of_ok hd s,
    fun i hd hk => ?_, command_goesOn w s⟩
  · rw [command_of_ok hd]
    exact exec_not_keyed hn hk
  · obtain ⟨t, h⟩ := command_goesOn w s
    have hrun : exec i s = .next t := (command_of_ok hd s).symm.trans h
    exact ⟨t, h, exec_err_of_passed (decode_eq_ok_iff.1 hd).1 hk hrun⟩

/-! ## The words of the spec's examples -/

/-- Settles O32 by running the decoder on the fifteen words. -/
theorem wordsOfTheSpecDecode : Obligations.WordsOfTheSpecDecode := by
  unfold Obligations.WordsOfTheSpecDecode
  decide

end Sys2Proof.Machine

/-! Proofs about the permutation (spec/40_permutation.md R90 to R102). A quarter-round is four steps, each of which adds
into one word a value of the other words and so undoes itself (`mixWord_involutive`); the four quarter-rounds of a round
share no word, so they may be applied in any order (`foldl_quarterRounds_of_perm`). -/

namespace Sys2Proof.Machine

open Sys2Proof.Statements

/-! ## Rotation and addition -/

theorem rotl32_toNat (v : Word) (n : Nat) :
    (rotl32 v n).toNat = (v.toNat * 2 ^ n % 2 ^ 32) ||| (v.toNat / 2 ^ (32 - n)) := by
  simp only [rotl32, BitVec.toNat_or, BitVec.toNat_shiftLeft, BitVec.toNat_ushiftRight, Nat.shiftLeft_eq,
    Nat.shiftRight_eq_div_pow]

theorem rotl32_getLsbD (v : Word) {n i : Nat} (hn : 1 ≤ n) (hn' : n ≤ 31) (hi : i < 32) :
    (rotl32 v n).getLsbD ((i + n) % 32) = v.getLsbD i := by
  simp only [rotl32, BitVec.getLsbD_or, BitVec.getLsbD_shiftLeft, BitVec.getLsbD_ushiftRight]
  by_cases h : i + n < 32
  · have hout : v.getLsbD (32 - n + (i + n)) = false := BitVec.getLsbD_of_ge _ _ (by omega)
    simp [Nat.mod_eq_of_lt h, h, hout]
  · have hmod : (i + n) % 32 = i + n - 32 := by omega
    have hlow : i + n - 32 < n := by omega
    have hsrc : 32 - n + (i + n - 32) = i := by omega
    simp [hmod, hlow, hsrc]

theorem rotl32_zero (n : Nat) : rotl32 0 n = 0 := by simp [rotl32]

/-- A zero word takes in nothing from two zero words (R94). -/
theorem zero_xor_rotl32_add32_zero (n : Nat) : (0 : Word) ^^^ rotl32 (add32 0 0) n = 0 := by
  rw [show add32 0 0 = 0 from rfl, rotl32_zero]; rfl

/-- Settles O2: the value by shifts as products and quotients, the bits by whether they pass the top. -/
theorem rotationAndAdditionAreTheStatedFunctions : Obligations.RotationAndAdditionAreTheStatedFunctions :=
  ⟨fun v n hn hn' => ⟨rotl32_toNat v n, fun _ hi => rotl32_getLsbD v hn hn' hi⟩, by decide, BitVec.toNat_add,
    by decide, by decide⟩

/-! ## The four commands -/

theorem exec_qr {a b c d : Fin 16} (h : distinctIndices a b c d = true) (s : State) :
    exec (.qr a b c d) s = .next { s with X := quarterRound a b c d s.X, ERR := .ok } := if_pos h

theorem exec_colrnd (s : State) : exec .colrnd s = .next { s with X := columnRound s.X, ERR := .ok } := rfl

theorem exec_rowrnd (s : State) : exec .rowrnd s = .next { s with X := rowRound s.X, ERR := .ok } := rfl

theorem exec_dblrnd (s : State) : exec .dblrnd s = .next { s with X := doubleRound s.X, ERR := .ok } := rfl

/-- A command of format Z: its word runs it, and any reserved bit makes the word illegal (R72, R79 item 2). -/
theorem zFormat_of_operandless {i : Instr} (hi : i ∈ operandless) : ZFormat i.opcode i := by
  obtain ⟨hwf, hbits⟩ := operandless_spec hi
  refine ⟨command_of_ok (decode_eq_ok_iff.2 ⟨hwf, by simp [encode, hbits]⟩), fun w s hopc hres => ?_⟩
  obtain ⟨e, he⟩ := decodeZ_error_iff.2 hres
  exact command_of_error ((decode_operandless hi hopc).trans he) s

/-- A round that maps a file to `y`, run as a command on that file. -/
theorem next_withX {f : WordFile → WordFile} {s : State} {x y : WordFile} (hx : s.X = x) (hf : f x = y) :
    (.next { s with X := f s.X, ERR := .ok } : Host.Outcome State Fault Refusal) =
      .next { s with X := y, ERR := .ok } := by rw [hx, hf]

/-- A round that maps the file of the state to itself, run as a command, writes only `ERR`. -/
theorem next_fixedX {f : WordFile → WordFile} {s : State} {x : WordFile} (hx : s.X = x) (hf : f x = x) :
    (.next { s with X := f s.X, ERR := .ok } : Host.Outcome State Fault Refusal) = .next { s with ERR := .ok } := by
  subst hx; rw [hf]

/-! ## `QR` -/

theorem command_qr {a b c d : Fin 16} (h : distinctIndices a b c d = true) (s : State) :
    command (BitVec.ofNat 32 (0x10 * 2 ^ 24 + a.val * 2 ^ 12 + b.val * 2 ^ 8 + c.val * 2 ^ 4 + d.val)) s =
      exec (.qr a b c d) s :=
  command_of_ok (i := .qr a b c d)
    (decode_eq_ok_iff.2 ⟨h, by simp only [encode, Instr.opcode, Instr.operandBits, Nat.add_assoc]⟩) s

/-- Four words that are zero stay zero (R94). -/
theorem quarterRound_eq_self {a b c d : Fin 16} (h : distinctIndices a b c d = true) {x : WordFile}
    (ha : x[a] = 0) (hb : x[b] = 0) (hc : x[c] = 0) (hd : x[d] = 0) : quarterRound a b c d x = x := by
  obtain ⟨hb', hc', hd', ha', hother⟩ := quarterRound_words h x
  rw [ha, hb, hd, zero_xor_rotl32_add32_zero] at hb'
  rw [ha, hb', hc, zero_xor_rotl32_add32_zero] at hc'
  rw [hb', hc', hd, zero_xor_rotl32_add32_zero] at hd'
  rw [hc', hd', ha, zero_xor_rotl32_add32_zero] at ha'
  refine wordFile_ext fun i => ?_
  by_cases hia : i = a
  · rw [hia, ha', ha]
  by_cases hib : i = b
  · rw [hib, hb', hb]
  by_cases hic : i = c
  · rw [hic, hc', hc]
  by_cases hid : i = d
  · rw [hid, hd', hd]
  exact hother i hia hib hic hid

theorem command_qr_illegal {w : Word} (s : State) (hopc : field w 31 24 = 0x10)
    (hbad : field w 23 16 ≠ 0 ∨ ¬[field w 15 12, field w 11 8, field w 7 4, field w 3 0].Nodup) :
    command w s = .next { s with ERR := .illegalCommand } := by
  obtain ⟨e, he⟩ := decodeQ_error_iff.2 hbad
  exact command_of_error ((decode_qr hopc).trans he) s

/-- The values of the example of R99. -/
theorem quarterRound_example {x : WordFile} (h0 : x[(0 : Fin 16)] = 1) (h1 : x[(1 : Fin 16)] = 0)
    (h2 : x[(2 : Fin 16)] = 0) (h3 : x[(3 : Fin 16)] = 0) :
    (quarterRound 0 1 2 3 x)[(0 : Fin 16)] = 0x08008145 ∧ (quarterRound 0 1 2 3 x)[(1 : Fin 16)] = 0x00000080 ∧
    (quarterRound 0 1 2 3 x)[(2 : Fin 16)] = 0x00010200 ∧ (quarterRound 0 1 2 3 x)[(3 : Fin 16)] = 0x20500000 := by
  obtain ⟨h1', h2', h3', h0', -⟩ := quarterRound_words (a := 0) (b := 1) (c := 2) (d := 3) rfl x
  rw [h1, h0, h3, show (0 : Word) ^^^ rotl32 (add32 1 0) 7 = 0x00000080 by decide] at h1'
  rw [h2, h1', h0, show (0 : Word) ^^^ rotl32 (add32 0x00000080 1) 9 = 0x00010200 by decide] at h2'
  rw [h3, h2', h1', show (0 : Word) ^^^ rotl32 (add32 0x00010200 0x00000080) 13 = 0x20500000 by decide] at h3'
  rw [h0, h3', h2', show (1 : Word) ^^^ rotl32 (add32 0x20500000 0x00010200) 18 = 0x08008145 by decide] at h0'
  exact ⟨h0', h1', h2', h3'⟩

/-- Settles O3: the words of the quarter-round, and the words of format Q that the decoder takes and refuses. -/
theorem qrUpdatesFourWordsInOrder : Obligations.QrUpdatesFourWordsInOrder := by
  refine ⟨fun a b c d s h => ?_, fun a b c d s h => command_qr h s, fun w s => command_qr_illegal s,
    fun s h0 h1 h2 h3 => ?_⟩
  · obtain ⟨hb, hc, hd, ha, hother⟩ := quarterRound_words h s.X
    exact ⟨_, exec_qr h s, hb, hc, hd, ha, hother, quarterRound_eq_self h, rfl⟩
  · exact ⟨_, (command_qr (a := 0) (b := 1) (c := 2) (d := 3) rfl s).trans (exec_qr rfl s),
      quarterRound_example h0 h1 h2 h3⟩

/-! ## Quarter-rounds in any order -/

/-- Four indices that a quarter-round takes, in argument order. -/
abbrev IndexGroup := Fin 16 × Fin 16 × Fin 16 × Fin 16

/-- The words a group mixes; no quarter-round on it reads or writes any other. -/
def IndexGroup.indices : IndexGroup → List (Fin 16)
  | (a, b, c, d) => [a, b, c, d]

/-- The quarter-round on a group: the function that the lists of the statements hold. -/
def IndexGroup.quarterRound : IndexGroup → WordFile → WordFile
  | (a, b, c, d) => Machine.quarterRound a b c d

/-- Groups in which no index stands twice, neither in one group nor in two: no quarter-round writes a word
that another one reads. -/
theorem quarterRounds_pairwise_commute {gs : List IndexGroup} (h : (gs.flatMap IndexGroup.indices).Nodup) :
    (gs.map IndexGroup.quarterRound).Pairwise Function.Commute := by
  obtain ⟨hdistinct, hdisjoint⟩ := List.nodup_flatMap.1 h
  have hwf : ∀ a b c d, (a, b, c, d) ∈ gs → distinctIndices a b c d = true := fun a b c d hg => by
    simpa [IndexGroup.indices, distinctIndices_iff, and_assoc] using hdistinct _ hg
  refine List.pairwise_map.2 (hdisjoint.imp_of_mem fun {g g'} hg hg' hgg' => ?_)
  obtain ⟨⟨a, b, c, d⟩, ⟨a', b', c', d'⟩⟩ := g, g'
  exact quarterRound_comm (hwf _ _ _ _ hg) (hwf _ _ _ _ hg') fun i hi hi' => hgg' hi hi'

/-- Functions that commute pairwise give one result, whatever the order in which they are applied. -/
theorem foldl_apply_of_perm {α : Type} {l l' : List (α → α)} (hc : l'.Pairwise Function.Commute) (hp : l.Perm l')
    (x : α) : l.foldl (fun x f => f x) x = l'.foldl (fun x f => f x) x := by
  have hall : ∀ f ∈ l', ∀ g ∈ l', Function.Commute f g :=
    @List.Pairwise.forall_of_forall _ _ _ ⟨fun _ _ h => h.symm⟩ (fun f _ => .refl f) hc
  exact hp.foldl_eq' (fun f hf g hg z => (hall g (hp.subset hg) f (hp.subset hf)).eq z) x

/-- Quarter-rounds on groups that share no word, in any order (R95, R96). -/
theorem foldl_quarterRounds_of_perm {gs : List IndexGroup} (h : (gs.flatMap IndexGroup.indices).Nodup)
    {l : List (WordFile → WordFile)} (hp : l.Perm (gs.map IndexGroup.quarterRound)) (x : WordFile) :
    l.foldl (fun x f => f x) x = (gs.map IndexGroup.quarterRound).foldl (fun x f => f x) x :=
  foldl_apply_of_perm (quarterRounds_pairwise_commute h) hp x

theorem foldl_columnGroups {l : List (WordFile → WordFile)} (hp : l.Perm columnGroups) (x : WordFile) :
    l.foldl (fun x f => f x) x = columnRound x :=
  foldl_quarterRounds_of_perm (gs := [(0, 4, 8, 12), (5, 9, 13, 1), (10, 14, 2, 6), (15, 3, 7, 11)]) (by decide) hp x

theorem foldl_rowGroups {l : List (WordFile → WordFile)} (hp : l.Perm rowGroups) (x : WordFile) :
    l.foldl (fun x f => f x) x = rowRound x :=
  foldl_quarterRounds_of_perm (gs := [(0, 1, 2, 3), (5, 6, 7, 4), (10, 11, 8, 9), (15, 12, 13, 14)]) (by decide) hp x

theorem columnRound_zero : columnRound (Vector.replicate 16 0) = Vector.replicate 16 0 := by
  simp only [columnRound, quarterRound_zero]

theorem rowRound_zero : rowRound (Vector.replicate 16 0) = Vector.replicate 16 0 := by
  simp only [rowRound, quarterRound_zero]

theorem doubleRound_zero : doubleRound (Vector.replicate 16 0) = Vector.replicate 16 0 := by
  rw [doubleRound, columnRound_zero, rowRound_zero]

/-- Settles O4: the four groups of R95 share no word, so their order does not matter. -/
theorem colrndAppliesTheFourColumnQuarterRounds : Obligations.ColrndAppliesTheFourColumnQuarterRounds := by
  refine ⟨zFormat_of_operandless (i := .colrnd) (by simp [operandless]), exec_colrnd, fun l hp s => ?_, by decide,
    fun s h => (exec_colrnd s).trans (next_fixedX h columnRound_zero),
    fun s h => (exec_colrnd s).trans (next_withX h (by decide +kernel))⟩
  rw [foldl_columnGroups hp, exec_colrnd]

/-- Settles O5: the four groups of R96 share no word, so their order does not matter. -/
theorem rowrndAppliesTheFourRowQuarterRounds : Obligations.RowrndAppliesTheFourRowQuarterRounds := by
  refine ⟨zFormat_of_operandless (i := .rowrnd) (by simp [operandless]), exec_rowrnd, fun l hp s => ?_,
    fun s h => (exec_rowrnd s).trans (next_fixedX h rowRound_zero),
    fun s h => (exec_rowrnd s).trans (next_withX h (by decide +kernel))⟩
  rw [foldl_rowGroups hp, exec_rowrnd]

/-- The file with word 0 set to 1 tells a column-round then a row-round from the other order (R97). -/
theorem columnRound_rowRound_not_commute :
    rowRound (columnRound #v[1, 0, 0, 0, 0, 0, 0, 0, 0, 0, 0, 0, 0, 0, 0, 0]) ≠
      columnRound (rowRound #v[1, 0, 0, 0, 0, 0, 0, 0, 0, 0, 0, 0, 0, 0, 0, 0]) := by decide +kernel

/-- Settles O6: `DBLRND` is `ROWRND` after `COLRND`, and neither reads `RV`. -/
theorem dblrndIsColrndThenRowrnd : Obligations.DblrndIsColrndThenRowrnd := by
  refine ⟨zFormat_of_operandless (i := .dblrnd) (by simp [operandless]),
    fun s => ⟨_, _, exec_colrnd s, exec_rowrnd _, exec_dblrnd s, rfl⟩, fun s v t h => ?_,
    ⟨_, columnRound_rowRound_not_commute⟩, fun s h => (exec_dblrnd s).trans (next_fixedX h doubleRound_zero),
    fun s h => (exec_dblrnd s).trans (next_withX h (by decide +kernel))⟩
  cases h
  exact exec_dblrnd _

/-! ## Bijections -/

theorem xor_const_involutive (k : Word) : Function.Involutive fun v : Word => v ^^^ k := fun v => by
  simp only [BitVec.xor_assoc, BitVec.xor_self, BitVec.xor_zero]

/-- One step of a quarter-round: word `j` takes in a rotated sum of words `p` and `q` (R93). -/
def mixWord (j p q : Fin 16) (n : Nat) (x : WordFile) : WordFile := x.set j (x[j] ^^^ rotl32 (add32 x[p] x[q]) n)

theorem quarterRound_eq_mixWord (a b c d : Fin 16) : quarterRound a b c d =
    mixWord a d c 18 ∘ mixWord d c b 13 ∘ mixWord c b a 9 ∘ mixWord b a d 7 := rfl

/-- A step leaves the two words it reads as they were, so the same step again takes out what it put in (R94). -/
theorem mixWord_involutive {j p q : Fin 16} (hp : p ≠ j) (hq : q ≠ j) (n : Nat) :
    Function.Involutive (mixWord j p q n) := by
  refine fun x => wordFile_ext fun i => ?_
  simp only [mixWord, set_get, hp, hq, if_true, if_false]
  split
  · next hi => rw [hi]; exact xor_const_involutive _ _
  · rfl

theorem quarterRound_bijective {a b c d : Fin 16} (h : distinctIndices a b c d = true) :
    Function.Bijective (quarterRound a b c d) := by
  obtain ⟨hab, hac, had, hbc, hbd, hcd⟩ := distinctIndices_iff.1 h
  rw [quarterRound_eq_mixWord]
  exact (mixWord_involutive had.symm hac.symm 18).bijective.comp <|
    (mixWord_involutive hcd hbd 13).bijective.comp <|
    (mixWord_involutive hbc hac 9).bijective.comp (mixWord_involutive hab hbd.symm 7).bijective

theorem columnRound_bijective : Function.Bijective columnRound :=
  (quarterRound_bijective (a := 15) (b := 3) (c := 7) (d := 11) rfl).comp <|
    (quarterRound_bijective (a := 10) (b := 14) (c := 2) (d := 6) rfl).comp <|
    (quarterRound_bijective (a := 5) (b := 9) (c := 13) (d := 1) rfl).comp
      (quarterRound_bijective (a := 0) (b := 4) (c := 8) (d := 12) rfl)

theorem rowRound_bijective : Function.Bijective rowRound :=
  (quarterRound_bijective (a := 15) (b := 12) (c := 13) (d := 14) rfl).comp <|
    (quarterRound_bijective (a := 10) (b := 11) (c := 8) (d := 9) rfl).comp <|
    (quarterRound_bijective (a := 5) (b := 6) (c := 7) (d := 4) rfl).comp
      (quarterRound_bijective (a := 0) (b := 1) (c := 2) (d := 3) rfl)

/-- Settles O7: every step undoes itself, and the rounds are compositions of quarter-rounds. -/
theorem mixingFunctionsAreBijections : Obligations.MixingFunctionsAreBijections :=
  ⟨fun _ _ _ => (xor_const_involutive _).bijective,
    fun a b c d h => ⟨quarterRound_bijective h, quarterRound_zero a b c d⟩,
    columnRound_bijective, columnRound_zero, rowRound_bijective, rowRound_zero,
    rowRound_bijective.comp columnRound_bijective, doubleRound_zero⟩

end Sys2Proof.Machine

/-! Proofs about the key schedule and the block counter (spec/41_key_schedule.md R110 to R120). A successful `INIT` leaves
`keySchedule` of its operand and the two buffers (`exec_init`), and two blocks that agree on the keystream fields deliver
the same bytes (`SameStream`); `CTRINC` and `GENBLK` both leave `counterIncrement` of `S` (`exec_counting`), which adds 1
modulo 2^64 (`counterIncrement_toNat`). -/

namespace Sys2Proof.Machine

open Sys2Proof.Statements

/-! ## The cipher state that `INIT` builds -/

/-- The cipher state of a key length that `INIT` accepts (R110 to R114). -/
def keySchedule (klen : Byte) (key : Vector Byte 32) (nonce : Vector Byte 8) : WordFile :=
  if klen = 32 then keySchedule32 key nonce else keySchedule16 key nonce

theorem exec_init {klen : Byte} (hk : klen = 16 ∨ klen = 32) (rounds : Variant) (s : State) :
    exec (.init klen 8 rounds) s = .next { s with
      S := keySchedule klen s.KEY s.NONCE, RV := rounds, CUR := 0, KEYED := true, ERR := .ok } := by
  obtain rfl | rfl := hk
  · rfl
  · rfl

theorem exec_init_invalidKeySize {klen : Byte} (h16 : klen ≠ 16) (h32 : klen ≠ 32) (nlen : Byte) (rounds : Variant)
    (s : State) : exec (.init klen nlen rounds) s = .next { s with ERR := .invalidKeySize } := if_pos ⟨h16, h32⟩

/-- The nonce length is checked once the key length has passed (R199). -/
theorem exec_init_invalidNonceSize {klen nlen : Byte} (hk : klen = 16 ∨ klen = 32) (hn : nlen ≠ 8) (rounds : Variant)
    (s : State) : exec (.init klen nlen rounds) s = .next { s with ERR := .invalidNonceSize } :=
  (if_neg fun h => hk.elim h.1 h.2).trans (if_pos hn)

section

variable (klen : Byte) (key : Vector Byte 32) (nonce : Vector Byte 8)

/-- The constant set goes by the key length (R111). -/
theorem keySchedule_constants :
    ((keySchedule klen key nonce)[0], (keySchedule klen key nonce)[5], (keySchedule klen key nonce)[10],
      (keySchedule klen key nonce)[15]) =
      (if klen = 32 then ((0x61707865, 0x3320646E, 0x79622D32, 0x6B206574) : Word × Word × Word × Word)
       else (0x61707865, 0x3120646E, 0x79622D36, 0x6B206574)) := by
  unfold keySchedule
  split
  · rfl
  · rfl

/-- The first half of the key, whatever its length (R112, R113). -/
theorem keySchedule_firstHalf {i : Nat} (hi : i < 4) :
    (keySchedule klen key nonce)[1 + i] = le32 key (4 * i) (by omega) := by
  match i, hi with
  | 0, _ | 1, _ | 2, _ | 3, _ => unfold keySchedule; split <;> rfl

/-- The second half of a 32-byte key, and a 16-byte key once more (R112, R113). -/
theorem keySchedule_secondHalf {i : Nat} (hi : i < 4) : (keySchedule klen key nonce)[11 + i] =
    if klen = 32 then le32 key (16 + 4 * i) (by omega) else le32 key (4 * i) (by omega) := by
  match i, hi with
  | 0, _ | 1, _ | 2, _ | 3, _ => unfold keySchedule; split <;> rfl

theorem keySchedule_nonce : (keySchedule klen key nonce)[6] = le32 nonce 0 (by omega) ∧
    (keySchedule klen key nonce)[7] = le32 nonce 4 (by omega) := by
  unfold keySchedule
  split
  · exact ⟨rfl, rfl⟩
  · exact ⟨rfl, rfl⟩

/-- A fresh cipher state starts at block 0 (R114). -/
theorem keySchedule_counter : (keySchedule klen key nonce)[8] = 0 ∧ (keySchedule klen key nonce)[9] = 0 := by
  unfold keySchedule
  split
  · exact ⟨rfl, rfl⟩
  · exact ⟨rfl, rfl⟩

end

/-- The words of format I (R74). -/
theorem command_init (klen nlen : Byte) (rounds : Variant) (s : State) :
    command (BitVec.ofNat 32 (0x20 * 2 ^ 24 + klen.toNat * 2 ^ 16 + nlen.toNat * 2 ^ 8 + rounds.code)) s =
      exec (.init klen nlen rounds) s :=
  command_of_ok (i := .init klen nlen rounds)
    (decode_eq_ok_iff.2 ⟨rfl, by simp only [encode, Instr.opcode, Instr.operandBits, Nat.add_assoc]⟩) s

theorem command_init_illegal {w : Word} (s : State) (hopc : field w 31 24 = 0x20) (hr : 2 < field w 7 0) :
    command w s = .next { s with ERR := .illegalCommand } := by
  have hnone : field w 7 0 ∉ [0, 1, 2] := Variant.ofCode_eq_none_iff.1 (Variant.ofCode_eq_none hr)
  obtain ⟨e, he⟩ := decodeI_error_iff.2 hnone
  exact command_of_error ((decode_init hopc).trans he) s

/-- What a successful `INIT` leaves in `S`, from the state after it. -/
theorem words_of_exec_init {klen : Byte} (hk : klen = 16 ∨ klen = 32) {rounds : Variant} {s t : State}
    (h : exec (.init klen 8 rounds) s = .next t) : t.S = keySchedule klen s.KEY s.NONCE := by
  cases (exec_init hk rounds s).symm.trans h
  rfl

/-- Settles O8: the words of `keySchedule`, the two length checks in their order, and the words of format I. -/
theorem initBuildsTheCipherStateOrRefuses : Obligations.InitBuildsTheCipherStateOrRefuses := by
  refine ⟨fun s klen rounds hk => ?_, fun s klen nlen rounds h16 h32 => exec_init_invalidKeySize h16 h32 nlen rounds s,
    fun s klen nlen rounds hk hn => exec_init_invalidNonceSize hk hn rounds s, fun w s => command_init_illegal s,
    command_init, fun s hz => ?_, fun s t rounds hkey h => ?_, fun s t rounds hkey h => ?_,
    fun s t klen rounds hnonce hk h => ?_⟩
  · obtain ⟨hn0, hn1⟩ := keySchedule_nonce klen s.KEY s.NONCE
    obtain ⟨hc0, hc1⟩ := keySchedule_counter klen s.KEY s.NONCE
    exact ⟨_, exec_init hk rounds s, rfl, keySchedule_constants _ _ _,
      fun i hi => ⟨keySchedule_firstHalf _ _ _ hi, keySchedule_secondHalf _ _ _ hi⟩, hn0, hn1, hc0, hc1⟩
  · obtain ⟨hkey, hnonce⟩ := hz
    refine (command_init 32 8 .salsa20 s).trans ?_
    rw [exec_init (.inr rfl), hkey, hnonce]
    rfl
  · rw [words_of_exec_init (.inr rfl) h, hkey]
    exact ⟨rfl, rfl, rfl, rfl⟩
  · rw [words_of_exec_init (.inl rfl) h, hkey]
    exact ⟨rfl, rfl, rfl, rfl⟩
  · obtain ⟨hn0, hn1⟩ := keySchedule_nonce klen s.KEY s.NONCE
    rw [words_of_exec_init hk h, hn0, hn1, hnonce]
    exact ⟨rfl, rfl⟩

/-! ## The keystream as a function of the cipher state -/

/-- Two states that stand at the same place of the same keystream: at cursor 0 the next pull writes the block anew, so
`KS` matters inside a block only (R150). -/
structure SameStream (s s' : State) : Prop where
  words : s.S = s'.S
  variant : s.RV = s'.RV
  cursor : s.CUR = s'.CUR
  block : s.CUR ≠ 0 → s.KS = s'.KS

namespace SameStream

variable {s s' : State}

theorem refill_eq (h : SameStream s s') : (refill s).S = (refill s').S ∧ (refill s).KS = (refill s').KS := by
  by_cases hc : s.CUR = 0
  · rw [refill_of_zero hc, refill_of_zero (h.cursor ▸ hc)]
    simp only [generateBlock_S, generateBlock_KS, h.words, h.variant, and_self]
  · rw [refill_of_ne hc, refill_of_ne (h.cursor ▸ hc)]
    exact ⟨h.words, h.block hc⟩

theorem nextByte_eq (h : SameStream s s') : (nextKsByte s).1 = (nextKsByte s').1 := by
  obtain ⟨-, hks⟩ := h.refill_eq
  simp only [nextKsByte, hks, refill_CUR, h.cursor]

theorem afterByte (h : SameStream s s') : SameStream (nextKsByte s).2 (nextKsByte s').2 where
  words := h.refill_eq.1
  variant := by simp only [nextKsByte_RV, h.variant]
  cursor := by simp only [nextKsByte_CUR, h.cursor]
  block _ := h.refill_eq.2

theorem afterPulls (h : SameStream s s') (m : Nat) : SameStream (afterPulls m s) (afterPulls m s') := by
  induction m with
  | zero => exact h
  | succ m ih => exact ih.afterByte

theorem pulledByte_eq (h : SameStream s s') (m : Nat) : pulledByte s m = pulledByte s' m := (h.afterPulls m).nextByte_eq

end SameStream

/-- Settles O9: `S` comes from the operands and the buffers alone, and at cursor 0 the old block plays no part. -/
theorem initIsAFunctionOfKeyNonceAndWord : Obligations.InitIsAFunctionOfKeyNonceAndWord := by
  intro s s' klen rounds hk hkey hnonce
  have hwords : keySchedule klen s.KEY s.NONCE = keySchedule klen s'.KEY s'.NONCE := by rw [hkey, hnonce]
  exact ⟨_, _, exec_init hk rounds s, exec_init hk rounds s', hwords, rfl, rfl,
    SameStream.pulledByte_eq ⟨hwords, rfl, rfl, fun hc => absurd rfl hc⟩⟩

/-! ## The block counter -/

/-- The increment as addition of 1 modulo 2^64 (R118, R120). -/
theorem counterIncrement_toNat (sw : WordFile) :
    (counterIncrement sw)[8].toNat + 2 ^ 32 * (counterIncrement sw)[9].toNat =
      (sw[8].toNat + 2 ^ 32 * sw[9].toNat + 1) % 2 ^ 64 := by
  rw [← counter_toNat, ← counter_toNat, counter_increment, BitVec.toNat_add]
  rfl

/-- The two lines of R118: word 9 goes by the word 8 just written. -/
theorem counterIncrement_lines (sw : WordFile) : (counterIncrement sw)[8] = add32 sw[8] 1 ∧
    (counterIncrement sw)[9] = if (counterIncrement sw)[8] = 0 then add32 sw[9] 1 else sw[9] :=
  ⟨counterIncrement_low sw, by rw [counterIncrement_low]; exact counterIncrement_high sw⟩

/-- The increment at given counter words, for the examples of R118 and R120. -/
theorem counterIncrement_of_words {sw : WordFile} {low high low' high' : Word} (h8 : sw[8] = low) (h9 : sw[9] = high)
    (hlow : low + 1 = low') (hhigh : (if low' = 0 then high + 1 else high) = high') :
    (counterIncrement sw)[8] = low' ∧ (counterIncrement sw)[9] = high' := by
  rw [counterIncrement_high, counterIncrement_low, h8, h9, hlow]
  exact ⟨rfl, hhigh⟩

theorem counterIncrement_fin (sw : WordFile) (i : Fin 16) (h8 : i ≠ 8) (h9 : i ≠ 9) :
    (counterIncrement sw)[i] = sw[i] :=
  counterIncrement_other sw i.isLt (fun e => h8 (Fin.ext e)) (fun e => h9 (Fin.ext e))

/-- The two commands that count do the same to `S` (R119, R132). -/
theorem exec_counting {i : Instr} (hi : i ∈ [.ctrinc, .genblk]) {s : State} (hk : s.KEYED = true) :
    ∃ t, exec i s = .next t ∧ t.S = counterIncrement s.S := by
  simp only [List.mem_cons, List.not_mem_nil, or_false] at hi
  obtain rfl | rfl := hi
  · exact ⟨_, exec_ctrinc hk, rfl⟩
  · exact ⟨_, exec_genblk hk, rfl⟩

/-- `n` block generations are `n` increments, counted modulo 2^64. -/
theorem execAll_genblk (n : Nat) {s : State} (hk : s.KEYED = true) :
    ∃ t, execAll (List.replicate n .genblk) s = .next t ∧
      t.S[8].toNat + 2 ^ 32 * t.S[9].toNat = (s.S[8].toNat + 2 ^ 32 * s.S[9].toNat + n) % 2 ^ 64 := by
  induction n generalizing s with
  | zero =>
    refine ⟨s, rfl, ?_⟩
    have := s.S[8].isLt
    have := s.S[9].isLt
    omega
  | succ n ih =>
    obtain ⟨t, ht, hcount⟩ := ih (s := { generateBlock s with ERR := .ok }) hk
    refine ⟨t, by simp only [List.replicate_succ, execAll, exec_genblk hk, ht], ?_⟩
    have hstep := counterIncrement_toNat s.S
    simp only [generateBlock_S] at hcount
    omega

/-- 2^32 more in the counter are 1 more in word 9 and nothing in word 8. -/
theorem counterWords_add_two_pow_32 {low high low' high' : Word}
    (h : low'.toNat + 2 ^ 32 * high'.toNat = (low.toNat + 2 ^ 32 * high.toNat + 2 ^ 32) % 2 ^ 64) :
    low' = low ∧ high' = high + 1 := by
  constructor
  · bv_omega
  · bv_omega

/-- Settles O10: both commands leave `counterIncrement` of `S`, and `n` of them add `n`. -/
theorem theCounterIncrementIsA64BitIncrement : Obligations.TheCounterIncrementIsA64BitIncrement := by
  refine ⟨fun s i hi hk => ?_, fun s hk => ⟨fun n => execAll_genblk n hk, ?_⟩⟩
  · obtain ⟨t, ht, hS⟩ := exec_counting hi hk
    obtain ⟨hlow, hhigh⟩ := counterIncrement_lines s.S
    refine ⟨t, ht, ?_⟩
    rw [hS]
    exact ⟨hlow, hhigh, counterIncrement_fin s.S, counterIncrement_toNat s.S,
      fun h8 h9 => counterIncrement_of_words h8 h9 (by decide) (by decide),
      fun h8 h9 => counterIncrement_of_words h8 h9 (by decide) (by decide),
      fun h8 h9 => counterIncrement_of_words h8 h9 (by decide) (by decide)⟩
  · obtain ⟨t, ht, hcount⟩ := execAll_genblk (2 ^ 32) hk
    exact ⟨t, ht, counterWords_add_two_pow_32 hcount⟩

/-- Settles O11: `CTRINC` writes `counterIncrement` of `S` and `ERR`, and nothing else. -/
theorem ctrincChangesOnlyTheCounterAndWraps : Obligations.CtrincChangesOnlyTheCounterAndWraps := by
  refine ⟨zFormat_of_operandless (i := .ctrinc) (by simp [operandless]), fun s => exec_not_keyed rfl,
    fun s hk => ?_, fun s hk h8 h9 => ?_, fun s t u klen rounds hlen ht hu => ?_⟩
  · obtain ⟨hlow, hhigh⟩ := counterIncrement_lines s.S
    exact ⟨_, exec_ctrinc hk, hlow, hhigh, counterIncrement_fin s.S,
      fun h8 h9 => counterIncrement_of_words h8 h9 (by decide) (by decide), rfl⟩
  · obtain ⟨hlow, hhigh⟩ := counterIncrement_of_words (low' := 0) (high' := 0) h8 h9 (by decide) (by decide)
    exact ⟨_, exec_genblk hk, hlow, hhigh, rfl⟩
  · cases (exec_init hlen rounds s).symm.trans ht
    cases (exec_ctrinc rfl).symm.trans hu
    obtain ⟨h8, h9⟩ := keySchedule_counter klen s.KEY s.NONCE
    exact counterIncrement_of_words h8 h9 (by decide) (by decide)

end Sys2Proof.Machine

/-! Proofs about the keystream generator (spec/42_keystream_generator.md R130 to R137). `GENBLK` leaves `blockWords` in
`X`, its serialisation in `KS` and the incremented counter in `S`; its micro-commands reach the same state one field at
a time (`execAll_dblrnd`). -/

namespace Sys2Proof.Machine

open Sys2Proof.Statements

/-! ## The values the commands leave -/

theorem exec_xser (s : State) : exec .xser s = .next { s with KS := serialise s.X, ERR := .ok } := rfl

/-- The rounds of each variant (R39, R131). -/
theorem eq_ndr_of_mem {v : Variant} {n : Nat}
    (h : (v, n) ∈ [(Variant.salsa20, 10), (Variant.salsa12, 6), (Variant.salsa8, 4)]) : n = ndr v := by
  simp only [List.mem_cons, Prod.mk.injEq, List.not_mem_nil, or_false] at h
  obtain ⟨rfl, rfl⟩ | ⟨rfl, rfl⟩ | ⟨rfl, rfl⟩ := h
  · rfl
  · rfl
  · rfl

/-- The feed-forward, word by word (R130). -/
theorem blockWords_word (sw : WordFile) (v : Variant) (i : Fin 16) :
    (blockWords sw v)[i] = add32 (doubleRound^[ndr v] sw)[i] sw[i] := by
  rw [← doubleRounds_eq_iterate]
  exact feedForward_word _ sw i.isLt

/-- The host reads the words of `X` once they are serialised (R46, R135). -/
theorem readReg_ksw_of_serialised {t : State} (h : t.KS = serialise t.X) (i : Fin 16) :
    readReg (.ksw i) t = t.X[i] := by
  rw [readReg, h, ksWord_serialise]

/-- The cipher state of the all-zero 32-byte key and nonce (R110 to R112). -/
def zeroKeyWords : WordFile := keySchedule 32 (Vector.replicate 32 0) (Vector.replicate 8 0)

/-- The spec's examples start from an `INIT 32, 8, 20` of the all-zero key and nonce (R110). -/
theorem command_init_zeroKey {s : State} (hz : ZeroKey s) : command 0x20200800 s = .next { s with
    S := zeroKeyWords
    RV := .salsa20
    CUR := 0
    KEYED := true
    ERR := .ok } := by
  obtain ⟨hkey, hnonce⟩ := hz
  rw [zeroKeyWords, ← hkey, ← hnonce]
  exact (command_init 32 8 .salsa20 s).trans (exec_init (.inr rfl) .salsa20 s)

theorem zeroKeyWords_eq : zeroKeyWords =
    #v[0x61707865, 0, 0, 0, 0, 0x3320646E, 0, 0, 0, 0, 0x79622D32, 0, 0, 0, 0, 0x6B206574] := rfl

/-! ## `XLOAD`, `XADD`, `XSER` -/

/-- Settles O13: `X` becomes `S`, and after the example's `INIT` that is the zero-key cipher state. -/
theorem xloadCopiesTheCipherState : Obligations.XloadCopiesTheCipherState := by
  have hz : ZFormat 0x31 .xload := zFormat_of_operandless (i := .xload) (by simp [operandless])
  refine ⟨hz, fun s => exec_not_keyed rfl, fun s hk => ⟨_, exec_xload hk, fun _ => rfl, rfl⟩,
    fun s t u hzero ht hu => ?_⟩
  cases (command_init_zeroKey hzero).symm.trans ht
  cases ((hz.1 _).trans (exec_xload rfl)).symm.trans hu
  exact zeroKeyWords_eq

/-- Lane `i` adds its own two words, and nothing carries into it (R134). -/
theorem feedForward_lane {x sw : WordFile} {i : Nat} (hi : i < 16) {a b : Word} (hx : x[i] = a) (hs : sw[i] = b) :
    (feedForward x sw)[i] = a + b := by
  rw [feedForward_word x sw hi, hx, hs]

/-- Settles O14: each lane is one 32-bit addition. -/
theorem xaddAddsTheCipherStateLaneByLane : Obligations.XaddAddsTheCipherStateLaneByLane := by
  refine ⟨zFormat_of_operandless (i := .xadd) (by simp [operandless]), fun s => exec_not_keyed rfl,
    fun s hk => ⟨_, exec_xadd hk, fun i => ?_, rfl⟩, fun s t i hk ht hx hs => ?_, fun s t u hk hs ht hu => ?_⟩
  · exact (congrArg BitVec.toNat (feedForward_lane i.isLt rfl rfl)).trans (BitVec.toNat_add _ _)
  · cases (exec_xadd hk).symm.trans ht
    exact (feedForward_lane i.isLt hx hs).trans (by decide)
  · cases (exec_xload hk).symm.trans ht
    cases (exec_xadd (by exact hk)).symm.trans hu
    exact feedForward_lane (x := s.S) (sw := s.S) (by omega) hs hs

/-- Settles O15: byte `4i + j` of `KS` is byte `j` of word `i`, and `XSER` does not ask for `KEYED`. -/
theorem xserSerialisesLittleEndian : Obligations.XserSerialisesLittleEndian := by
  refine ⟨zFormat_of_operandless (i := .xser) (by simp [operandless]),
    fun s => ⟨_, exec_xser s, fun i j hi hj => serialise_byte s.X hi hj, readReg_ksw_of_serialised rfl, rfl⟩,
    fun s t hx ht => ?_⟩
  cases (exec_xser s).symm.trans ht
  have byte : ∀ j, ∀ _ : j < 4, (serialise s.X)[4 * 0 + j] = byteOf 0x5BF6979A j :=
    fun j hj => (serialise_byte s.X (by omega) hj).trans (by rw [hx])
  exact ⟨byte 0 (by omega), byte 1 (by omega), byte 2 (by omega), byte 3 (by omega)⟩

/-! ## `GENBLK` -/

/-- The first block of the all-zero key and nonce: its bytes, and its first word (R132). -/
theorem block_zeroKey :
    (block zeroKeyWords .salsa20).toList =
      hexBytes 64 0x9a97f65b9b4c721b960a672145fca8d4e32e67f9111ea979ce9c4826806aeee63de9c0da2bd7f91ebcb2639bf989c6251b29bf38d39a9bdce7c55f4b2ac12a39 ∧
    (blockWords zeroKeyWords .salsa20)[0] = 0x5BF6979A := by
  decide +kernel

/-- Settles O12: the sums of `blockWords` word by word, their bytes by `serialise`, and the example's first block. -/
theorem genblkRunsTheRoundsAddsTheStateAndCounts : Obligations.GenblkRunsTheRoundsAddsTheStateAndCounts := by
  have hz : ZFormat 0x30 .genblk := zFormat_of_operandless (i := .genblk) (by simp [operandless])
  refine ⟨hz, fun s => exec_not_keyed rfl, fun s n hn hk => ?_, fun s hzero => ?_⟩
  · obtain rfl := eq_ndr_of_mem hn
    exact ⟨_, exec_genblk hk, blockWords_word s.S s.RV, fun i j hi hj => serialise_byte _ hi hj,
      readReg_ksw_of_serialised rfl, rfl, rfl⟩
  · obtain ⟨hbytes, hword⟩ := block_zeroKey
    obtain ⟨hlow, hhigh⟩ := keySchedule_counter 32 (Vector.replicate 32 0) (Vector.replicate 8 0)
    obtain ⟨hlow', hhigh'⟩ := counterIncrement_of_words (low' := 1) (high' := 0) hlow hhigh (by decide) (by decide)
    exact ⟨_, _, command_init_zeroKey hzero, (hz.1 _).trans (exec_genblk rfl), hbytes, hword, hlow', hhigh', rfl⟩

/-- Settles O17: the block is `block` of `S` and `RV`, and the counter moves on by one. -/
theorem theBlockDependsOnStateAndVariantOnly : Obligations.TheBlockDependsOnStateAndVariantOnly := by
  refine ⟨fun s s' hk hk' hS hRV => ?_, fun s sw n hk hS => ?_⟩
  · exact ⟨_, _, exec_genblk hk, exec_genblk hk', by simp only [generateBlock_KS, hS, hRV], rfl⟩
  · refine ⟨_, _, exec_genblk hk, exec_genblk hk, ?_, ?_⟩
    · simp only [generateBlock_KS, hS]
    · simp only [generateBlock_KS, generateBlock_S, generateBlock_RV, hS, counterIncrement_atBlock]

/-! ## The micro-commands -/

theorem execAll_cons {i : Instr} {s t : State} (h : exec i s = .next t) (is : List Instr) :
    execAll (i :: is) s = execAll is t := by simp only [execAll, h]

theorem execAll_append {is : List Instr} {s t : State} (h : execAll is s = .next t) (js : List Instr) :
    execAll (is ++ js) s = execAll js t := by
  induction is generalizing s with
  | nil => cases h; rfl
  | cons i is ih =>
    rw [execAll] at h
    split at h
    · next u hu => exact (execAll_cons hu _).trans (ih h)
    · cases h
    · cases h

/-- `n` commands `DBLRND` on a state whose last command completed are `n` double-rounds of the file. -/
theorem execAll_dblrnd (n : Nat) (x : WordFile) (s : State) :
    execAll (List.replicate n .dblrnd) { s with X := x, ERR := .ok } =
      .next { s with X := doubleRounds n x, ERR := .ok } := by
  induction n generalizing x with
  | zero => rfl
  | succ n ih => exact (execAll_cons (exec_dblrnd _) _).trans (ih (doubleRound x))

/-- The decomposition of `GENBLK` (R85, R136). -/
theorem execAll_genblkMicro {s : State} (hk : s.KEYED = true) :
    execAll ([Instr.xload] ++ List.replicate (ndr s.RV) Instr.dblrnd ++ [Instr.xadd, .xser, .ctrinc]) s =
      .next { generateBlock s with ERR := .ok } := by
  have hrounds : execAll ([Instr.xload] ++ List.replicate (ndr s.RV) Instr.dblrnd) s =
      .next { s with X := doubleRounds (ndr s.RV) s.S, ERR := .ok } :=
    (execAll_cons (exec_xload hk) _).trans (execAll_dblrnd (ndr s.RV) s.S s)
  rw [execAll_append hrounds, execAll_cons (exec_xadd (by exact hk)), execAll_cons (exec_xser _),
    execAll_cons (exec_ctrinc (by exact hk))]
  rfl

/-- Settles O16: the double-rounds by their number, the others by running the micro-commands in order. -/
theorem genblkEqualsItsMicroCommands : Obligations.GenblkEqualsItsMicroCommands := by
  refine ⟨fun s hk => ⟨_, execAll_genblkMicro hk, exec_genblk hk, rfl⟩, fun s => ⟨_, ?_, exec_dblrnd s⟩,
    fun s => ⟨_, ?_, exec_colrnd s⟩, fun s => ⟨_, ?_, exec_rowrnd s⟩⟩
  · rw [execAll_cons (exec_colrnd s), execAll_cons (exec_rowrnd _)]
    rfl
  · iterate 4 rw [execAll_cons (exec_qr rfl _)]
    rfl
  · iterate 4 rw [execAll_cons (exec_qr rfl _)]
    rfl

end Sys2Proof.Machine

/-! Proofs about the byte cursor (spec/43_byte_cursor.md R150 to R170), first the keystream position. One pull takes a block
that stands at byte `m` of a keystream to byte `m + 1` and delivers byte `m` (`OnStream.nextByte`, `OnStream.afterByte`);
each byte command is a number of pulls, and every other command either restarts the keystream or leaves alone the five
fields the position is a matter of. -/

namespace Sys2Proof.Machine

open Sys2Proof.Statements

/-! ## One pull -/

/-- A pull delivers the byte at the cursor of the block it finds, or of the one it generates (R150). -/
theorem nextKsByte_fst (s : State) : (nextKsByte s).1 = (refill s).KS[s.CUR] := by simp only [nextKsByte, refill_CUR]

/-- The cursor runs modulo 64 (R30). -/
theorem cursor_succ (c : Fin 64) : (c + 1).val = (c.val + 1) % 64 := Fin.val_add c 1

/-- Settles O18: the refill at cursor 0 and elsewhere, and the cursor by the wrap of `Fin 64`. -/
theorem aPullGeneratesAtCursorZeroAndAdvances : Obligations.APullGeneratesAtCursorZeroAndAdvances := by
  refine fun s => ⟨fun hc => ?_, fun hc => ?_, ?_⟩
  · simp only [nextKsByte, refill_of_zero hc, generateBlock_CUR, generateBlock_KS, hc]
    exact ⟨rfl, rfl⟩
  · simp only [nextKsByte, refill_of_ne hc, and_self]
  · rw [nextKsByte_CUR, cursor_succ]

/-! ## Pulls along the keystream -/

theorem atBlock_eq_self {sw : WordFile} (h8 : sw[8] = 0) (h9 : sw[9] = 0) : atBlock sw 0 = sw := by
  have h := atBlock_counter sw
  rwa [counter_toNat, h8, h9] at h

theorem atBlock_succ_ne (sw : WordFile) (n : Nat) : atBlock sw (n + 1) ≠ atBlock sw n := by
  intro h
  have hlow := congrArg (fun x : WordFile => x[8].toNat) h
  simp only [atBlock_low, BitVec.toNat_ofNat] at hlow
  omega

namespace OnStream

variable {sw : WordFile} {v : Variant} {m : Nat} {s t : State}

/-- The block a pull takes its byte from, stored or just generated (R150, R151). -/
theorem refill_KS (h : OnStream sw v m s) : (refill s).KS = Machine.block (atBlock sw (m / 64)) v := by
  by_cases hm : m % 64 = 0
  · have hdiv : (m + 63) / 64 = m / 64 := by omega
    rw [refill_of_zero (h.cursor_zero.2 hm), generateBlock_KS, h.words, h.variant, hdiv]
  · rw [refill_of_ne fun hc => hm (h.cursor_zero.1 hc), h.block hm]

/-- The counter moves on with the first byte of each block (R151). -/
theorem refill_S (h : OnStream sw v m s) : (refill s).S = atBlock sw ((m + 1 + 63) / 64) := by
  by_cases hm : m % 64 = 0
  · have hdiv : (m + 63) / 64 + 1 = (m + 1 + 63) / 64 := by omega
    rw [refill_of_zero (h.cursor_zero.2 hm), generateBlock_S, h.words, counterIncrement_atBlock, hdiv]
  · have hdiv : (m + 63) / 64 = (m + 1 + 63) / 64 := by omega
    rw [refill_of_ne fun hc => hm (h.cursor_zero.1 hc), h.words, hdiv]

theorem nextByte (h : OnStream sw v m s) : (nextKsByte s).1 = streamByte sw v m := by
  rw [nextKsByte_fst]
  simp only [Fin.getElem_fin, h.refill_KS, h.cursor, streamByte]

theorem afterByte (h : OnStream sw v m s) : OnStream sw v (m + 1) (nextKsByte s).2 where
  keyed := by rw [nextKsByte_KEYED, h.keyed]
  words := h.refill_S
  variant := by rw [nextKsByte_RV, h.variant]
  cursor := by
    have hcur := h.cursor
    rw [nextKsByte_CUR, cursor_succ]
    omega
  block hm := by
    have hdiv : m / 64 = (m + 1) / 64 := by omega
    rw [nextKsByte_KS, h.refill_KS, hdiv]

theorem afterPulls (h : OnStream sw v m s) (k : Nat) : OnStream sw v (m + k) (afterPulls k s) := by
  induction k with
  | zero => exact h
  | succ k ih => exact ih.afterByte

theorem pulledByte_eq (h : OnStream sw v m s) (k : Nat) : pulledByte s k = streamByte sw v (m + k) :=
  (h.afterPulls k).nextByte

theorem counter_words (h : OnStream sw v m s) : s.S[8].toNat + 2 ^ 32 * s.S[9].toNat = (m + 63) / 64 % 2 ^ 64 := by
  rw [h.words, atBlock_low, atBlock_high, BitVec.toNat_ofNat, BitVec.toNat_ofNat]
  omega

/-- A state stands at no two positions whose blocks follow one another. -/
theorem not_of_next_block (h : t.S = atBlock sw ((m + 63) / 64 + 1)) : ¬OnStream sw v m t := fun ht =>
  atBlock_succ_ne sw _ (h.symm.trans ht.words)

end OnStream

/-! ## `INIT` and `RESET` restart the keystream -/

theorem keySchedule_atBlock_zero (klen : Byte) (key : Vector Byte 32) (nonce : Vector Byte 8) :
    atBlock (keySchedule klen key nonce) 0 = keySchedule klen key nonce := by
  obtain ⟨h8, h9⟩ := keySchedule_counter klen key nonce
  exact atBlock_eq_self h8 h9

theorem exec_init_onStream {klen : Byte} (hk : klen = 16 ∨ klen = 32) {rounds : Variant} {s t : State}
    (h : exec (.init klen 8 rounds) s = .next t) : t.S = atBlock t.S 0 ∧ OnStream t.S rounds 0 t := by
  cases (exec_init hk rounds s).symm.trans h
  have hS := (keySchedule_atBlock_zero klen s.KEY s.NONCE).symm
  exact ⟨hS, .start hS rfl rfl rfl⟩

theorem exec_reset_onStream {s t : State} (hk : s.KEYED = true) (h : exec .reset s = .next t) :
    t.S = atBlock s.S 0 ∧ OnStream t.S s.RV 0 t := by
  cases (exec_reset hk).symm.trans h
  exact ⟨rfl, .start (atBlock_atBlock s.S 0 0).symm rfl rfl hk⟩

/-- Settles O19: `INIT` writes counter words 0, and so does `RESET`; both put the cursor to 0. -/
theorem initAndResetStartTheKeystream : Obligations.InitAndResetStartTheKeystream :=
  ⟨fun s _ rounds hk => ⟨_, exec_init hk rounds s, exec_init_onStream hk (exec_init hk rounds s)⟩,
    fun _ hk => ⟨_, exec_reset hk, exec_reset_onStream hk (exec_reset hk)⟩⟩

/-! ## How far each command moves the keystream -/

/-- A command that ends with an error other than `BusFault` changes nothing but `ERR` (R202). -/
theorem exec_eq_withErr {i : Instr} {s t : State} (h : exec i s = .next t) (hok : t.ERR ≠ .ok)
    (hbus : t.ERR ≠ .busFault) : t = { s with ERR := t.ERR } := by
  cases exec_effect h with
  | raised => rfl
  | mixed | xser | init | ctrinc | genblk | reset | xorb | nextint => exact absurd rfl hok
  | xor hk =>
    obtain ⟨-, ht⟩ | ⟨k, -, -, ⟨-, ht⟩ | ⟨-, -, ht⟩⟩ := exec_xor_cases hk h
    · exact absurd (congrArg State.ERR ht) hok
    · exact absurd (congrArg State.ERR ht) hbus
    · exact absurd (congrArg State.ERR ht) hbus

/-- The mixing commands write `X` and `ERR`, or `ERR` alone (R99 to R102, R133, R134). -/
theorem CommandEffect.of_mixing {i : Instr} {s t : State} (h : CommandEffect s i t)
    (hi : i ∈ [.colrnd, .rowrnd, .dblrnd, .xload, .xadd] ∨ ∃ a b c d, i = .qr a b c d) :
    t = { s with X := t.X, ERR := t.ERR } := by
  cases h with
  | raised | mixed => rfl
  | xser | init | ctrinc | genblk | reset | xorb | nextint | xor => simp at hi

/-- The commands that neither pull nor disturb the keystream are the mixing commands. -/
theorem mixing_of_not_disturbing {i : Instr} (hd : disturbsStream i = false) (hb : ∀ b, i ≠ .xorb b)
    (hw : ∀ w, i ≠ .nextint w) (hx : i ≠ .xor) :
    i ∈ [.colrnd, .rowrnd, .dblrnd, .xload, .xadd] ∨ ∃ a b c d, i = .qr a b c d := by
  cases i with
  | qr a b c d => exact .inr ⟨a, b, c, d, rfl⟩
  | colrnd | rowrnd | dblrnd | xload | xadd => simp
  | init | ctrinc | genblk | xser | reset => cases hd
  | xorb b => exact absurd rfl (hb b)
  | xor => exact absurd rfl hx
  | nextint w => exact absurd rfl (hw w)

/-- No register write but a command reaches the keystream block (R33, R45). -/
theorem writeReg_KS {r : Reg} {v : Word} {s t : State} (hr : r ≠ .cmd) (h : writeReg r v s = .next t) : t.KS = s.KS := by
  cases r with
  | cmd => exact absurd rfl hr
  | src | dst | len | keyw | noncew | x | status | err | xcnt | resultLo | resultHi | s | ksw => cases h; rfl

namespace OnStream

variable {sw : WordFile} {v : Variant} {m : Nat} {s t : State}

theorem exec_xorb (h : OnStream sw v m s) {b : Byte} (he : exec (.xorb b) s = .next t) : OnStream sw v (m + 1) t := by
  cases (Machine.exec_xorb h.keyed b).symm.trans he
  exact h.afterByte.congr rfl rfl rfl rfl rfl

theorem exec_nextint (h : OnStream sw v m s) {w : Fin 4} (he : exec (.nextint w) s = .next t) :
    OnStream sw v (m + 2 ^ w.val) t := by
  cases (Machine.exec_nextint h.keyed w).symm.trans he
  exact (h.afterPulls _).congr rfl rfl rfl rfl rfl

/-- The bytes an `XOR` has stored, and how it ends, play no part in the position. -/
theorem xorState (h : OnStream sw v m s) (pulls stored : Nat) (e : ErrCode) :
    OnStream sw v (m + pulls) { xorState s pulls stored with ERR := e } :=
  (h.afterPulls pulls).congr rfl rfl rfl rfl rfl

/-- An `XOR` pulls one byte for each byte stored, and one more when a write is not admitted (R157, R161). -/
theorem exec_xor (h : OnStream sw v m s) (he : exec .xor s = .next t) :
    (t.ERR = .ok ∧ OnStream sw v (m + xorLength s) t) ∨
    (t.ERR = .busFault ∧ (OnStream sw v (m + t.XCNT.toNat) t ∨ OnStream sw v (m + t.XCNT.toNat + 1) t)) := by
  have hlen := xorLength_lt s
  have hcnt : ∀ k < xorLength s, (BitVec.ofNat 32 k).toNat = k := fun k hk => by
    rw [BitVec.toNat_ofNat, Nat.mod_eq_of_lt (by omega)]
  obtain ⟨-, rfl⟩ | ⟨k, hk, -, ⟨-, rfl⟩ | ⟨-, -, rfl⟩⟩ := exec_xor_cases h.keyed he
  · exact .inl ⟨rfl, h.xorState _ _ _⟩
  · refine .inr ⟨rfl, .inl ?_⟩
    rw [show ({ Machine.xorState s k k with ERR := .busFault } : State).XCNT.toNat = k from hcnt k hk]
    exact h.xorState _ _ _
  · refine .inr ⟨rfl, .inr ?_⟩
    rw [show ({ Machine.xorState s (k + 1) k with ERR := .busFault } : State).XCNT.toNat = k from hcnt k hk]
    exact h.xorState (k + 1) k _

theorem exec_xor_completed (h : OnStream sw v m s) (he : exec .xor s = .next t) (hok : t.ERR = .ok) :
    OnStream sw v (m + xorLength s) t := by
  obtain ⟨-, ht⟩ | ⟨hbus, -⟩ := h.exec_xor he
  · exact ht
  · simp [hok] at hbus

theorem of_error {w : Word} (h : OnStream sw v m s) (hc : command w s = .next t) (hok : t.ERR ≠ .ok)
    (hbus : t.ERR ≠ .busFault) : OnStream sw v m t := by
  have ht : t = { s with ERR := t.ERR } := by
    cases hd : decode w with
    | error e => rw [command_of_error hd] at hc; cases hc; rfl
    | ok i => exact exec_eq_withErr ((command_of_ok hd s).symm.trans hc) hok hbus
  rw [ht]
  exact h.congr rfl rfl rfl rfl rfl

theorem of_mixing {i : Instr} (h : OnStream sw v m s) (he : exec i s = .next t)
    (hi : i ∈ [.colrnd, .rowrnd, .dblrnd, .xload, .xadd] ∨ ∃ a b c d, i = .qr a b c d) : OnStream sw v m t := by
  rw [(exec_effect he).of_mixing hi]
  exact h.congr rfl rfl rfl rfl rfl

/-- A register access that is no command leaves the keystream where it is (R63). -/
theorem of_perform {a : HostAccess} (h : OnStream sw v m s)
    (hcmd : ∀ size off w, a = .write size off w → regOf size off ≠ .ok .cmd) (hr : a ≠ .hardwareReset)
    (hp : perform a s = .next t) : OnStream sw v m t := by
  obtain ⟨size, off, r, -, -, rfl⟩ | ⟨size, off, r, x, -, -, hc, hw⟩ | ⟨size, off, w, ha, hreg, -⟩ | ⟨ha, -⟩ :=
    perform_cases hp
  · exact h.congr rfl rfl rfl rfl rfl
  · obtain ⟨hwords, hcur, hrv, hkeyed, -⟩ := (writeReg_commandFieldsKept hc hw).1
    exact h.congr hwords hrv hcur (writeReg_KS hc hw :) hkeyed
  · exact absurd hreg (hcmd size off w ha)
  · exact absurd ha hr

/-- Both commands on the counter take the block away from its position (R223, R224). -/
theorem not_after_counting {i : Instr} (h : OnStream sw v m s) (hi : i ∈ [.ctrinc, .genblk]) :
    ∃ t, exec i s = .next t ∧ ¬OnStream sw v m t := by
  obtain ⟨t, ht, hS⟩ := exec_counting hi h.keyed
  refine ⟨t, ht, not_of_next_block ?_⟩
  rw [hS, h.words, counterIncrement_atBlock]

end OnStream

/-- Settles O21, clause by clause. -/
theorem byteCommandsAdvanceTheKeystreamByWhatTheyPull : Obligations.ByteCommandsAdvanceTheKeystreamByWhatTheyPull :=
  fun _ _ _ _ h _ => ⟨fun _ => h.exec_xorb, fun _ => h.exec_nextint, h.exec_xor, fun _ => h.of_error,
    fun _ hd hb hw hx he => h.of_mixing he (mixing_of_not_disturbing hd hb hw hx), fun _ => h.of_perform⟩

/-! ## The keystream of the all-zero key -/

/-- The block right after the `INIT` of the spec's examples. -/
def zeroKeyStart (s : State) : State :=
  { s with S := zeroKeyWords, RV := .salsa20, CUR := 0, KEYED := true, ERR := .ok }

theorem command_init_zeroKeyStart {s : State} (hz : ZeroKey s) : command 0x20200800 s = .next (zeroKeyStart s) :=
  command_init_zeroKey hz

theorem zeroKeyStart_onStream (s : State) : OnStream zeroKeyWords .salsa20 0 (zeroKeyStart s) :=
  .start (keySchedule_atBlock_zero 32 _ _).symm rfl rfl rfl

/-- One byte into the keystream with the working file cleared by the host, as a state for `XSER` and `INIT` to disturb:
`X` no longer holds the words of the block. -/
def clearedAtByteOne : State := { (nextKsByte (zeroKeyStart .reset)).2 with X := Vector.replicate 16 0 }

theorem clearedAtByteOne_onStream : OnStream zeroKeyWords .salsa20 1 clearedAtByteOne :=
  (zeroKeyStart_onStream .reset).afterByte.congr rfl rfl rfl rfl rfl

theorem block_zeroKey_ne_zero :
    serialise (Vector.replicate 16 0) ≠ block (atBlock zeroKeyWords (1 / 64)) .salsa20 := by
  decide +kernel

/-- Settles O20: the restarts, the byte commands, the two counting commands, a cleared `X` for `XSER`, byte 1 for `INIT`,
and the induction over the pulls. -/
theorem pullsDeliverTheConcatenatedBlocks : Obligations.PullsDeliverTheConcatenatedBlocks := by
  refine ⟨fun s t klen rounds hk h => (exec_init_onStream hk h).2, fun s t hk h => (exec_reset_onStream hk h).2,
    fun sw v m s w t h hc => ⟨h.of_error hc, fun hok => ⟨fun b hd => ?_, fun hd => ?_, fun n hd => ?_⟩⟩,
    fun sw v m s i h hi => h.not_after_counting (by simpa [or_comm] using hi),
    ⟨zeroKeyWords, .salsa20, 1, clearedAtByteOne, _, clearedAtByteOne_onStream, exec_xser _, fun h => ?_⟩,
    ⟨zeroKeyWords, .salsa20, 1, clearedAtByteOne, _, clearedAtByteOne_onStream, exec_init (.inr rfl) _ _, fun h => ?_⟩,
    fun sw v m s h k => ?_⟩
  · exact h.exec_xorb ((command_of_ok hd s).symm.trans hc)
  · exact h.exec_xor_completed ((command_of_ok hd s).symm.trans hc) hok
  · exact h.exec_nextint ((command_of_ok hd s).symm.trans hc)
  · exact block_zeroKey_ne_zero (h.block (by decide))
  · exact absurd h.cursor (by decide)
  · have hk := h.afterPulls k
    exact ⟨h.pulledByte_eq k, hk, hk.cursor, hk.counter_words⟩

/-! ## The unconsumed bytes of a block -/

/-- The increment leaves the cipher state at every block index what it was. -/
theorem atBlock_counterIncrement (sw : WordFile) (n : Nat) : atBlock (counterIncrement sw) n = atBlock sw n := by
  have h := counterIncrement_atBlock sw (counter sw).toNat
  rw [atBlock_counter] at h
  rw [h, atBlock_atBlock]

/-- The block whose index is one below the counter after an increment is the block generated before it (R130, R170). -/
theorem block_before_counterIncrement (sw : WordFile) :
    atBlock (counterIncrement sw) (counter (counterIncrement sw) - 1).toNat = sw := by
  rw [atBlock_counterIncrement, counter_increment, BitVec.add_sub_cancel, atBlock_counter]

namespace UnconsumedBytesFit

variable {s t : State}

/-- A pull leaves the bytes of one block after the cursor: all of a fresh one but byte 0, or one fewer than before. -/
theorem afterByte (h : UnconsumedBytesFit s) : UnconsumedBytesFit (nextKsByte s).2 := by
  intro hne i hi
  simp only [nextKsByte_CUR] at hne hi
  simp only [nextKsByte_S, nextKsByte_KS, nextKsByte_RV]
  by_cases hc : s.CUR = 0
  · simp only [refill_of_zero hc, generateBlock_S, generateBlock_KS, block_before_counterIncrement]
  · have hle : s.CUR ≤ i := by
      have hsucc := cursor_succ s.CUR
      rw [ne_eq, ← Fin.val_eq_zero_iff] at hne
      rw [Fin.le_def] at hi ⊢
      omega
    simp only [refill_of_ne hc]
    exact h hc i hle

theorem afterPulls (h : UnconsumedBytesFit s) (k : Nat) : UnconsumedBytesFit (afterPulls k s) := by
  induction k with
  | zero => exact h
  | succ k ih => exact ih.afterByte

/-- Every command keeps the unconsumed bytes, the three of R223 and R224 at cursor 0 only. -/
theorem afterCommand (h : UnconsumedBytesFit s) {i : Instr} (he : CommandEffect s i t)
    (hi : s.CUR ≠ 0 → i ≠ .genblk ∧ i ≠ .xser ∧ i ≠ .ctrinc) : UnconsumedBytesFit t := by
  have hzero : (i = .genblk ∨ i = .xser ∨ i = .ctrinc) → s.CUR = 0 := fun hm => by
    by_contra hc
    obtain ⟨h1, h2, h3⟩ := hi hc
    exact hm.elim h1 (fun hm => hm.elim h2 h3)
  cases he with
  | raised | mixed => exact h.congr rfl rfl rfl rfl
  | init | reset => exact .of_cursor_zero rfl
  | xser | ctrinc | genblk => exact .of_cursor_zero (hzero (by simp))
  | xorb => exact h.afterByte.congr rfl rfl rfl rfl
  | nextint | xor => exact (h.afterPulls _).congr rfl rfl rfl rfl

end UnconsumedBytesFit

/-- Settles O31: a command by `UnconsumedBytesFit.afterCommand`, the reset event by its cursor, and no other access writes a
field the invariant speaks of. -/
theorem theUnconsumedBytesBelongToTheBlockBeforeTheCounter :
    Obligations.TheUnconsumedBytesBelongToTheBlockBeforeTheCounter := by
  intro s t h hstep hduty
  obtain ⟨rest, answer, rfl⟩ | ⟨size, off, r, v, rest, -, -, hc, hw⟩ | ⟨size, off, w, rest, -, -, rfl⟩ |
    ⟨size, off, w, rest, i, hp, hreg, hd, hw⟩ | ⟨rest, -, rfl⟩ := step_cases hstep
  · exact h.congr rfl rfl rfl rfl
  · obtain ⟨hwords, hcur, hrv, -⟩ := (writeReg_commandFieldsKept hc hw).1
    exact h.congr hwords hrv hcur (writeReg_KS hc hw :)
  · exact h.congr rfl rfl rfl rfl
  · have hnext : NextCommand s i := ⟨size, off, w, ⟨rest, hp⟩, hreg, hd⟩
    have hstart : UnconsumedBytesFit { s with pending := rest, reply := .done } := h.congr rfl rfl rfl rfl
    refine hstart.afterCommand (exec_effect hw) fun hne => ?_
    obtain ⟨hg, hx, hi⟩ := hduty hne
    exact ⟨fun e => hg (e ▸ hnext), fun e => hx (e ▸ hnext), fun e => hi (e ▸ hnext)⟩
  · exact .of_cursor_zero rfl

end Sys2Proof.Machine

/-! Proofs about the byte cursor, continued: what `XORB` and `NEXTINT` return and what `RESET` restarts (R152, R163 to
R169). On a keystream every returned value is a matter of the position alone, so the spec's examples are chains of
positions in the keystream of the all-zero key. -/

namespace Sys2Proof.Machine

open Sys2Proof.Statements

/-! ## Reading the position off the state -/

namespace OnStream

variable {sw : WordFile} {v : Variant} {m : Nat} {s t : State}

theorem cur_eq (h : OnStream sw v m s) {c : Fin 64} (hc : m % 64 = c.val) : s.CUR = c := Fin.ext (h.cursor.trans hc)

theorem low_word (h : OnStream sw v m s) : s.S[8] = BitVec.ofNat 32 ((m + 63) / 64) := by rw [h.words, atBlock_low]

end OnStream

/-! ## The keystream of the all-zero key, byte by byte -/

/-- The first 68 bytes of the keystream of the all-zero key and nonce: block 0 and the head of block 1. -/
def zeroKeyByte (m : Nat) : Byte := (hexBytes 68
  0x9a97f65b9b4c721b960a672145fca8d4e32e67f9111ea979ce9c4826806aeee63de9c0da2bd7f91ebcb2639bf989c6251b29bf38d39a9bdce7c55f4b2ac12a39abea8a17).getD m 0

theorem block_byte_of_take {b : Block} {bs : List Byte} {n i : Nat} (h : b.toList.take n = bs) (hn : i < n)
    (hi : i < 64) : b[i] = bs.getD i 0 := by
  rw [← h, List.getD_eq_getElem _ _ (by simp; omega), List.getElem_take, Vector.getElem_toList]

theorem block_one_zeroKey_head :
    (block (atBlock zeroKeyWords 1) .salsa20).toList.take 4 = [0xab, 0xea, 0x8a, 0x17] := by
  decide +kernel

theorem streamByte_zeroKey {m : Nat} (hm : m < 68) : streamByte zeroKeyWords .salsa20 m = zeroKeyByte m := by
  have hzero : atBlock zeroKeyWords 0 = zeroKeyWords := keySchedule_atBlock_zero 32 _ _
  by_cases h : m < 64
  · have hdiv : m / 64 = 0 := by omega
    have hmod : m % 64 = m := by omega
    simp only [streamByte, hdiv, hmod, hzero]
    rw [block_byte_of_take (List.take_of_length_le (by simp)) h, block_zeroKey.1]
    revert m
    decide +kernel
  · have hdiv : m / 64 = 1 := by omega
    simp only [streamByte, hdiv]
    rw [block_byte_of_take block_one_zeroKey_head (by omega)]
    obtain ⟨i, rfl⟩ : ∃ i, m = 64 + i := ⟨m - 64, by omega⟩
    have hi : i < 4 := by omega
    clear hm h hdiv
    revert i
    decide +kernel
/-! ## `XORB` -/

theorem command_xorb (b : Byte) (s : State) :
    command (BitVec.ofNat 32 (0x40 * 2 ^ 24 + b.toNat)) s = exec (.xorb b) s :=
  command_of_ok (i := .xorb b) (decode_eq_ok_iff.2 ⟨rfl, rfl⟩) s

theorem command_xorb_illegal {w : Word} (s : State) (hopc : field w 31 24 = 0x40) (hres : field w 23 8 ≠ 0) :
    command w s = .next { s with ERR := .illegalCommand } := by
  obtain ⟨e, he⟩ := decodeB_error_iff.2 hres
  exact command_of_error ((decode_xorb hopc).trans he) s

/-- A byte in the low bits of a doubleword (R152). -/
theorem extractLsb'_setWidth_byte (b : Byte) :
    (b.setWidth 64).extractLsb' 0 8 = b ∧ (b.setWidth 64).extractLsb' 8 56 = 0 := by
  have hb := b.isLt
  constructor
  · apply BitVec.eq_of_toNat_eq
    simp only [BitVec.extractLsb'_toNat, BitVec.toNat_setWidth, Nat.shiftRight_eq_div_pow]
    omega
  · apply BitVec.eq_of_toNat_eq
    simp only [BitVec.extractLsb'_toNat, BitVec.toNat_setWidth, Nat.shiftRight_eq_div_pow, BitVec.ofNat_eq_ofNat,
      BitVec.toNat_ofNat]
    omega

/-- `XORB` on a keystream: the byte at the position, and one byte further. -/
theorem OnStream.exists_xorb {sw : WordFile} {v : Variant} {m : Nat} {s : State} (h : OnStream sw v m s) (b : Byte) :
    ∃ t, exec (.xorb b) s = .next t ∧ OnStream sw v (m + 1) t ∧ t.RESULT = (b ^^^ streamByte sw v m).setWidth 64 :=
  ⟨_, Machine.exec_xorb h.keyed b, h.exec_xorb (Machine.exec_xorb h.keyed b), by rw [h.nextByte]⟩

theorem OnStream.exists_xorb_zeroKey {m : Nat} {s : State} (h : OnStream zeroKeyWords .salsa20 m s) (hm : m < 68)
    (b : Byte) : ∃ t, exec (.xorb b) s = .next t ∧ OnStream zeroKeyWords .salsa20 (m + 1) t ∧
      t.RESULT = (b ^^^ zeroKeyByte m).setWidth 64 := by
  rw [← streamByte_zeroKey hm]
  exact h.exists_xorb b

/-- Settles O22: the meaning of `XORB` as one pull, and the example as four steps along the keystream. -/
theorem xorbAppliesOneKeystreamByte : Obligations.XorbAppliesOneKeystreamByte := by
  refine ⟨command_xorb, fun w s => command_xorb_illegal s, fun b s => exec_not_keyed rfl, fun s b hk => ?_, fun s hz => ?_⟩
  · obtain ⟨hlow, hhigh⟩ := extractLsb'_setWidth_byte (b ^^^ (nextKsByte s).1)
    exact ⟨_, exec_xorb hk b, hlow, hhigh, rfl⟩
  · obtain ⟨t2, h2, p2, r2⟩ := (zeroKeyStart_onStream s).exists_xorb_zeroKey (by omega) 0
    obtain ⟨t3, h3, p3, r3⟩ := p2.exists_xorb_zeroKey (by omega) 0
    obtain ⟨t4, h4, p4, r4⟩ := p3.exists_xorb_zeroKey (by omega) 0
    obtain ⟨t5, h5, p5, r5⟩ := p4.exists_xorb_zeroKey (by omega) 0xFF
    exact ⟨_, t2, t3, t4, t5, command_init_zeroKeyStart hz, (command_xorb 0 _).trans h2, (command_xorb 0 _).trans h3,
      (command_xorb 0 _).trans h4, (command_xorb 0xFF _).trans h5, r2.trans (by decide +kernel),
      r3.trans (by decide +kernel), r4.trans (by decide +kernel), p4.cur_eq rfl, p4.low_word,
      r5.trans (by decide +kernel), p5.cur_eq rfl⟩

/-! ## `NEXTINT` -/

theorem command_nextint (w : Fin 4) (s : State) :
    command (BitVec.ofNat 32 (0x42 * 2 ^ 24 + w.val)) s = exec (.nextint w) s :=
  command_of_ok (i := .nextint w) (decode_eq_ok_iff.2 ⟨rfl, rfl⟩) s

theorem command_nextint_illegal {w : Word} (s : State) (hopc : field w 31 24 = 0x42) (hres : field w 23 2 ≠ 0) :
    command w s = .next { s with ERR := .illegalCommand } := by
  obtain ⟨e, he⟩ := decodeW_error_iff.2 hres
  exact command_of_error ((decode_nextint hopc).trans he) s

/-- The number of `n` bytes, the first the least significant (R164). -/
def littleEndian (f : Nat → Byte) (n : Nat) : Nat := ∑ j ∈ Finset.range n, (f j).toNat * 2 ^ (8 * j)

theorem littleEndian_succ (f : Nat → Byte) (n : Nat) :
    littleEndian f (n + 1) = littleEndian f n + (f n).toNat * 2 ^ (8 * n) := Finset.sum_range_succ _ n

theorem littleEndian_congr {f g : Nat → Byte} {n : Nat} (h : ∀ j < n, f j = g j) : littleEndian f n = littleEndian g n :=
  Finset.sum_congr rfl fun j hj => by rw [h j (Finset.mem_range.1 hj)]

theorem littleEndian_lt (f : Nat → Byte) (n : Nat) : littleEndian f n < 2 ^ (8 * n) := by
  induction n with
  | zero => exact Nat.one_pos
  | succ n ih =>
    have hbyte : (f n).toNat * 2 ^ (8 * n) ≤ 255 * 2 ^ (8 * n) := Nat.mul_le_mul_right _ (by have := (f n).isLt; omega)
    have hpow : 2 ^ (8 * (n + 1)) = 256 * 2 ^ (8 * n) := by rw [Nat.mul_succ, Nat.pow_add, Nat.mul_comm]
    rw [littleEndian_succ]
    omega

/-- Up to eight bytes fit in `RESULT`, so the shifted bytes add up without a carry out of it (R163, R164). -/
theorem drawn_toNat (s : State) {n : Nat} (hn : n ≤ 8) : (drawn s n 0).toNat = littleEndian (pulledByte s) n := by
  induction n with
  | zero => rfl
  | succ n ih =>
    have hfit : littleEndian (pulledByte s) (n + 1) < 2 ^ 64 :=
      (littleEndian_lt _ _).trans_le (Nat.pow_le_pow_right (by omega) (by omega))
    rw [littleEndian_succ] at hfit ⊢
    have hbyte : ((pulledByte s n).setWidth 64 <<< (8 * n)).toNat = (pulledByte s n).toNat * 2 ^ (8 * n) := by
      rw [BitVec.toNat_shiftLeft, BitVec.toNat_setWidth_of_le (by omega), Nat.shiftLeft_eq, Nat.mod_eq_of_lt (by omega)]
    rw [drawn, Nat.zero_add, BitVec.toNat_add, ih (by omega), hbyte, Nat.mod_eq_of_lt hfit]

theorem drawn_width_toNat (s : State) (w : Fin 4) :
    (drawn s (2 ^ w.val) 0).toNat = littleEndian (pulledByte s) (2 ^ w.val) :=
  drawn_toNat s (Nat.pow_le_pow_right (by omega) (by omega : w.val ≤ 3))

/-- `NEXTINT` on a keystream: the number at the position, and its width further. -/
theorem OnStream.exists_nextint {sw : WordFile} {v : Variant} {m : Nat} {s : State} (h : OnStream sw v m s) (w : Fin 4) :
    ∃ t, exec (.nextint w) s = .next t ∧ OnStream sw v (m + 2 ^ w.val) t ∧
      t.RESULT.toNat = littleEndian (fun j => streamByte sw v (m + j)) (2 ^ w.val) := by
  refine ⟨_, Machine.exec_nextint h.keyed w, h.exec_nextint (Machine.exec_nextint h.keyed w), ?_⟩
  rw [drawn_width_toNat, show pulledByte s = _ from funext h.pulledByte_eq]

theorem OnStream.exists_nextint_zeroKey {m : Nat} {s : State} (h : OnStream zeroKeyWords .salsa20 m s) (w : Fin 4)
    (hm : m + 2 ^ w.val ≤ 68) : ∃ t, exec (.nextint w) s = .next t ∧ OnStream zeroKeyWords .salsa20 (m + 2 ^ w.val) t ∧
      t.RESULT.toNat = littleEndian (fun j => zeroKeyByte (m + j)) (2 ^ w.val) := by
  have hbytes : littleEndian (fun j => zeroKeyByte (m + j)) (2 ^ w.val) =
      littleEndian (fun j => streamByte zeroKeyWords .salsa20 (m + j)) (2 ^ w.val) :=
    littleEndian_congr fun j hj => (streamByte_zeroKey (by omega)).symm
  rw [hbytes]
  exact h.exists_nextint w

/-- Settles O27: the meaning of `NEXTINT` as a sum of pulls, and the examples as steps along the keystream, the last one
over the end of block 0. -/
theorem nextintDrawsALittleEndianInteger : Obligations.NextintDrawsALittleEndianInteger := by
  refine ⟨command_nextint, fun w s => command_nextint_illegal s, fun w s => exec_not_keyed rfl,
    fun s w hk => ⟨_, exec_nextint hk w, drawn_width_toNat s w, rfl⟩, fun s hz => ?_, fun s hz => ?_, fun s hz => ?_⟩
  · obtain ⟨u, h, p, r⟩ := (zeroKeyStart_onStream s).exists_nextint_zeroKey 2 (by decide)
    exact ⟨_, u, command_init_zeroKeyStart hz, (command_nextint 2 _).trans h,
      BitVec.eq_of_toNat_eq (r.trans (by decide +kernel)), p.cur_eq rfl⟩
  · obtain ⟨t1, h1, p1, r1⟩ := (zeroKeyStart_onStream s).exists_nextint_zeroKey 0 (by decide)
    obtain ⟨t2, h2, p2, r2⟩ := p1.exists_nextint_zeroKey 1 (by decide)
    obtain ⟨t3, h3, p3, r3⟩ := p2.exists_nextint_zeroKey 2 (by decide)
    obtain ⟨t4, h4, p4, r4⟩ := p3.exists_nextint_zeroKey 3 (by decide)
    exact ⟨_, t1, t2, t3, t4, command_init_zeroKeyStart hz, (command_nextint 0 _).trans h1,
      (command_nextint 1 _).trans h2, (command_nextint 2 _).trans h3, (command_nextint 3 _).trans h4,
      BitVec.eq_of_toNat_eq (r1.trans (by decide +kernel)), BitVec.eq_of_toNat_eq (r2.trans (by decide +kernel)),
      BitVec.eq_of_toNat_eq (r3.trans (by decide +kernel)), BitVec.eq_of_toNat_eq (r4.trans (by decide +kernel)),
      p4.cur_eq rfl⟩
  · have p60 := (zeroKeyStart_onStream s).afterPulls 60
    obtain ⟨u, h, p, r⟩ := p60.exists_nextint_zeroKey 3 (by decide)
    exact ⟨_, u, command_init_zeroKeyStart hz, p60.cur_eq rfl, p60.low_word, (command_nextint 3 _).trans h,
      BitVec.eq_of_toNat_eq (r.trans (by decide +kernel)), p.cur_eq rfl, p.low_word⟩

/-! ## `RESET` -/

theorem atBlock_fin (sw : WordFile) (n : Nat) (i : Fin 16) (h8 : i ≠ 8) (h9 : i ≠ 9) : (atBlock sw n)[i] = sw[i] :=
  atBlock_other sw n i.isLt (fun e => h8 (Fin.ext e)) (fun e => h9 (Fin.ext e))

/-- A state that a restart has left is one that `RESET` changes nothing in (R168). -/
theorem exec_reset_eq_self {s : State} (hk : s.KEYED = true) (hS : atBlock s.S 0 = s.S) (hc : s.CUR = 0)
    (he : s.ERR = .ok) : exec .reset s = .next s := by
  rw [exec_reset hk, hS, ← hc, ← he]

/-- `RESET` takes a block back to byte 0 of the keystream it stands on (R169). -/
theorem OnStream.exec_reset {sw : WordFile} {v : Variant} {m : Nat} {s u : State} (h : OnStream sw v m s)
    (he : exec .reset s = .next u) : OnStream sw v 0 u := by
  cases (Machine.exec_reset h.keyed).symm.trans he
  refine .start ?_ h.variant rfl h.keyed
  rw [h.words, atBlock_atBlock]

/-- Settles O28: `RESET` writes `atBlock` of `S` at index 0, which a second `RESET` leaves as it is. -/
theorem resetZeroesCounterAndCursorOnly : Obligations.ResetZeroesCounterAndCursorOnly := by
  have hz : ZFormat 0x43 .reset := zFormat_of_operandless (i := .reset) (by simp [operandless])
  refine ⟨hz, fun s => exec_not_keyed rfl,
    fun s hk => ⟨_, exec_reset hk, atBlock_low s.S 0, atBlock_high s.S 0, atBlock_fin s.S 0, rfl⟩,
    fun s t ht hk => ?_, fun s t u klen rounds hlen ht hu => ?_, fun s hzero => ?_⟩
  · cases (exec_reset hk).symm.trans ht
    exact exec_reset_eq_self hk (atBlock_atBlock s.S 0 0) rfl rfl
  · cases (exec_init hlen rounds s).symm.trans ht
    cases (exec_reset_eq_self rfl (keySchedule_atBlock_zero klen s.KEY s.NONCE) rfl rfl).symm.trans hu
    rfl
  · have p65 := (zeroKeyStart_onStream s).afterPulls 65
    have hu := exec_reset p65.keyed
    have p0 := p65.exec_reset hu
    obtain ⟨w, hw, p1, r1⟩ := p0.exists_xorb_zeroKey (by omega) 0
    exact ⟨_, _, w, command_init_zeroKeyStart hzero, p65.cur_eq rfl, p65.low_word, (hz.1 _).trans hu, p0.cur_eq rfl,
      p0.low_word, atBlock_high _ 0, (command_xorb 0 _).trans hw, r1.trans (by decide +kernel), p1.cur_eq rfl,
      p1.low_word⟩

/-- Settles O29: after the `RESET` both states stand at byte 0 of one keystream. -/
theorem resetReproducesTheSequence : Obligations.ResetReproducesTheSequence := by
  intro s klen rounds hk
  have ht := exec_init hk rounds s
  obtain ⟨-, p0⟩ := exec_init_onStream hk ht
  refine ⟨_, ht, fun m => ?_⟩
  have pm := p0.afterPulls m
  have pu := pm.exec_reset (exec_reset pm.keyed)
  exact ⟨_, exec_reset pm.keyed, pu.words.trans p0.words.symm, pu.variant, rfl,
    fun k => (pu.pulledByte_eq k).trans (p0.pulledByte_eq k).symm⟩

end Sys2Proof.Machine

/-! Proofs about the byte cursor, concluded: `XOR` (R157 to R161, R169, R200). A completed `XOR` leaves `afterXor`: the
state of as many pulls as it has bytes, over a memory whose output bytes are the input bytes (`xorInput`) exclusive-ored
with the pulled ones. An `XOR` stopped at byte `k` is the completed one of `k` bytes, and one pull more after a refused
write (`exec_xor_firstBytes`). -/

namespace Sys2Proof.Machine

open Sys2Proof.Statements

/-! ## The bytes an `XOR` reads and writes -/

/-- The byte `XOR` reads for index `i`: memory by then holds its own output bytes below `i` (R157, R160). -/
def xorInput (s : State) (i : Nat) : Byte := (xorMem s i).read (xorSrc s i).toNat

section

variable {s : State} {i j n : Nat}

theorem xorInput_of_unwritten (h : ∀ j < i, xorDst s j ≠ xorSrc s i) : xorInput s i = s.byteAt (xorSrc s i) :=
  xorMem_other s i fun j hj => (h j hj).symm

theorem xorInput_of_written (hwf : Memory.wf s.dmem) (hj : j < i) (hi : i ≤ 2 ^ 32) (h : xorDst s j = xorSrc s i) :
    xorInput s i = xorInput s j ^^^ pulledByte s j := by
  rw [xorInput, ← h]
  exact xorMem_stored hwf hj hi

theorem xorMem_read_dst (hwf : Memory.wf s.dmem) (hi : i < n) (hn : n ≤ 2 ^ 32) :
    (xorMem s n).read (xorDst s i).toNat = xorInput s i ^^^ pulledByte s i := xorMem_stored hwf hi hn

end

theorem xorSrc_toNat (s : State) (i : Nat) : (xorSrc s i).toNat = (s.SRC.toNat + i) % 2 ^ 32 := by
  simp only [xorSrc, BitVec.toNat_add, BitVec.toNat_ofNat, Nat.add_mod_mod]

theorem xorDst_toNat (s : State) (i : Nat) : (xorDst s i).toNat = (s.DST.toNat + i) % 2 ^ 32 := by
  simp only [xorDst, BitVec.toNat_add, BitVec.toNat_ofNat, Nat.add_mod_mod]

/-- No store reaches a read of a buffer that lies below the output buffer. -/
theorem xorDst_ne_xorSrc_of_below {s : State} {i j : Nat} (hbelow : s.SRC.toNat + i < s.DST.toNat)
    (hfit : s.DST.toNat + j < 2 ^ 32) : xorDst s j ≠ xorSrc s i := fun he => by
  have := congrArg BitVec.toNat he
  rw [xorDst_toNat, xorSrc_toNat] at this
  omega

theorem xorLength_of_LEN {s : State} {n : Nat} (h : s.LEN = BitVec.ofNat 32 n) (hn : n < 2 ^ 31) : xorLength s = n := by
  rw [xorLength, h, BitVec.toInt_eq_toNat_of_lt (by rw [BitVec.toNat_ofNat]; omega), BitVec.toNat_ofNat,
    Int.toNat_natCast]
  omega

/-! ## An `XOR` that completes -/

/-- The state a completed `XOR` leaves (R157). -/
def afterXor (s : State) : State := { xorState s (xorLength s) (xorLength s) with ERR := .ok }

theorem exec_xor_admitted {s : State} (hk : s.KEYED = true) (h : Admitted s (xorLength s)) :
    exec .xor s = .next (afterXor s) := exec_xor_ok hk h

theorem afterXor_byteAt_dst {s : State} (hwf : Memory.wf s.dmem) {i : Nat} (hi : i < xorLength s) :
    (afterXor s).byteAt (xorDst s i) = xorInput s i ^^^ pulledByte s i :=
  xorMem_read_dst hwf hi (by have := xorLength_lt s; omega)

theorem afterXor_byteAt_other {s : State} {a : Word} (h : ∀ i < xorLength s, a ≠ xorDst s i) :
    (afterXor s).byteAt a = s.byteAt a := xorMem_other s _ h

theorem afterXor_wf {s : State} (hwf : Memory.wf s.dmem) : Memory.wf (afterXor s).dmem := xorMem_wf hwf _

@[simp] theorem afterXor_KEYED (s : State) : (afterXor s).KEYED = s.KEYED := afterPulls_KEYED _ s
@[simp] theorem afterXor_SRC (s : State) : (afterXor s).SRC = s.SRC := afterPulls_SRC _ s
@[simp] theorem afterXor_DST (s : State) : (afterXor s).DST = s.DST := afterPulls_DST _ s
@[simp] theorem afterXor_LEN (s : State) : (afterXor s).LEN = s.LEN := afterPulls_LEN _ s
@[simp] theorem afterXor_dmemHoles (s : State) : (afterXor s).dmemHoles = s.dmemHoles := afterPulls_dmemHoles _ s

/-! ## The data memory of the spec's examples -/

theorem bytesAt_eq_hexBytes_iff {s : State} {a : Word} {n v : Nat} : bytesAt s a n = hexBytes n v ↔
    ∀ i < n, s.byteAt (a + BitVec.ofNat 32 i) = BitVec.ofNat 8 (v / 2 ^ (8 * (n - 1 - i))) := by
  simp only [bytesAt, hexBytes, List.map_inj_left, List.mem_range]

/-- A platform with no hole admits every access (R54). -/
theorem admitted_of_no_holes {s : State} (h : s.dmemHoles = []) (n : Nat) : Admitted s n := fun i _ => by
  simp [State.dmemOk, h]

/-- A platform with a hole of one byte admits every other (R54). -/
theorem dmemOk_of_hole {s : State} {n : Nat} (h : s.dmemHoles = [⟨n, n⟩]) (a : Word) :
    s.dmemOk a = !decide (a.toNat = n) := by
  have hholds : AddrRange.holds ⟨n, n⟩ a.toNat = decide (a.toNat = n) := by
    rw [AddrRange.holds, ← Bool.decide_and]
    exact decide_eq_decide.2 ⟨fun ⟨hlo, hhi⟩ => Nat.le_antisymm hhi hlo, fun he => ⟨he.ge, he.le⟩⟩
  simp only [State.dmemOk, h, List.any_cons, List.any_nil, Bool.or_false, hholds]

theorem zeroKeyStart_pulledByte (s : State) {i : Nat} (hi : i < 68) : pulledByte (zeroKeyStart s) i = zeroKeyByte i := by
  rw [(zeroKeyStart_onStream s).pulledByte_eq, Nat.zero_add, streamByte_zeroKey hi]

/-- A byte of the examples' `XOR` whose input no earlier store has reached. -/
theorem zeroKeyStart_stored {s : State} (hwf : Memory.wf s.dmem) {i n : Nat} (hi : i < n) (hn : n ≤ 68)
    (hsep : ∀ j < i, xorDst s j ≠ xorSrc s i) :
    (xorMem (zeroKeyStart s) n).read (xorDst s i).toNat = s.byteAt (xorSrc s i) ^^^ zeroKeyByte i := by
  have hread : xorInput (zeroKeyStart s) i = s.byteAt (xorSrc s i) := xorInput_of_unwritten (s := zeroKeyStart s) hsep
  rw [← zeroKeyStart_pulledByte s (by omega), ← hread]
  exact xorMem_read_dst (s := zeroKeyStart s) hwf hi (by omega)

/-! ## `XOR` in order -/

/-- The example of R157: eight bytes from one buffer into another. -/
theorem xor_example_separate {s : State} (hwf : Memory.wf s.dmem) (hsrc : s.SRC = 0x1000) (hdst : s.DST = 0x2000)
    (hlen : xorLength s = 8) (hin : bytesAt s 0x1000 8 = hexBytes 8 0x53616c7361323021) :
    bytesAt (afterXor (zeroKeyStart s)) 0x2000 8 = hexBytes 8 0xc9f69a28fa7e423a := by
  rw [bytesAt_eq_hexBytes_iff] at hin ⊢
  intro i hi
  have hsep : ∀ j < i, xorDst s j ≠ xorSrc s i := fun j hj =>
    xorDst_ne_xorSrc_of_below (by simp [hsrc, hdst]; omega) (by simp [hdst]; omega)
  have hwrite := zeroKeyStart_stored hwf (lt_of_lt_of_eq hi hlen.symm) (by omega) hsep
  rw [xorSrc, hsrc, hin i hi] at hwrite
  rw [← hdst]
  refine hwrite.trans ?_
  clear hsep hwrite hin
  revert i
  decide +kernel

/-- The example of R160: an output buffer one byte above the input buffer, so that every byte read but the first is the
one just written, and every address of the two buffers holds what was read there. -/
theorem xor_example_overlap {s : State} (hwf : Memory.wf s.dmem) (hsrc : s.SRC = 0x100) (hdst : s.DST = 0x101)
    (hlen : xorLength s = 4) (hin : bytesAt s 0x100 5 = hexBytes 5 0) :
    bytesAt (afterXor (zeroKeyStart s)) 0x100 5 = hexBytes 5 0x009a0dfba0 := by
  rw [bytesAt_eq_hexBytes_iff, ← hsrc] at hin ⊢
  have hnext : ∀ i, xorDst s i = xorSrc s (i + 1) := fun i => by
    rw [xorDst, xorSrc, hsrc, hdst]
    bv_omega
  have hwritten : ∀ i < 4, xorInput (zeroKeyStart s) (i + 1) = xorInput (zeroKeyStart s) i ^^^ zeroKeyByte i :=
    fun i hi => by
      rw [xorInput_of_written (s := zeroKeyStart s) hwf i.lt_succ_self (by omega) (hnext i),
        zeroKeyStart_pulledByte s (by omega)]
  have hread : ∀ i < 5, (afterXor (zeroKeyStart s)).byteAt (xorSrc s i) = xorInput (zeroKeyStart s) i := fun i hi => by
    cases i with
    | zero =>
      refine afterXor_byteAt_other (s := zeroKeyStart s) fun i hi he => ?_
      have := congrArg BitVec.toNat (he.trans (hnext i))
      have hi : i < 4 := hlen ▸ hi
      rw [xorSrc_toNat, xorSrc_toNat, hsrc] at this
      simp at this
      omega
    | succ i =>
      rw [hwritten i (by omega), ← hnext, ← zeroKeyStart_pulledByte s (by omega)]
      exact afterXor_byteAt_dst (s := zeroKeyStart s) hwf (i := i) (lt_of_lt_of_eq (by omega : i < 4) hlen.symm)
  have hvalue : ∀ i < 5, xorInput (zeroKeyStart s) i = BitVec.ofNat 8 (0x009a0dfba0 / 2 ^ (8 * (5 - 1 - i))) := by
    have hstep : ∀ i < 4, BitVec.ofNat 8 (0x009a0dfba0 / 2 ^ (8 * (5 - 1 - i))) ^^^ zeroKeyByte i =
        BitVec.ofNat 8 (0x009a0dfba0 / 2 ^ (8 * (5 - 1 - (i + 1)))) := by decide +kernel
    intro i hi
    induction i with
    | zero => exact hin 0 hi
    | succ i ih => rw [hwritten i (by omega), ih (by omega), hstep i (by omega)]
  exact fun i hi => (hread i hi).trans (hvalue i hi)

/-- Settles O23: the reads and the stores of `afterXor`, and the examples on the keystream of the all-zero key. -/
theorem xorProcessesEveryByteInOrder : Obligations.XorProcessesEveryByteInOrder := by
  have hz : ZFormat 0x41 .xor := zFormat_of_operandless (i := .xor) (by simp [operandless])
  refine ⟨hz, fun s => exec_not_keyed rfl, fun s i => ⟨xorSrc_toNat s i, xorDst_toNat s i⟩,
    fun s hk hwf hadm => ⟨afterXor s, xorInput s, exec_xor_admitted hk hadm, fun i _ => xorInput_of_unwritten,
      fun i hi j hj => xorInput_of_written hwf hj (by have := xorLength_lt s; omega),
      fun i => afterXor_byteAt_dst hwf, fun a => afterXor_byteAt_other, rfl, rfl⟩,
    fun s hzero hwf hholes hsrc hdst hlen hin => ?_, fun s hzero hwf hholes hsrc hdst hlen hin => ?_⟩
  · have hn : xorLength s = 8 := xorLength_of_LEN hlen (by omega)
    have he := exec_xor_admitted (s := zeroKeyStart s) rfl (admitted_of_no_holes hholes _)
    have hp : OnStream zeroKeyWords .salsa20 8 (afterXor (zeroKeyStart s)) := by
      have h := (zeroKeyStart_onStream s).exec_xor_completed he rfl
      rwa [show xorLength (zeroKeyStart s) = 8 from hn, Nat.zero_add] at h
    exact ⟨_, _, command_init_zeroKeyStart hzero, (hz.1 _).trans he, xor_example_separate hwf hsrc hdst hn hin,
      congrArg (BitVec.ofNat 32) hn, hp.cur_eq rfl, hp.low_word, rfl⟩
  · have hn : xorLength s = 4 := xorLength_of_LEN hlen (by omega)
    exact ⟨_, _, command_init_zeroKeyStart hzero,
      (hz.1 _).trans (exec_xor_admitted (s := zeroKeyStart s) rfl (admitted_of_no_holes hholes _)),
      xor_example_overlap hwf hsrc hdst hn hin⟩

/-! ## `XOR` of nothing -/

theorem xorLength_eq_zero {s : State} (h : s.LEN.toInt ≤ 0) : xorLength s = 0 := Int.toNat_of_nonpos h

theorem exec_xor_zero {s : State} (hk : s.KEYED = true) (h : s.LEN.toInt ≤ 0) :
    exec .xor s = .next { s with XCNT := 0, ERR := .ok } := by
  have h0 := xorLength_eq_zero h
  rw [exec_xor_admitted hk fun i hi => absurd hi (by omega), afterXor, h0]
  rfl

/-- Settles O24: with no byte to process `afterXor` writes only the count and `ERR`. -/
theorem xorOfZeroOrNegativeLengthIsANoOp : Obligations.XorOfZeroOrNegativeLengthIsANoOp := by
  refine ⟨fun s => exec_xor_zero, fun s h => Int.toNat_of_nonneg h.le, fun s => ?_,
    ⟨{ State.reset with LEN := 0x7FFFFFFF }, by decide⟩, fun s hk hlen => exec_xor_zero hk ?_⟩
  · have := xorLength_lt s
    omega
  · obtain h | h := hlen
    · rw [h]; decide
    · rw [h]; decide

/-! ## `XOR` stopped by a fault -/

/-- The cursor after any number of pulls (R150). -/
theorem afterPulls_CUR (m : Nat) (s : State) : (afterPulls m s).CUR.val = (s.CUR.val + m) % 64 := by
  induction m with
  | zero => exact (Nat.mod_eq_of_lt s.CUR.isLt).symm
  | succ m ih => rw [afterPulls, nextKsByte_CUR, cursor_succ, ih]; omega

/-- Memory, the count, the length and `ERR` play no part in a pull. -/
theorem nextKsByte_xorFields (s : State) (mem : Memory) (count len : Word) (e : ErrCode) :
    nextKsByte { s with dmem := mem, XCNT := count, LEN := len, ERR := e } =
      ((nextKsByte s).1, { (nextKsByte s).2 with dmem := mem, XCNT := count, LEN := len, ERR := e }) := by
  simp only [nextKsByte, refill]
  split
  · rfl
  · rfl

section

variable (s : State) (len : Word)

theorem nextKsByte_withLen :
    nextKsByte { s with LEN := len } = ((nextKsByte s).1, { (nextKsByte s).2 with LEN := len }) :=
  (nextKsByte_xorFields s s.dmem s.XCNT len s.ERR).trans
    (by simp only [nextKsByte_dmem, nextKsByte_XCNT, nextKsByte_ERR])

theorem afterPulls_withLen (n : Nat) : afterPulls n { s with LEN := len } = { afterPulls n s with LEN := len } := by
  induction n with
  | zero => rfl
  | succ n ih => simp only [afterPulls, ih, nextKsByte_withLen]

theorem xorMem_withLen (n : Nat) : xorMem { s with LEN := len } n = xorMem s n := by
  induction n with
  | zero => rfl
  | succ n ih =>
    have hbyte : pulledByte { s with LEN := len } n = pulledByte s n := by
      simp only [pulledByte, afterPulls_withLen, nextKsByte_withLen]
    simp only [xorMem, ih, hbyte]
    rfl

theorem xorState_withLen (p n : Nat) : xorState { s with LEN := len } p n = { xorState s p n with LEN := len } := by
  simp only [xorState, afterPulls_withLen, xorMem_withLen]

end

/-- The fault-free `XOR` of the first `k` bytes (R161). -/
theorem exec_xor_firstBytes {s : State} {k : Nat} (hk : s.KEYED = true) (hlt : k < xorLength s) (hadm : Admitted s k) :
    exec .xor { s with LEN := BitVec.ofNat 32 k } =
      .next { xorState s k k with LEN := BitVec.ofNat 32 k, ERR := .ok } := by
  have hlen : xorLength { s with LEN := BitVec.ofNat 32 k } = k :=
    xorLength_of_LEN rfl (hlt.trans (xorLength_lt s))
  rw [exec_xor_admitted (s := { s with LEN := BitVec.ofNat 32 k }) hk (by rw [hlen]; exact hadm), afterXor, hlen,
    xorState_withLen]

theorem xorState_ownLen (s : State) (p i : Nat) (e : ErrCode) :
    { xorState s p i with ERR := e } = { xorState s p i with LEN := s.LEN, ERR := e } := by
  simp only [xorState, afterPulls_LEN]

/-- A refused read: nothing was pulled for its byte (R161). -/
theorem exec_xor_readFault {s : State} {k : Nat} (hk : s.KEYED = true) (hlt : k < xorLength s) (hadm : Admitted s k)
    (hr : s.dmemOk (xorSrc s k) = false) : exec .xor s = .next { xorState s k k with ERR := .busFault } := by
  rw [exec_xor_fault hk hlt hadm (.inl hr), if_pos hr]

/-- A refused write: its byte was pulled and nothing was stored (R161). -/
theorem exec_xor_writeFault {s : State} {k : Nat} (hk : s.KEYED = true) (hlt : k < xorLength s) (hadm : Admitted s k)
    (hr : s.dmemOk (xorSrc s k) = true) (hw : s.dmemOk (xorDst s k) = false) :
    exec .xor s = .next { xorState s (k + 1) k with ERR := .busFault } := by
  rw [exec_xor_fault hk hlt hadm (.inr hw), if_neg (by simp [hr])]

/-- The examples of R161 as far as memory goes: two bytes of the all-zero key's keystream stored, two left at 0. -/
theorem xor_example_fault {s : State} (hwf : Memory.wf s.dmem) (hsrc : s.SRC = 0x100) (hdst : s.DST = 0x200)
    (hin : bytesAt s 0x100 4 = hexBytes 4 0) (hout : bytesAt s 0x200 4 = hexBytes 4 0) (p : Nat) (e : ErrCode) :
    bytesAt { xorState (zeroKeyStart s) p 2 with ERR := e } 0x200 4 = hexBytes 4 0x9a970000 := by
  rw [bytesAt_eq_hexBytes_iff] at hin hout ⊢
  rw [← hdst] at hout ⊢
  intro i hi
  by_cases h2 : i < 2
  · have hsep : ∀ j < i, xorDst s j ≠ xorSrc s i := fun j hj =>
      xorDst_ne_xorSrc_of_below (by simp [hsrc, hdst]; omega) (by simp [hdst]; omega)
    have hwrite := zeroKeyStart_stored hwf h2 (by omega) hsep
    rw [xorSrc, hsrc, hin i hi] at hwrite
    refine hwrite.trans ?_
    clear hsep hwrite hi
    revert i
    decide +kernel
  · have hother : ∀ j < 2, xorDst s i ≠ xorDst s j := fun j hj he => by
      have := xorDst_inj (by omega) (by omega) he
      omega
    refine (xorMem_other (zeroKeyStart s) 2 hother).trans ((hout i hi).trans ?_)
    have hi : i = 2 ∨ i = 3 := by omega
    obtain rfl | rfl := hi
    · rfl
    · rfl

/-- Settles O25: both faults by the state at the refused access, and the examples at byte 2 of the keystream. -/
theorem xorStopsAtTheFirstAccessNotAdmitted : Obligations.XorStopsAtTheFirstAccessNotAdmitted := by
  refine ⟨fun s k hk hlt hadm => ⟨fun hr => ?_, fun hr hw => ?_⟩, fun s hzero hwf hin hout hsrc hdst hlen => ?_⟩
  · exact ⟨_, _, exec_xor_readFault hk hlt hadm hr, exec_xor_firstBytes hk hlt hadm, rfl, rfl, rfl, afterPulls_CUR k s,
      xorState_ownLen s k k .busFault⟩
  · refine ⟨_, _, exec_xor_writeFault hk hlt hadm hr hw, exec_xor_firstBytes hk hlt hadm, rfl, rfl, rfl,
      afterPulls_CUR (k + 1) s, ?_⟩
    rw [xorState_ownLen, show nextKsByte { xorState s k k with LEN := BitVec.ofNat 32 k, ERR := .ok } = _ from
      nextKsByte_xorFields (afterPulls k s) _ _ _ _]
    rfl
  · have hn : xorLength (zeroKeyStart s) = 4 := xorLength_of_LEN hlen (by omega)
    have hp := (zeroKeyStart_onStream s).xorState
    have hsrcNat : ∀ i, (xorSrc (zeroKeyStart s) i).toNat = (0x100 + i) % 2 ^ 32 := fun i => by
      rw [xorSrc_toNat, show (zeroKeyStart s).SRC = 0x100 from hsrc]; rfl
    have hdstNat : ∀ i, (xorDst (zeroKeyStart s) i).toNat = (0x200 + i) % 2 ^ 32 := fun i => by
      rw [xorDst_toNat, show (zeroKeyStart s).DST = 0x200 from hdst]; rfl
    have hadm : ∀ n, n = 0x102 ∨ n = 0x202 → s.dmemHoles = [⟨n, n⟩] → Admitted (zeroKeyStart s) 2 := by
      intro n hn hhole i hi
      simp only [dmemOk_of_hole (s := zeroKeyStart s) hhole, hsrcNat, hdstNat, Bool.not_eq_true', decide_eq_false_iff_not]
      omega
    have hbytes := xor_example_fault hwf hsrc hdst hin hout
    refine ⟨fun hhole => ?_, fun hhole => ?_⟩
    · have hok := dmemOk_of_hole (s := zeroKeyStart s) hhole
      have he := exec_xor_readFault rfl (by omega) (hadm _ (.inl rfl) hhole) (by rw [hok, hsrcNat]; rfl)
      exact ⟨_, _, command_init_zeroKeyStart hzero, (command_of_ok (by decide) _).trans he, rfl, rfl,
        (hp 2 2 _).cur_eq rfl, hbytes 2 _⟩
    · have hok := dmemOk_of_hole (s := zeroKeyStart s) hhole
      have he := exec_xor_writeFault rfl (by omega) (hadm _ (.inr rfl) hhole) (by rw [hok, hsrcNat]; rfl)
        (by rw [hok, hdstNat]; rfl)
      exact ⟨_, _, command_init_zeroKeyStart hzero, (command_of_ok (by decide) _).trans he, rfl, rfl,
        (hp 3 2 _).cur_eq rfl, hbytes 3 _⟩

/-! ## The frame of `XOR` -/

/-- However an `XOR` on a keyed block ends, it has stored a first part of its output. -/
theorem exec_xor_stored {s t : State} (hk : s.KEYED = true) (h : exec .xor s = .next t) :
    ∃ pulls stored e, stored ≤ xorLength s ∧ t = { xorState s pulls stored with ERR := e } := by
  obtain ⟨-, ht⟩ | ⟨k, hlt, -, ⟨-, ht⟩ | ⟨-, -, ht⟩⟩ := exec_xor_cases hk h
  · exact ⟨_, _, _, le_rfl, ht⟩
  · exact ⟨_, _, _, hlt.le, ht⟩
  · exact ⟨_, _, _, hlt.le, ht⟩

/-- Settles O26: nothing but `ERR` on a block without a key, and `exec_xor_stored` on one with a key. -/
theorem xorTouchesOnlyItsOutputBytesAndTheKeystreamPosition :
    Obligations.XorTouchesOnlyItsOutputBytesAndTheKeystreamPosition := by
  intro s t h
  have hwords := (exec_effect h).words nofun
  obtain hk | hk := Bool.eq_false_or_eq_true s.KEYED
  · obtain ⟨pulls, stored, e, hle, rfl⟩ := exec_xor_stored hk h
    refine ⟨fun a ha => xorMem_other s stored fun i hi => ha i (hi.trans_le hle), hwords, ?_⟩
    simp only [xorState, afterPulls_RV, afterPulls_KEY, afterPulls_NONCE, afterPulls_KEYED, afterPulls_RESULT,
      afterPulls_SRC, afterPulls_DST, afterPulls_LEN, afterPulls_dmemHoles, afterPulls_pending, afterPulls_reply]
  · cases (exec_not_keyed rfl hk).symm.trans h
    exact ⟨fun _ _ => rfl, hwords, rfl⟩

/-! ## `XOR`, `RESET`, and `XOR` of the result -/

/-- An address that no entry lists reads as the default. -/
theorem Memory.read_of_unlisted {m : Memory} {a : Nat} (h : ∀ p ∈ m, p.1 ≠ a) : Memory.read m a = Config.dmemDefault := by
  induction m with
  | nil => rfl
  | cons p m ih =>
    rw [Memory.read, if_neg (h p (by simp))]
    exact ih fun q hq => h q (by simp [hq])

/-- Two memories in canonical form that agree on every 32-bit address are equal: no entry lies beyond (R52). -/
theorem Memory.ext_of_words {m n : Memory} (hm : Memory.wf m) (hn : Memory.wf n)
    (h : ∀ a : Word, m.read a.toNat = n.read a.toNat) : m = n := by
  refine Memory.ext_of_read hm hn fun a => ?_
  by_cases ha : a < 2 ^ 32
  · have := h (BitVec.ofNat 32 a)
    rwa [BitVec.toNat_ofNat, Nat.mod_eq_of_lt ha] at this
  · have hbeyond : ∀ {m : Memory}, Memory.wf m → m.read a = Config.dmemDefault := fun hwf =>
      Memory.read_of_unlisted fun p hp => by have := (hwf.2 p hp).1; omega
    rw [hbeyond hm, hbeyond hn]

/-- The state a `RESET` of a keyed block leaves (R168). -/
def afterReset (s : State) : State := { s with S := atBlock s.S 0, CUR := 0, ERR := .ok }

/-- The way back of R169 (b): after the `XOR` at `s` and a `RESET`, the operands set to take the output to the input. -/
def wayBack (s : State) : State := { afterReset (afterXor s) with SRC := s.DST, DST := s.SRC }

section

variable {sw : WordFile} {v : Variant} {s : State}

theorem exec_reset_afterXor (hk : s.KEYED = true) : exec .reset (afterXor s) = .next (afterReset (afterXor s)) :=
  exec_reset (by rw [afterXor_KEYED, hk])

/-- In place the operands of the way back are those of the first `XOR`. -/
theorem wayBack_inPlace (h : s.DST = s.SRC) : wayBack s = afterReset (afterXor s) := by
  have hsrc : (afterXor s).SRC = s.DST := (afterXor_SRC s).trans h.symm
  have hdst : (afterXor s).DST = s.SRC := (afterXor_DST s).trans h
  rw [wayBack, ← hsrc, ← hdst]
  rfl

theorem wayBack_onStream (h : OnStream sw v 0 s) (hadm : Admitted s (xorLength s)) : OnStream sw v 0 (wayBack s) := by
  have hx := h.exec_xor_completed (exec_xor_admitted h.keyed hadm) rfl
  exact (hx.exec_reset (exec_reset_afterXor h.keyed)).congr rfl rfl rfl rfl rfl

theorem xorLength_wayBack (s : State) : xorLength (wayBack s) = xorLength s := by
  rw [xorLength, show (wayBack s).LEN = s.LEN from afterXor_LEN s, xorLength]

theorem admitted_wayBack (hadm : Admitted s (xorLength s)) : Admitted (wayBack s) (xorLength (wayBack s)) := by
  have hok : ∀ a, (wayBack s).dmemOk a = s.dmemOk a := fun a => by
    rw [State.dmemOk, show (wayBack s).dmemHoles = s.dmemHoles from afterXor_dmemHoles s, State.dmemOk]
  intro i hi
  obtain ⟨hr, hw⟩ := hadm i (xorLength_wayBack s ▸ hi)
  exact ⟨(hok _).trans hw, (hok _).trans hr⟩

theorem exec_xor_wayBack (h : OnStream sw v 0 s) (hadm : Admitted s (xorLength s)) :
    exec .xor (wayBack s) = .next (afterXor (wayBack s)) :=
  exec_xor_admitted (wayBack_onStream h hadm).keyed (admitted_wayBack hadm)

/-- When no output byte of either `XOR` lands on a byte still to be read, the two `XOR`s put the input back: both use the
keystream from byte 0 (R169 (b)). -/
theorem afterXor_wayBack_restores (h : OnStream sw v 0 s) (hwf : Memory.wf s.dmem) (hadm : Admitted s (xorLength s))
    (hsep : ∀ i < xorLength s, ∀ j < i, xorDst s j ≠ xorSrc s i ∧ xorSrc s j ≠ xorDst s i) {i : Nat}
    (hi : i < xorLength s) : (afterXor (wayBack s)).byteAt (xorSrc s i) = s.byteAt (xorSrc s i) := by
  have hbyte : pulledByte (wayBack s) i = pulledByte s i := by
    rw [(wayBack_onStream h hadm).pulledByte_eq, h.pulledByte_eq]
  have hout : (afterXor s).byteAt (xorDst s i) = s.byteAt (xorSrc s i) ^^^ pulledByte s i := by
    rw [afterXor_byteAt_dst hwf hi, xorInput_of_unwritten fun j hj => (hsep i hi j hj).1]
  have hin : xorInput (wayBack s) i = (afterXor s).byteAt (xorDst s i) :=
    xorInput_of_unwritten (s := wayBack s) fun j hj => (hsep i hi j hj).2
  have hback := afterXor_byteAt_dst (s := wayBack s) (afterXor_wf hwf) (i := i) (xorLength_wayBack s ▸ hi)
  rw [hin, hout, hbyte, BitVec.xor_assoc, BitVec.xor_self, BitVec.xor_zero] at hback
  exact hback

/-- The two `XOR`s leave every byte outside the output buffer of the first as it was. -/
theorem afterXor_wayBack_other (h : OnStream sw v 0 s) (hwf : Memory.wf s.dmem) (hadm : Admitted s (xorLength s))
    (hsep : ∀ i < xorLength s, ∀ j < i, xorDst s j ≠ xorSrc s i ∧ xorSrc s j ≠ xorDst s i) {a : Word}
    (ha : ∀ i < xorLength s, a ≠ xorDst s i) : (afterXor (wayBack s)).byteAt a = s.byteAt a := by
  by_cases hsrc : ∃ i < xorLength s, a = xorSrc s i
  · obtain ⟨i, hi, rfl⟩ := hsrc
    exact afterXor_wayBack_restores h hwf hadm hsep hi
  · have hback : (afterXor (wayBack s)).byteAt a = (wayBack s).byteAt a :=
      afterXor_byteAt_other fun i hi he => hsrc ⟨i, xorLength_wayBack s ▸ hi, he⟩
    exact hback.trans (afterXor_byteAt_other ha)

end

/-- Settles O30: in place the input buffer is the output buffer, whose addresses differ; apart, no store of either `XOR`
meets a read. -/
theorem xorResetXorRestoresTheBuffer : Obligations.XorResetXorRestoresTheBuffer := by
  refine ⟨fun sw v s h hwf hsame hadm => ?_, fun sw v s h hwf hadm hdisj => ?_⟩
  · have heq : ∀ i, xorDst s i = xorSrc s i := fun i => by rw [xorDst, xorSrc, hsame]
    have hlen := xorLength_lt s
    have hsep : ∀ i < xorLength s, ∀ j < i, xorDst s j ≠ xorSrc s i ∧ xorSrc s j ≠ xorDst s i := fun i hi j hj => by
      have hne : xorDst s j ≠ xorDst s i := fun he => hj.ne (xorDst_inj (by omega) (by omega) he)
      exact ⟨heq i ▸ hne, heq j ▸ hne⟩
    refine ⟨_, _, afterXor (wayBack s), exec_xor_admitted h.keyed hadm, exec_reset_afterXor h.keyed,
      by rw [← wayBack_inPlace hsame, exec_xor_wayBack h hadm], rfl, ?_⟩
    refine Memory.ext_of_words (afterXor_wf (s := wayBack s) (afterXor_wf hwf)) hwf fun a => ?_
    by_cases ha : ∃ i < xorLength s, a = xorSrc s i
    · obtain ⟨i, hi, rfl⟩ := ha
      exact afterXor_wayBack_restores h hwf hadm hsep hi
    · exact afterXor_wayBack_other h hwf hadm hsep fun i hi he => ha ⟨i, hi, he.trans (heq i)⟩
  · have hsep : ∀ i < xorLength s, ∀ j < i, xorDst s j ≠ xorSrc s i ∧ xorSrc s j ≠ xorDst s i := fun i hi j hj =>
      ⟨hdisj j i (hj.trans hi) hi, (hdisj i j hi (hj.trans hi)).symm⟩
    exact ⟨_, _, afterXor (wayBack s), exec_xor_admitted h.keyed hadm, exec_reset_afterXor h.keyed,
      exec_xor_wayBack h hadm, rfl, fun i => afterXor_wayBack_restores h hwf hadm hsep,
      fun a => afterXor_wayBack_other h hwf hadm hsep⟩

end Sys2Proof.Machine

/-! Proofs about the streaming adapter (spec/44_host_stream_adapter.md R175 to R187). The loop of `read` carries a fuel and
the bytes copied so far; both are shed once, and a read is then a matter of one byte at a time: `read_zero`,
`read_of_endOfStream`, `read_of_failure`, `read_of_pull` and `read_of_hasData` say what a read does in each phase of the
adapter, and `read_induction` is the induction along them. -/

namespace Sys2Proof.Machine

open Sys2Proof.Statements

/-! ## What a read gives after earlier bytes -/

/-- The result of a read that went on after `out` was copied. -/
def ReadResult.after (out : List Byte) (r : ReadResult) : ReadResult :=
  ⟨out ++ r.buffer, r.returned.map (out.length + ·)⟩

namespace ReadResult

@[simp] theorem after_buffer (out : List Byte) (r : ReadResult) : (r.after out).buffer = out ++ r.buffer := rfl

@[simp] theorem after_returned (out : List Byte) (r : ReadResult) :
    (r.after out).returned = r.returned.map (out.length + ·) := rfl

@[simp] theorem after_nil (r : ReadResult) : r.after [] = r := by simp [after]

@[simp] theorem after_after (xs ys : List Byte) (r : ReadResult) : (r.after ys).after xs = r.after (xs ++ ys) := by
  simp [after, Function.comp_def, Nat.add_assoc]

end ReadResult

namespace Adapter

variable {σ : Type} {ask : σ → Pull × σ} {a b : Adapter σ} {n : Nat}

/-! ## The phases (R177) -/

/-- The adapter once `m` bytes of the current block have been delivered. -/
def skip (a : Adapter σ) (m : Nat) : Adapter σ := { a with offset := a.offset + m }

@[simp] theorem skip_core (a : Adapter σ) (m : Nat) : (a.skip m).core = a.core := rfl
@[simp] theorem skip_count (a : Adapter σ) (m : Nat) : (a.skip m).count = a.count := rfl
@[simp] theorem skip_offset (a : Adapter σ) (m : Nat) : (a.skip m).offset = a.offset + m := rfl
@[simp] theorem skip_eos (a : Adapter σ) (m : Nat) : (a.skip m).eos = a.eos := rfl
@[simp] theorem skip_source (a : Adapter σ) (m : Nat) : (a.skip m).source = a.source := rfl

@[simp] theorem skip_skip (a : Adapter σ) (m n : Nat) : (a.skip m).skip n = a.skip (m + n) := by
  simp [skip, Nat.add_assoc]

theorem decoded_add_skip (a : Adapter σ) (m n : Nat) : a.decoded (m + n) = a.decoded m ++ (a.skip m).decoded n :=
  decoded_add a m n

theorem phase_eq_hasData : a.phase = .hasData ↔ a.offset < a.count := by
  rw [phase]
  split_ifs <;> simp [*]

theorem phase_eq_endOfStream : a.phase = .endOfStream ↔ a.count ≤ a.offset ∧ a.eos = true := by
  rw [phase, ← Nat.not_lt]
  split_ifs <;> simp [*]

theorem phase_eq_awaitingBlock : a.phase = .awaitingBlock ↔ a.count ≤ a.offset ∧ a.eos = false := by
  rw [phase, ← Nat.not_lt]
  split_ifs <;> simp [*]

/-- A loaded adapter has bytes to deliver, or its pull was empty and so its last. -/
theorem load_phase_ne_awaitingBlock (a : Adapter σ) (bs : List Byte) (rest : σ) :
    (a.load bs rest).phase ≠ .awaitingBlock := by
  rw [Ne, phase_eq_awaitingBlock, load_count, load_offset, load_eos, Bool.or_eq_false_iff, decide_eq_false_iff_not]
  omega

/-! ## The loop without its accumulator -/

/-- The bytes copied so far only stand in front of those to come. -/
theorem readLoop_eq_after (f r : Nat) (out : List Byte) (a : Adapter σ) :
    readLoop ask f r out a = ((readLoop ask f r [] a).1.after out, (readLoop ask f r [] a).2) := by
  induction f generalizing r out a with
  | zero => simp [readLoop, ReadResult.after]
  | succ f ih =>
    have hstop : ∀ c : Adapter σ, ((⟨out, some out.length⟩, c) : ReadResult × Adapter σ) =
        (ReadResult.after out ⟨[], some 0⟩, c) := fun c => by simp [ReadResult.after]
    simp only [readLoop]
    split
    · exact hstop a
    split
    · rw [ih _ (out ++ _), ih _ ([] ++ _), ReadResult.after_after, List.nil_append]
    split
    · exact hstop a
    match a.pull ask with
    | (.failure, rest) => simp [ReadResult.after]
    | (.bytes bs, rest) =>
      dsimp only
      split
      · exact hstop _
      · rw [ih _ (out ++ _), ih _ ([] ++ _), ReadResult.after_after, List.nil_append]

/-! ## What a read does in each phase -/

theorem read_eq_readLoop (ask : σ → Pull × σ) (n : Nat) (a : Adapter σ) : a.read ask n = readLoop ask n n [] a := rfl

theorem read_eq_read_toNat (ask : σ → Pull × σ) (n : Int) (a : Adapter σ) : a.read ask n = a.read ask n.toNat := rfl

@[simp] theorem read_zero (ask : σ → Pull × σ) (a : Adapter σ) : a.read ask (0 : Nat) = (⟨[], some 0⟩, a) := rfl

theorem read_of_endOfStream (h : a.phase = .endOfStream) (n : Nat) : a.read ask n = (⟨[], some 0⟩, a) := by
  obtain ⟨hle, heos⟩ := phase_eq_endOfStream.1 h
  cases n with
  | zero => rfl
  | succ n => rw [read_eq_readLoop, readLoop, if_neg (by omega), if_neg (by omega), if_pos heos]; rfl

theorem read_of_failure (h : a.phase = .awaitingBlock) {rest : σ} (hp : a.pull ask = (.failure, rest)) (n : Nat) :
    a.read ask (n + 1 : Nat) = (⟨[], none⟩, { a with source := rest }) := by
  obtain ⟨hle, heos⟩ := phase_eq_awaitingBlock.1 h
  rw [read_eq_readLoop, readLoop, if_neg (by omega), if_neg (by omega), if_neg (by simp [heos]), hp]

/-- A read of an exhausted block is the read of the block that the source's answer loads. -/
theorem read_of_pull (h : a.phase = .awaitingBlock) {bs : List Byte} {rest : σ} (hp : a.pull ask = (.bytes bs, rest))
    (n : Nat) : a.read ask (n + 1 : Nat) = (a.load bs rest).read ask (n + 1 : Nat) := by
  obtain ⟨hle, heos⟩ := phase_eq_awaitingBlock.1 h
  rw [read_eq_readLoop, readLoop, if_neg (by omega), if_neg (by omega), if_neg (by simp [heos]), hp]
  dsimp only
  by_cases hbs : bs.length = 0
  · rw [if_pos hbs, read_of_endOfStream (phase_eq_endOfStream.2 (by simp [hbs]))]
    rfl
  · rw [if_neg hbs, read_eq_readLoop, readLoop, if_neg (by omega), if_pos (by simpa using Nat.pos_of_ne_zero hbs)]
    simp only [load_offset, Nat.sub_zero, Nat.zero_add]

theorem readLoop_of_hasData (h : a.phase = .hasData) (f r : Nat) (out : List Byte) :
    readLoop ask (f + 1) (r + 1) out a = readLoop ask f (r + 1 - min (a.count - a.offset) (r + 1))
      (out ++ a.decoded (min (a.count - a.offset) (r + 1))) (a.skip (min (a.count - a.offset) (r + 1))) := by
  rw [readLoop, if_neg (by omega), if_pos (phase_eq_hasData.1 h)]
  rfl

/-- A byte of the current block is delivered, and the read goes on behind it. -/
theorem read_of_hasData (h : a.phase = .hasData) (n : Nat) : a.read ask (n + 1 : Nat) =
    (((a.skip 1).read ask n).1.after (a.decoded 1), ((a.skip 1).read ask n).2) := by
  have hlt := phase_eq_hasData.1 h
  rw [read_eq_readLoop, read_eq_readLoop, ← readLoop_eq_after, readLoop_of_hasData h, List.nil_append]
  obtain ⟨k, hk⟩ : ∃ k, min (a.count - a.offset) (n + 1) = 1 + k := ⟨min (a.count - a.offset) (n + 1) - 1, by omega⟩
  rw [hk]
  cases k with
  | zero => rfl
  | succ k =>
    obtain ⟨n, rfl⟩ : ∃ r, n = r + 1 := ⟨n - 1, by omega⟩
    have hnext : (a.skip 1).phase = .hasData := phase_eq_hasData.2 (by rw [skip_offset, skip_count]; omega)
    have hmin : min ((a.skip 1).count - (a.skip 1).offset) (n + 1) = k + 1 := by
      rw [skip_offset, skip_count]
      omega
    rw [readLoop_of_hasData hnext, hmin, skip_skip, decoded_add_skip,
      show n + 1 + 1 - (1 + (k + 1)) = n + 1 - (k + 1) by omega]
    exact readLoop_fuel ask _ _ (by omega) (by omega)

/-- What holds of every read: the cases are the ways a read of at least one byte begins. -/
theorem read_induction {P : Nat → Adapter σ → Prop} (zero : ∀ a, P 0 a)
    (hasData : ∀ n a, a.phase = .hasData → P n (a.skip 1) → P (n + 1) a)
    (endOfStream : ∀ n a, a.phase = .endOfStream → P (n + 1) a)
    (failure : ∀ n a rest, a.phase = .awaitingBlock → a.pull ask = (.failure, rest) → P (n + 1) a)
    (pull : ∀ n a bs rest, a.phase = .awaitingBlock → a.pull ask = (.bytes bs, rest) → P (n + 1) (a.load bs rest) →
      P (n + 1) a) (n : Nat) (a : Adapter σ) : P n a := by
  induction n generalizing a with
  | zero => exact zero a
  | succ n ih =>
    have hready : ∀ b : Adapter σ, b.phase ≠ .awaitingBlock → P (n + 1) b := fun b hb => by
      cases h : b.phase with
      | hasData => exact hasData n b h (ih _)
      | endOfStream => exact endOfStream n b h
      | awaitingBlock => exact absurd h hb
    by_cases h : a.phase = .awaitingBlock
    · match hp : a.pull ask with
      | (.failure, rest) => exact failure n a rest h hp
      | (.bytes bs, rest) => exact pull n a bs rest h hp (hready _ (load_phase_ne_awaitingBlock a bs rest))
    · exact hready a h

/-! ## The end of the stream -/

/-- With `eos` set a read only moves the offset (R179). -/
theorem read_of_eos (h : a.eos = true) (n : Nat) : (a.read ask n).2.source = a.source ∧
    (a.read ask n).2.eos = true ∧ (a.read ask n).2.core = a.core := by
  induction n, a using read_induction (ask := ask) with
  | zero a => exact ⟨rfl, h, rfl⟩
  | hasData n a hp ih =>
    rw [read_of_hasData hp]
    exact ih h
  | endOfStream n a hp =>
    rw [read_of_endOfStream hp]
    exact ⟨rfl, h, rfl⟩
  | failure n a rest hp | pull n a bs rest hp => simp [phase_eq_awaitingBlock, h] at hp

/-- A read that did not fail returns how many bytes it delivered: fewer than asked for at the end of the stream only
(R178). -/
theorem read_returned {out : List Byte} {k : Nat} (h : a.read ask n = (⟨out, some k⟩, b)) :
    k = out.length ∧ out.length ≤ n ∧ (out.length < n → b.phase = .endOfStream) := by
  induction n, a using read_induction (ask := ask) generalizing out k with
  | zero a =>
    cases h
    exact ⟨rfl, le_rfl, fun h => absurd h (lt_irrefl _)⟩
  | hasData n a hp ih =>
    rw [read_of_hasData hp] at h
    match hrest : (a.skip 1).read ask n with
    | (⟨out', none⟩, c) =>
      rw [hrest] at h
      cases h
    | (⟨out', some k'⟩, c) =>
      rw [hrest] at h
      dsimp only [ReadResult.after] at h
      cases h
      obtain ⟨rfl, hle, hend⟩ := ih hrest
      rw [List.length_append, decoded_length]
      exact ⟨rfl, by omega, fun hlt => hend (by omega)⟩
  | endOfStream n a hp =>
    cases (read_of_endOfStream hp (n + 1)).symm.trans h
    exact ⟨rfl, Nat.zero_le _, fun _ => hp⟩
  | failure n a rest hp hf => cases (read_of_failure hp hf n).symm.trans h
  | pull n a bs rest hp hb ih => exact ih ((read_of_pull hp hb n).symm.trans h)

/-! ## Reads one after the other (R187 (b)) -/

/-- A read of `m + n` bytes is the read of `m` bytes, and then that of `n` bytes unless the source has failed. -/
theorem read_add (ask : σ → Pull × σ) (m n : Nat) (a : Adapter σ) : a.read ask (m + n : Nat) =
    if (a.read ask m).1.returned = none then a.read ask m
    else (((a.read ask m).2.read ask n).1.after (a.read ask m).1.buffer, ((a.read ask m).2.read ask n).2) := by
  induction m, a using read_induction (ask := ask) with
  | zero a => rw [Nat.zero_add, read_zero, if_neg nofun, ReadResult.after_nil]
  | hasData m a hp ih =>
    rw [Nat.add_right_comm, read_of_hasData hp, read_of_hasData hp, ih]
    by_cases hnone : ((a.skip 1).read ask m).1.returned = none
    · simp [hnone]
    · simp [hnone]
  | endOfStream m a hp =>
    rw [read_of_endOfStream hp, read_of_endOfStream hp, if_neg nofun, read_of_endOfStream hp, ReadResult.after_nil]
  | failure m a rest hp hf =>
    rw [Nat.add_right_comm, read_of_failure hp hf, read_of_failure hp hf]
    rfl
  | pull m a bs rest hp hb ih =>
    rw [Nat.add_right_comm, read_of_pull hp hb, read_of_pull hp hb, ← Nat.add_right_comm, ih]

theorem read_add_of_failed {m : Nat} (h : (a.read ask m).1.returned = none) (n : Nat) :
    a.read ask (m + n : Nat) = a.read ask m := by rw [read_add, if_pos h]

theorem read_add_of_returned {m : Nat} (h : (a.read ask m).1.returned ≠ none) (n : Nat) : a.read ask (m + n : Nat) =
    (((a.read ask m).2.read ask n).1.after (a.read ask m).1.buffer, ((a.read ask m).2.read ask n).2) := by
  rw [read_add, if_neg h]

theorem read_add_of_read {m k : Nat} {out : List Byte} (h : a.read ask m = (⟨out, some k⟩, b)) (n : Nat) :
    a.read ask (m + n : Nat) = ((b.read ask n).1.after out, (b.read ask n).2) := by
  rw [read_add_of_returned (by rw [h]; nofun), h]

/-- Reads of any sizes deliver what one read of all their bytes does, when the source does not fail in it. -/
theorem readAll_eq_read_sum (ns : List Int) (a : Adapter σ)
    (h : (a.read ask (ns.map Int.toNat).sum).1.returned ≠ none) : readAll ask ns a =
      ((a.read ask (ns.map Int.toNat).sum).1.buffer, (a.read ask (ns.map Int.toNat).sum).2) := by
  induction ns generalizing a with
  | nil => rfl
  | cons n ns ih =>
    rw [List.map_cons, List.sum_cons] at h ⊢
    have hfirst : (a.read ask n.toNat).1.returned ≠ none := fun hnone => by
      rw [read_add_of_failed hnone] at h
      exact h hnone
    rw [read_add_of_returned hfirst] at h ⊢
    simp only [readAll, read_eq_read_toNat ask n a]
    rw [ih _ fun hnone => h (by rw [ReadResult.after_returned, hnone]; rfl)]
    rfl

/-- As long as the current block has them, a read delivers its bytes. -/
theorem read_of_le_block (h : a.offset + n ≤ a.count) : a.read ask n = (⟨a.decoded n, some n⟩, a.skip n) := by
  induction n generalizing a with
  | zero => rfl
  | succ n ih =>
    have hrest : (a.skip 1).offset + n ≤ (a.skip 1).count := by
      rw [skip_offset, skip_count]
      omega
    rw [read_of_hasData (phase_eq_hasData.2 (by omega)), ih hrest, skip_skip, Nat.add_comm n 1, decoded_add_skip]
    simp [ReadResult.after]

/-! ## An adapter as a byte source (R183, R184) -/

theorem ask_eq (ask : σ → Pull × σ) (a : Adapter σ) :
    Adapter.ask ask a = ((a.read ask 64).1.asPull, (a.read ask 64).2) := rfl

/-- What an adapter that does not fail answers to a pull (R183, R184). -/
theorem ask_eq_bytes {bs : List Byte} (h : Adapter.ask ask a = (.bytes bs, b)) :
    a.read ask 64 = (⟨bs, some bs.length⟩, b) ∧ bs.length ≤ 64 ∧ (bs.length < 64 → b.phase = .endOfStream) := by
  rw [ask_eq] at h
  match hread : a.read ask 64 with
  | (⟨out, none⟩, c) =>
    rw [hread] at h
    cases h
  | (⟨out, some k⟩, c) =>
    rw [hread] at h
    cases h
    obtain ⟨rfl, hle, hend⟩ := read_returned (n := 64) hread
    exact ⟨rfl, hle, hend⟩

theorem ask_eq_failure_iff : Adapter.ask ask a = (.failure, b) ↔ ∃ out, a.read ask 64 = (⟨out, none⟩, b) := by
  rw [ask_eq]
  match a.read ask 64 with
  | (⟨out, none⟩, c) => simp [ReadResult.asPull]
  | (⟨out, some k⟩, c) => simp [ReadResult.asPull]

theorem ask_of_read {bs : List Byte} {k : Nat} (h : a.read ask 64 = (⟨bs, some k⟩, b)) :
    Adapter.ask ask a = (.bytes bs, b) := by rw [ask_eq, h]; rfl

theorem ask_of_endOfStream (h : a.phase = .endOfStream) : Adapter.ask ask a = (.bytes [], a) :=
  ask_of_read (read_of_endOfStream h 64)

end Adapter

/-- Settles O53: `read_of_eos`, and `read_of_endOfStream` for an adapter with nothing left to deliver. -/
theorem endOfStreamIsPermanent : Obligations.EndOfStreamIsPermanent := by
  intro σ ask a n heos
  rw [Adapter.read_eq_read_toNat]
  obtain ⟨hsource, hstays, hcore⟩ := Adapter.read_of_eos (ask := ask) heos n.toNat
  exact ⟨hsource, hstays, hcore, fun hle => Adapter.read_of_endOfStream (Adapter.phase_eq_endOfStream.2 ⟨hle, heos⟩) _⟩

/-- Settles O56, by `Adapter.read_add`. -/
theorem readsMayBeSplit : Obligations.ReadsMayBeSplit := by
  intro σ ask a m n
  refine ⟨fun h => ?_, fun h => Adapter.read_add_of_failed h n⟩
  rw [Adapter.read_add_of_returned h]
  exact ⟨rfl, rfl, Option.map_eq_none_iff⟩

/-- Settles O57, by what `ask_eq_bytes`, `ask_of_endOfStream` and `ask_eq_failure_iff` say of a pull. -/
theorem anAdapterIsAByteSource : Obligations.AnAdapterIsAByteSource :=
  fun _ _ _ => ⟨fun _ _ => Adapter.ask_eq_bytes, Adapter.ask_of_endOfStream, fun _ => Adapter.ask_eq_failure_iff⟩

/-! ## The block as an adapter's cipher (R181) -/

/-- Bytes exclusive-ored with the keystream from byte `m` on. -/
def cipher (sw : WordFile) (v : Variant) (m : Nat) (bs : List Byte) : List Byte :=
  bs.mapIdx fun i b => b ^^^ streamByte sw v (m + i)

section

variable (sw : WordFile) (v : Variant) (m : Nat)

@[simp] theorem cipher_length (bs : List Byte) : (cipher sw v m bs).length = bs.length := List.length_mapIdx

theorem cipher_zero (bs : List Byte) : cipher sw v 0 bs = bs.mapIdx fun i b => b ^^^ streamByte sw v i := by
  simp only [cipher, Nat.zero_add]

theorem cipher_append (xs ys : List Byte) :
    cipher sw v m (xs ++ ys) = cipher sw v m xs ++ cipher sw v (m + xs.length) ys := by
  simp only [cipher, List.mapIdx_append, Nat.add_assoc, Nat.add_comm xs.length]

/-- The self-inverse property of an exclusive-or (R169, R187 (c)). -/
theorem cipher_cipher (bs : List Byte) : cipher sw v m (cipher sw v m bs) = bs := by
  refine List.ext_getElem (by simp) fun i _ _ => ?_
  simp [cipher]

end

namespace Adapter

variable {σ : Type} {ask : σ → Pull × σ} {sw : WordFile} {v : Variant} {m : Nat} {a : Adapter σ}

/-- The adapter's cipher stands at byte `m` of a keystream, and its buffers can be used. -/
structure Ready (sw : WordFile) (v : Variant) (m : Nat) (a : Adapter σ) : Prop where
  onStream : OnStream sw v m a.core
  memory : Memory.wf a.core.dmem
  buffers : BuffersUsable a

theorem loading_onStream (h : OnStream sw v m a.core) (bs : List Byte) : OnStream sw v m (a.loading bs) :=
  h.congr rfl rfl rfl rfl rfl

/-- What `XOR` reads of the input buffer is what the host stored there: no output byte has reached it. -/
theorem loading_xorInput (h : Ready sw v m a) {bs : List Byte} (hl : bs.length ≤ 64) {i : Nat} (hi : i < bs.length) :
    xorInput (a.loading bs) i = bs[i] :=
  (xorInput_of_unwritten (s := a.loading bs) fun j hj => h.buffers.2 j i hj (by omega)).trans
    (storeBytes_at bs a.inAddr h.memory (by omega) hi)

/-- The block after a load is that of a completed `XOR`, and the read of `ERR` (R181). -/
theorem load_core (h : Ready sw v m a) {bs : List Byte} (hl : bs.length ≤ 64) (rest : σ) :
    (a.load bs rest).core = { afterXor (a.loading bs) with reply := .data (errWord .ok) } := by
  rw [load_eq a rest h.onStream.keyed hl fun i hi => h.buffers.1 i (by omega), afterXor, loading_xorLength a hl]

/-- A load consumes as many keystream bytes as it pulled (R187 (d)). -/
theorem Ready.load_onStream (h : Ready sw v m a) {bs : List Byte} (hl : bs.length ≤ 64) (rest : σ) :
    OnStream sw v (m + bs.length) (a.load bs rest).core := by
  rw [load_core h hl]
  have hx := (loading_onStream h.onStream bs).xorState bs.length bs.length .ok
  rw [afterXor, loading_xorLength a hl]
  exact hx.congr rfl rfl rfl rfl rfl

/-- A load applies them to the pulled bytes in order (R181). -/
theorem Ready.load_decoded (h : Ready sw v m a) {bs : List Byte} (hl : bs.length ≤ 64) (rest : σ) :
    (a.load bs rest).decoded bs.length = cipher sw v m bs := by
  refine List.ext_getElem (by simp) fun i hi _ => ?_
  rw [decoded_length] at hi
  have hstored := afterXor_byteAt_dst (s := a.loading bs) (storeBytes_wf bs a.inAddr h.memory) (i := i)
    (by rwa [loading_xorLength a hl])
  rw [loading_xorInput h hl hi, (loading_onStream h.onStream bs).pulledByte_eq] at hstored
  simp only [decoded, load_offset, Nat.zero_add, cipher, List.getElem_map, List.getElem_range, List.getElem_mapIdx,
    load_core h hl]
  exact hstored

/-- A load leaves the adapter ready behind the bytes it pulled. -/
theorem Ready.load (h : Ready sw v m a) {bs : List Byte} (hl : bs.length ≤ 64) (rest : σ) :
    Ready sw v (m + bs.length) (a.load bs rest) where
  onStream := h.load_onStream hl rest
  memory := by
    rw [load_core h hl]
    exact afterXor_wf (s := a.loading bs) (storeBytes_wf bs a.inAddr h.memory)
  buffers := by
    have hok : ∀ w, (a.load bs rest).core.dmemOk w = a.core.dmemOk w := fun w => by
      rw [load_core h hl, State.dmemOk, State.dmemOk]
      simp only [afterXor_dmemHoles]
      rfl
    obtain ⟨hadm, hsep⟩ := h.buffers
    exact ⟨fun i hi => ⟨(hok _).trans (hadm i hi).1, (hok _).trans (hadm i hi).2⟩, hsep⟩

theorem Ready.skip (h : Ready sw v m a) (k : Nat) : Ready sw v m (a.skip k) := ⟨h.onStream, h.memory, h.buffers⟩

end Adapter

/-- Settles O54: the decoded bytes by `Adapter.Ready.load_decoded`, the position by `Adapter.Ready.load_onStream`. -/
theorem adapterLoadXorsTheFreshBytes : Obligations.AdapterLoadXorsTheFreshBytes := by
  intro σ a bs rest sw v m hon hwf hl hbuf
  have h : Adapter.Ready sw v m a := ⟨hon, hwf, hbuf⟩
  exact ⟨h.load_decoded hl rest, h.load_onStream hl rest, rfl, by simp⟩

/-! ## A source of 100 bytes (R186) -/

namespace Adapter

variable {σ : Type} {ask : σ → Pull × σ} {sw : WordFile} {v : Variant} {m : Nat} {a : Adapter σ}

theorem pull_of_ask {bs : List Byte} {rest : σ} (h : ask a.source = (.bytes bs, rest)) (hl : bs.length ≤ 64) :
    a.pull ask = (.bytes bs, rest) := by
  rw [pull, h]
  dsimp only
  rw [List.take_of_length_le hl]

/-- A read of exactly the bytes that the source answers with delivers them enciphered. -/
theorem Ready.read_pulled (h : Ready sw v m a) (hp : a.phase = .awaitingBlock) {bs : List Byte} {rest : σ}
    (hask : ask a.source = (.bytes bs, rest)) (hpos : 0 < bs.length) (hl : bs.length ≤ 64) :
    a.read ask bs.length = (⟨cipher sw v m bs, some bs.length⟩, (a.load bs rest).skip bs.length) := by
  obtain ⟨k, hk⟩ : ∃ k, bs.length = k + 1 := ⟨bs.length - 1, by omega⟩
  have hload := read_of_pull hp (pull_of_ask hask hl) k
  rw [← hk] at hload
  rw [hload, read_of_le_block (by simp), h.load_decoded hl]

/-- The two pulls of R186: after the short one the adapter is at its end. -/
theorem reads_of_hundred {xs ys : List Byte} (h : FreshAdapter sw v a) (hy : YieldsHundred ask a.source xs ys) :
    ∃ b c, a.read ask 64 = (⟨cipher sw v 0 xs, some 64⟩, b) ∧ b.read ask 36 = (⟨cipher sw v 64 ys, some 36⟩, c) ∧
      c.phase = .endOfStream ∧ OnStream sw v 100 c.core := by
  obtain ⟨hon, hwf, hbuf, hcount, hoffset, heos⟩ := h
  obtain ⟨hx, hy, src₁, src₂, hask₁, hask₂⟩ := hy
  have ha : Ready sw v 0 a := ⟨hon, hwf, hbuf⟩
  have hread₁ := ha.read_pulled (phase_eq_awaitingBlock.2 ⟨by omega, heos⟩) hask₁ (by omega) (by omega)
  have hb := (ha.load hx.le src₁).skip xs.length
  have hread₂ := hb.read_pulled (phase_eq_awaitingBlock.2 (by simp [hx, heos])) hask₂ (by omega) (by omega)
  have hc := hb.load (hy.trans_le (by omega)) src₂
  rw [hx] at hread₁ hread₂ hc
  rw [hy] at hread₂ hc
  exact ⟨_, _, hread₁, hread₂, phase_eq_endOfStream.2 (by simp [hy]), hc.onStream⟩

/-- A read of at least 100 bytes of such a source, and the adapter after it. -/
theorem read_hundred {xs ys : List Byte} (h : FreshAdapter sw v a) (hy : YieldsHundred ask a.source xs ys) :
    ∃ c : Adapter σ, c.phase = .endOfStream ∧ OnStream sw v 100 c.core ∧ ∀ n : Nat, 100 ≤ n →
      a.read ask n = (⟨cipher sw v 0 (xs ++ ys), some 100⟩, c) := by
  obtain ⟨b, c, hread₁, hread₂, hend, hon⟩ := reads_of_hundred h hy
  obtain ⟨hx, hy, -⟩ := hy
  refine ⟨c, hend, hon, fun n hn => ?_⟩
  obtain ⟨k, rfl⟩ : ∃ k, n = 64 + (36 + k) := ⟨n - 100, by omega⟩
  rw [read_add_of_read (m := 64) hread₁, read_add_of_read (m := 36) hread₂, read_of_endOfStream hend]
  simp [ReadResult.after, cipher_append, hx, hy]

/-- Such an adapter is such a source: its second answer stops at its end (R184). -/
theorem yieldsHundred_of_source {xs ys : List Byte} (h : FreshAdapter sw v a) (hy : YieldsHundred ask a.source xs ys) :
    YieldsHundred (Adapter.ask ask) a (cipher sw v 0 xs) (cipher sw v 64 ys) := by
  obtain ⟨b, c, hread₁, hread₂, hend, -⟩ := reads_of_hundred h hy
  obtain ⟨hx, hy, -⟩ := hy
  have hshort : b.read ask 64 = (⟨cipher sw v 64 ys, some 36⟩, c) := by
    refine (read_add_of_read (m := 36) hread₂ 28).trans ?_
    rw [read_of_endOfStream hend]
    simp [ReadResult.after, hy]
  exact ⟨by rw [cipher_length, hx], by rw [cipher_length, hy], b, c, ask_of_read hread₁, ask_of_read hshort⟩

end Adapter

/-- Settles O55: one read by `Adapter.read_hundred`, and any reads as the one read of all their bytes. -/
theorem theStreamingScenarioReturnsAHundredBytes : Obligations.TheStreamingScenarioReturnsAHundredBytes := by
  intro σ ask a xs ys sw v h hy
  obtain ⟨c, hend, hon, hread⟩ := Adapter.read_hundred h hy
  rw [cipher_zero] at hread
  refine ⟨fun n hn => ?_, fun ns hns => ?_⟩
  · rw [Adapter.read_eq_read_toNat, hread _ (by omega)]
  · have hall := Adapter.readAll_eq_read_sum (ask := ask) ns a (by rw [hread _ hns]; nofun)
    rw [hread _ hns] at hall
    rw [hall]
    exact ⟨rfl, hon, fun k => Adapter.read_of_endOfStream hend k.toNat⟩

/-- Settles O58: the first adapter is a source of 100 enciphered bytes, which the second one enciphers once more. -/
theorem chainedAdaptersReturnTheOriginalContent : Obligations.ChainedAdaptersReturnTheOriginalContent := by
  intro σ ask b xs ys sw v hb ha hy n hn
  obtain ⟨c, -, -, hread⟩ := Adapter.read_hundred hb (Adapter.yieldsHundred_of_source ha hy)
  have hwhole : cipher sw v 0 xs ++ cipher sw v 64 ys = cipher sw v 0 (xs ++ ys) := by
    rw [cipher_append, hy.1]
  rw [Adapter.read_eq_read_toNat, hread _ (by omega), hwhole, cipher_cipher]

end Sys2Proof.Machine

/-! Proofs about the exceptions (spec/60_exceptions.md R190 to R214): what a command can end with, and what an error
leaves unchanged. -/

namespace Sys2Proof.Machine

/-- The four ways a well-formed command can end: stopped by the gate of R80, completed, or with an error of its own. -/
theorem exec_err_cases {i : Instr} {s t : State} (hwf : i.wf = true) (h : exec i s = .next t) :
    (needsKeyed i = true ∧ t.ERR = .notKeyed) ∨ t.ERR = .ok ∨ (i = .xor ∧ t.ERR = .busFault) ∨
      ∃ klen nlen rounds, i = .init klen nlen rounds ∧ t.ERR ∈ [.invalidKeySize, .invalidNonceSize] := by
  by_cases hk : needsKeyed i = true → s.KEYED = true
  · exact .inr (exec_err_of_passed hwf hk h)
  · obtain ⟨hn, hs⟩ := Classical.not_imp.1 hk
    cases (exec_not_keyed hn (Bool.eq_false_iff.2 hs)).symm.trans h
    exact .inl ⟨hn, rfl⟩

/-- Settles O37: of the four ways to end, the rows of the commands that R80 gates list `NotKeyed`, every row lists
completion, and the rows of `XOR` and `INIT` list the errors of their own. -/
theorem eachCommandEndsWithAnOutcomeOfItsRow : Obligations.EachCommandEndsWithAnOutcomeOfItsRow := by
  intro i s t hwf h
  obtain ⟨hn, he⟩ | he | ⟨rfl, he⟩ | ⟨klen, nlen, rounds, rfl, he⟩ := exec_err_cases hwf h
  · cases i with
    | ctrinc | genblk | xload | xadd | xorb | xor | nextint | reset => simp [he]
    | qr | colrnd | rowrnd | dblrnd | init | xser => cases hn
  · cases i <;> simp [he]
  · simp [he]
  · exact List.mem_cons_of_mem _ he

/-- A command word that ends with an error other than `BusFault` changes nothing but `ERR`, whether the decoder refuses
it or the command raises (R202). -/
theorem command_eq_withErr {w : Word} {s t : State} (h : command w s = .next t) (hok : t.ERR ≠ .ok)
    (hbus : t.ERR ≠ .busFault) : t = { s with ERR := t.ERR } := by
  cases hd : decode w with
  | error e => cases (command_of_error hd s).symm.trans h; rfl
  | ok i => exact exec_eq_withErr ((command_of_ok hd s).symm.trans h) hok hbus

/-- Settles O38: the four errors are those that are neither completion nor `BusFault`. -/
theorem errorsOtherThanBusFaultChangeOnlyErr : Obligations.ErrorsOtherThanBusFaultChangeOnlyErr := by
  intro w s t h he
  have hok : t.ERR ≠ .ok := by intro hok; simp [hok] at he
  have hbus : t.ERR ≠ .busFault := by intro hbus; simp [hbus] at he
  exact command_eq_withErr h hok hbus

end Sys2Proof.Machine

/-! Proofs about reset and hazards (spec/70_reset_and_hazards.md R219 to R226): the host's keying sequence, and the two
commands that move the block counter apart from the pulls. Inside a block a `CTRINC` commutes with the pulls
(`nextKsByte_afterCtrinc`), because only a pull at cursor 0 looks at the counter. -/

namespace Sys2Proof.Machine

open Sys2Proof.Statements

/-! ## Blocks skipped -/

/-- The block after a `CTRINC` (R119). -/
def afterCtrinc (s : State) : State := { s with S := counterIncrement s.S, ERR := .ok }

theorem exec_ctrinc_eq_afterCtrinc {s : State} (hk : s.KEYED = true) : exec .ctrinc s = .next (afterCtrinc s) :=
  exec_ctrinc hk

theorem nextKsByte_afterCtrinc {s : State} (hc : s.CUR ≠ 0) :
    nextKsByte (afterCtrinc s) = ((nextKsByte s).1, afterCtrinc (nextKsByte s).2) := by
  have hc' : (afterCtrinc s).CUR ≠ 0 := hc
  simp only [nextKsByte, refill_of_ne hc, refill_of_ne hc']
  rfl

theorem afterPulls_CUR_ne_zero {s : State} (hc : s.CUR ≠ 0) {k : Nat} (hk : s.CUR.val + k < 64) :
    (afterPulls k s).CUR ≠ 0 := by
  rw [ne_eq, ← Fin.val_eq_zero_iff] at hc ⊢
  rw [afterPulls_CUR]
  omega

/-- As long as the pulls stay in the block they start in, the `CTRINC` may as well come after them (R224). -/
theorem afterPulls_afterCtrinc {s : State} (hc : s.CUR ≠ 0) {k : Nat} (hk : s.CUR.val + k ≤ 64) :
    afterPulls k (afterCtrinc s) = afterCtrinc (afterPulls k s) := by
  induction k with
  | zero => rfl
  | succ k ih =>
    rw [afterPulls, ih (by omega), nextKsByte_afterCtrinc (afterPulls_CUR_ne_zero hc hk)]
    rfl

theorem pulledByte_afterCtrinc {s : State} (hc : s.CUR ≠ 0) {k : Nat} (hk : s.CUR.val + k < 64) :
    pulledByte (afterCtrinc s) k = pulledByte s k := by
  rw [pulledByte, afterPulls_afterCtrinc hc hk.le, nextKsByte_afterCtrinc (afterPulls_CUR_ne_zero hc hk), pulledByte]

namespace OnStream

variable {sw : WordFile} {v : Variant} {m : Nat} {s : State}

/-- One increment is one block further on, so 64 bytes (R118, R151). -/
theorem counterIncrement_words (h : OnStream sw v m s) : counterIncrement s.S = atBlock sw ((m + 64 + 63) / 64) := by
  have hdiv : (m + 63) / 64 + 1 = (m + 64 + 63) / 64 := by omega
  rw [h.words, counterIncrement_atBlock, hdiv]

theorem cursor_add_block (h : OnStream sw v m s) : s.CUR.val = (m + 64) % 64 := by
  rw [h.cursor, Nat.add_mod_right]

/-- `GENBLK` inside a block puts the next one under the cursor (R223). -/
theorem afterGenblk (h : OnStream sw v m s) : OnStream sw v (m + 64) { generateBlock s with ERR := .ok } where
  keyed := h.keyed
  words := h.counterIncrement_words
  variant := h.variant
  cursor := h.cursor_add_block
  block hm := by
    have hdiv : (m + 63) / 64 = (m + 64) / 64 := by omega
    rw [generateBlock_KS, h.words, h.variant, hdiv]

theorem afterCtrinc_of_cursor_zero (h : OnStream sw v m s) (hc : s.CUR = 0) : OnStream sw v (m + 64) (afterCtrinc s) where
  keyed := h.keyed
  words := h.counterIncrement_words
  variant := h.variant
  cursor := h.cursor_add_block
  block hm := absurd (h.cursor_zero.1 hc) (by omega)

/-- Once the block is used up, the `CTRINC` inside it has skipped the one after it (R224). -/
theorem afterCtrinc_at_block_end (h : OnStream sw v m s) (hc : s.CUR ≠ 0) :
    OnStream sw v (m + 64 + (64 - m % 64)) (Machine.afterPulls (64 - m % 64) (afterCtrinc s)) := by
  have hcur := h.cursor
  have hend := h.afterPulls (64 - m % 64)
  rw [afterPulls_afterCtrinc hc (by omega), Nat.add_right_comm]
  exact hend.afterCtrinc_of_cursor_zero (hend.cursor_zero.2 (by omega))

theorem pulledByte_afterCtrinc_rest (h : OnStream sw v m s) (hc : s.CUR ≠ 0) {k : Nat} (hk : k < 64 - m % 64) :
    pulledByte (afterCtrinc s) k = streamByte sw v (m + k) := by
  have hcur := h.cursor
  rw [pulledByte_afterCtrinc hc (by omega), h.pulledByte_eq]

theorem pulledByte_afterCtrinc_later (h : OnStream sw v m s) (hc : s.CUR ≠ 0) {k : Nat} (hk : 64 - m % 64 ≤ k) :
    pulledByte (afterCtrinc s) k = streamByte sw v (m + 64 + k) := by
  obtain ⟨j, rfl⟩ := Nat.exists_eq_add_of_le hk
  rw [pulledByte_add, (h.afterCtrinc_at_block_end hc).pulledByte_eq, Nat.add_assoc]

end OnStream

/-- Settles O59: both commands increment the counter; `GENBLK` replaces the block too, and a `CTRINC` inside a block takes
effect where the block ends. -/
theorem genblkSkipsOneBlockOfTheKeystream : Obligations.GenblkSkipsOneBlockOfTheKeystream := by
  intro sw v m s h
  refine ⟨⟨_, exec_genblk h.keyed, rfl, h.afterGenblk, h.afterGenblk.pulledByte_eq⟩, afterCtrinc s,
    exec_ctrinc_eq_afterCtrinc h.keyed, h.afterCtrinc_of_cursor_zero, fun hc k => ?_⟩
  exact ⟨h.pulledByte_afterCtrinc_rest hc, h.pulledByte_afterCtrinc_later hc⟩

/-! ## What each command adds to the block counter -/

theorem blocksPulled_succ (cur n : Nat) :
    blocksPulled cur (n + 1) = blocksPulled cur n + if (cur + n) % 64 = 0 then 1 else 0 := by
  unfold blocksPulled
  split
  · omega
  · omega

theorem blocksPulled_le (cur n : Nat) : blocksPulled cur n ≤ n := by
  unfold blocksPulled
  omega

theorem counter_refill (s : State) : counter (refill s).S = counter s.S + if s.CUR = 0 then 1 else 0 := by
  by_cases hc : s.CUR = 0
  · rw [refill_of_zero hc, generateBlock_S, counter_increment, if_pos hc]
  · rw [refill_of_ne hc, if_neg hc]
    exact (BitVec.add_zero _).symm

/-- The pulls at cursor 0 generate the blocks, and those alone move the counter (R150). -/
theorem counter_afterPulls (n : Nat) (s : State) :
    counter (afterPulls n s).S = counter s.S + BitVec.ofNat 64 (blocksPulled s.CUR.val n) := by
  induction n with
  | zero => simp [afterPulls, blocksPulled]
  | succ n ih =>
    have hcur : (afterPulls n s).CUR = 0 ↔ (s.CUR.val + n) % 64 = 0 := by
      rw [← Fin.val_eq_zero_iff, afterPulls_CUR]
    rw [afterPulls, nextKsByte_S, counter_refill, ih, blocksPulled_succ, BitVec.ofNat_add, BitVec.add_assoc]
    simp only [hcur]
    split
    · rfl
    · rfl

/-- A sum of 64 bits ends below its start exactly when it has wrapped (R120, R226). -/
theorem counter_le_add_iff {c : BitVec 64} {n : Nat} (hn : n < 2 ^ 64) :
    c.toNat ≤ (c + BitVec.ofNat 64 n).toNat ↔ c.toNat + n < 2 ^ 64 := by
  have hc := c.isLt
  rw [BitVec.toNat_add, BitVec.toNat_ofNat]
  omega

/-- The duty towards a command that adds `n` blocks and does not restart the keystream (R223, R226). -/
theorem hostDuty_iff {i : Instr} {s t : State} {n : Nat} (he : exec i s = .next t)
    (hcount : counter t.S = counter s.S + BitVec.ofNat 64 n) (hn : n < 2 ^ 64) (hr : restarts i = false)
    (hb : replacesBlock i = true ↔ i = .genblk) :
    HostDuty i s ↔ (counter s.S).toNat + n < 2 ^ 64 ∧ (i = .genblk → s.CUR = 0) := by
  rw [← counter_le_add_iff hn, ← hcount, ← hb]
  refine ⟨fun h => ⟨h.counter hr t he, h.block⟩, fun ⟨hle, hcur⟩ => ⟨fun _ u hu => ?_, hcur⟩⟩
  cases he.symm.trans hu
  exact hle

theorem replacesBlock_of_restarts {i : Instr} (h : restarts i = true) : replacesBlock i = false := by
  cases i with
  | init | reset => rfl
  | qr | colrnd | rowrnd | dblrnd | ctrinc | genblk | xload | xadd | xser | xorb | xor | nextint => cases h

theorem hostDuty_of_restarts {i : Instr} (h : restarts i = true) (s : State) : HostDuty i s where
  counter hr := absurd (h.symm.trans hr) nofun
  block hb := absurd (hb.symm.trans (replacesBlock_of_restarts h)) nofun

/-- Settles O60: one increment for each counting command, and for each byte command the blocks of its pulls. -/
theorem theCounterDutyIsToStayBelowTheWrap : Obligations.TheCounterDutyIsToStayBelowTheWrap := by
  refine ⟨fun s n => counter_afterPulls n s, fun s i n hk hadm hi => ?_, fun s i h => hostDuty_of_restarts h s⟩
  have hpulled : ∀ p, p < 2 ^ 31 → blocksPulled s.CUR.val p < 2 ^ 64 := fun p hp => by
    have := blocksPulled_le s.CUR.val p
    omega
  obtain ⟨t, he, hcount, hn, hr, hb⟩ : ∃ t, exec i s = .next t ∧ counter t.S = counter s.S + BitVec.ofNat 64 n ∧
      n < 2 ^ 64 ∧ restarts i = false ∧ (replacesBlock i = true ↔ i = .genblk) := by
    simp only [List.mem_cons, List.not_mem_nil, or_false, Prod.mk.injEq] at hi
    obtain (⟨rfl, rfl⟩ | ⟨rfl, rfl⟩ | ⟨rfl, rfl⟩) | ⟨b, rfl, rfl⟩ | ⟨w, rfl, rfl⟩ := hi
    · exact ⟨_, exec_genblk hk, counter_increment s.S, by decide, rfl, by decide⟩
    · exact ⟨_, exec_ctrinc hk, counter_increment s.S, by decide, rfl, by decide⟩
    · exact ⟨_, exec_xor_admitted hk hadm, counter_afterPulls _ s, hpulled _ (xorLength_lt s), rfl, by decide⟩
    · exact ⟨_, exec_xorb hk b, counter_afterPulls 1 s, hpulled 1 (by decide), rfl, by simp [replacesBlock]⟩
    · have hw : 2 ^ w.val < 2 ^ 31 := Nat.pow_lt_pow_right (by decide) (by omega)
      exact ⟨_, exec_nextint hk w, counter_afterPulls _ s, hpulled _ hw, rfl, by simp [replacesBlock]⟩
  exact ⟨⟨t, he, hcount⟩, hostDuty_iff he hcount hn hr hb⟩

/-! ## The host's keying sequence -/

theorem performAll_append {as : List HostAccess} {s t : State} (h : performAll as s = .next t) (bs : List HostAccess) :
    performAll (as ++ bs) s = performAll bs t := by
  induction as generalizing s with
  | nil => cases h; rfl
  | cons a as ih =>
    cases hp : perform a s with
    | next u =>
      simp only [performAll, hp] at h
      simp only [List.cons_append, performAll, hp, ih h]
    | fault f => cases f
    | refused r => simp only [performAll, hp] at h; cases h

/-- A word stored elsewhere leaves a word as it reads (R46). -/
theorem le32_putWord_other {n : Nat} (b : Vector Byte n) {o p : Nat} (w : Word) (h : o + 4 ≤ n) (hp : p + 4 ≤ n)
    (hne : p + 4 ≤ o ∨ o + 4 ≤ p) : le32 (putWord b o w h) p hp = le32 b p hp := by
  have byte : ∀ j (_ : j < 4), (putWord b o w h)[p + j] = b[p + j] := fun j hj =>
    putWord_other b o w h (by omega) (by omega)
  have byte0 : (putWord b o w h)[p] = b[p] := byte 0 (by omega)
  simp only [le32, byte0, byte 1 (by omega), byte 2 (by omega), byte 3 (by omega)]

theorem perform_wr_keyw (k : Fin 8) (w : Word) (s : State) :
    perform (wr (.keyw k) w) s = .next { s with KEY := putWord s.KEY (4 * k.val) w (by omega), reply := .done } :=
  perform_wr (.keyw k) w s

theorem keyWord_putWord (key : Vector Byte 32) (k j : Fin 8) (w : Word) :
    keyWord (putWord key (4 * k.val) w (by omega)) j = if j = k then w else keyWord key j := by
  split
  · next h => rw [h]; exact le32_putWord key _ w _
  · next h => exact le32_putWord_other key w _ _ (by omega)

/-- The key writes of `SETKEY`: one word each, and no word written twice (R46, R85). -/
theorem performAll_keyWords (bs : List Byte) (s : State) {n : Nat} (hn : n ≤ 8) :
    ∃ t, performAll ((List.range n).map fun k => wr (.keyw (Fin.ofNat 8 k)) (listWord bs k)) s = .next t ∧
      (∀ j : Fin 8, j.val < n → keyWord t.KEY j = listWord bs j.val) ∧
      t = { s with KEY := t.KEY, reply := t.reply } := by
  induction n with
  | zero => exact ⟨s, rfl, fun j hj => absurd hj (Nat.not_lt_zero _), rfl⟩
  | succ n ih =>
    obtain ⟨t, ht, hwords, hframe⟩ := ih (by omega)
    have hval : (Fin.ofNat 8 n).val = n := Nat.mod_eq_of_lt (by omega)
    refine ⟨{ t with KEY := putWord t.KEY (4 * (Fin.ofNat 8 n).val) (listWord bs n) (by omega), reply := .done },
      ?_, fun j hj => ?_, by rw [hframe]⟩
    · rw [List.range_succ, List.map_append, performAll_append ht]
      simp only [List.map_cons, List.map_nil, performAll, perform_wr_keyw]
    · rw [keyWord_putWord]
      split
      · next h => rw [h, hval]
      · next h => exact hwords j (by omega)

/-- The two nonce writes of `SETNONCE` (R46, R85). -/
theorem performAll_setnonce (bs : List Byte) (s : State) :
    ∃ t, performAll (Pseudo.setnonce bs).expand s = .next t ∧ le32 t.NONCE 0 (by omega) = listWord bs 0 ∧
      le32 t.NONCE 4 (by omega) = listWord bs 1 ∧ t = { s with NONCE := t.NONCE, reply := .done } :=
  ⟨{ s with NONCE := putWord (putWord s.NONCE 0 (listWord bs 0) (by omega)) 4 (listWord bs 1) (by omega), reply := .done },
    rfl, (le32_putWord_other _ _ (by omega) _ (.inl (by omega))).trans (le32_putWord _ _ _ _), le32_putWord _ _ _ _, rfl⟩

theorem perform_issue {i : Instr} (hi : i.wf = true) (s : State) : perform (issue i) s = exec i { s with reply := .done } :=
  (perform_wr .cmd (encode i) s).trans (command_of_ok (decodeOfEncodeIsTheCommand i hi) _)

/-- A length field holds the length up to 254, and 255 for every longer list (R74). -/
theorem lengthField_eq_iff {bs : List Byte} {n : Byte} (hn : n.toNat < 255) :
    lengthField bs = n ↔ bs.length = n.toNat := by
  rw [← BitVec.toNat_inj, lengthField, BitVec.toNat_ofNat]
  omega

/-- The keying sequence up to its `INIT`, and from there on: the buffers hold the key and the nonce, and what the `INIT`
ends in is what the sequence ends in (R219). -/
theorem performAll_keyingSequence (key nonce : List Byte) (rounds : Variant) (s : State) :
    ∃ u : State, (∀ j (_ : j < 8), 4 * j + 4 ≤ key.length → le32 u.KEY (4 * j) (by omega) = listWord key j) ∧
      le32 u.NONCE 0 (by omega) = listWord nonce 0 ∧ le32 u.NONCE 4 (by omega) = listWord nonce 1 ∧
      u = { s with KEY := u.KEY, NONCE := u.NONCE, reply := u.reply } ∧
      ∀ t, exec (.init (lengthField key) (lengthField nonce) rounds) u = .next t →
        performAll (keyingSequence key nonce rounds) s = .next { t with reply := .data (errWord t.ERR) } := by
  obtain ⟨t, ht, hkey, hframe⟩ := performAll_keyWords key s (n := min (key.length / 4) 8) (by omega)
  obtain ⟨u, hu, hnonce0, hnonce1, hframe'⟩ := performAll_setnonce nonce t
  have hKEY : u.KEY = t.KEY := by rw [hframe']
  have hdone : { u with reply := .done } = u := by rw [hframe']
  refine ⟨u, fun j hj hlen => ?_, hnonce0, hnonce1, by rw [hframe', hframe], fun w hw => ?_⟩
  · rw [hKEY]
    exact hkey ⟨j, hj⟩ (by dsimp only; omega)
  · have hseq : performAll ((Pseudo.setkey key).expand ++ (Pseudo.setnonce nonce).expand) s = .next u :=
      (performAll_append ht _).trans hu
    rw [keyingSequence, performAll_append hseq]
    simp only [performAll, perform_issue (i := .init _ _ _) rfl, hdone, hw, perform_rd, readReg]

theorem hasConstants_keySchedule (klen : Byte) (key : Vector Byte 32) (nonce : Vector Byte 8) :
    HasConstants (keySchedule klen key nonce) := by
  unfold keySchedule
  split
  · exact hasConstants_keySchedule32 key nonce
  · exact hasConstants_keySchedule16 key nonce

/-- The length checks of `INIT` on the length fields of a key and a nonce (R116, R199). -/
theorem exec_init_refused {key nonce : List Byte} (h : ¬((key.length = 16 ∨ key.length = 32) ∧ nonce.length = 8))
    (rounds : Variant) (s : State) : exec (.init (lengthField key) (lengthField nonce) rounds) s = .next { s with
      ERR := if key.length = 16 ∨ key.length = 32 then .invalidNonceSize else .invalidKeySize } := by
  have h16 := lengthField_eq_iff (bs := key) (n := 16) (by decide)
  have h32 := lengthField_eq_iff (bs := key) (n := 32) (by decide)
  have h8 := lengthField_eq_iff (bs := nonce) (n := 8) (by decide)
  split
  · next hk => exact exec_init_invalidNonceSize (hk.imp h16.2 h32.2) (fun e => h ⟨hk, h8.1 e⟩) rounds s
  · next hk => exact exec_init_invalidKeySize (fun e => hk (.inl (h16.1 e))) (fun e => hk (.inr (h32.1 e))) _ rounds s

/-- Settles O52: the sequence fills the buffers and ends in what its `INIT` ends in, which is the key schedule of the
buffers or an error that leaves the cipher state alone. -/
theorem theKeyingSequenceKeysTheBlock : Obligations.TheKeyingSequenceKeysTheBlock := by
  refine ⟨fun key nonce rounds s hk hn => ?_, fun key nonce rounds s h => ?_⟩
  · obtain ⟨u, hkey, hnonce0, hnonce1, -, hseq⟩ := performAll_keyingSequence key nonce rounds s
    have h32 : lengthField key = 32 ↔ key.length = 32 := lengthField_eq_iff (by decide)
    have hklen : lengthField key = 16 ∨ lengthField key = 32 := hk.imp (lengthField_eq_iff (by decide)).2 h32.2
    have hnlen : lengthField nonce = 8 := (lengthField_eq_iff (by decide)).2 hn
    rw [hnlen] at hseq
    obtain ⟨t, ht, herr⟩ : ∃ t, exec (.init (lengthField key) 8 rounds) u = .next t ∧ t.ERR = .ok :=
      ⟨_, exec_init hklen rounds u, rfl⟩
    obtain ⟨hS, hstream⟩ := exec_init_onStream hklen ht
    have hwords := words_of_exec_init hklen ht
    obtain ⟨hn0, hn1⟩ := keySchedule_nonce (lengthField key) u.KEY u.NONCE
    refine ⟨_, hseq t ht, by rw [herr]; rfl, herr, hstream.keyed, hstream.variant, hstream.cur_eq rfl, hS, ?_, ?_⟩
    · intro i hi
      have h16 : 16 + 4 * i = 4 * (4 + i) := by omega
      simp only [hwords, keySchedule_firstHalf _ _ _ hi, keySchedule_secondHalf _ _ _ hi, h32, h16]
      refine ⟨hkey i (by omega) (by omega), ?_⟩
      split
      · exact hkey (4 + i) (by omega) (by omega)
      · exact hkey i (by omega) (by omega)
    · simp only [hwords]
      exact ⟨hn0.trans hnonce0, hn1.trans hnonce1, hasConstants_keySchedule _ _ _,
        hwords ▸ hstream.congr rfl rfl rfl rfl rfl⟩
  · obtain ⟨u, -, -, -, hframe, hseq⟩ := performAll_keyingSequence key nonce rounds s
    refine ⟨_, hseq _ (exec_init_refused h rounds u), ?_, ?_⟩
    · dsimp only
      split
      · rfl
      · rfl
    · rw [hframe]
      exact ⟨rfl, rfl, rfl, rfl⟩

end Sys2Proof.Machine
